-- ==== Sys2Proof/Word.lean ====
section
/-! DEFINITION. The word types of the block: the byte of the ports and of the image store, and the bit of a sample. -/

namespace Sys2Proof

/-- A byte: of the image store, of a chunk, of a command or of a response frame (R16, R80). -/
abbrev Byte := BitVec 8

/-- A tape sample, a host bit or a logical bit: `true` is value 1, "high" (R18, R19). -/
abbrev Bit := Bool

end Sys2Proof
end

