-- ==== Sys2Proof/Config.lean ====
section
/-! DEFINITION. The parameters the spec leaves open (R9 to R15, 93_implementation_defined.md section 2), as plain data,
and the free values: constants with no body, which nothing in Lean can evaluate. -/

namespace Sys2Proof

/-- The four host sample-rate classes (R56). -/
inductive RateClass where
  | c48k | c44k1 | c44k1alt | c32k
  deriving DecidableEq, Repr, Inhabited

/-- `REC_PROTECT_POLICY`: what REC does on a protected tape (R14, R231). -/
inductive RecProtectPolicy where
  | write | inhibit | refuse
  deriving DecidableEq, Repr, Inhabited

/-- `UNLISTED_CMD_POLICY`: what a command byte outside the ten does (R14, R121). -/
inductive UnlistedCmdPolicy where
  | ignore | refuse
  deriving DecidableEq, Repr, Inhabited

/-- `TIE_RULE`: what the raw decimator commits on a tied vote (R14, R224). -/
inductive TieRule where
  | repeatLast | keepTape
  deriving DecidableEq, Repr, Inhabited

/-- `MODE_CODE`: one byte for each of the nine modes (R134). -/
structure ModeCodes where
  none            : Byte := 0
  play            : Byte := 1
  record          : Byte := 2
  rewind          : Byte := 3
  fastForward     : Byte := 4
  autoRewind      : Byte := 5
  autoFastForward : Byte := 6
  stop            : Byte := 7
  eject           : Byte := 8
  deriving DecidableEq, Repr, Inhabited

/-- The nine codes in the order of R50. -/
def ModeCodes.toList (m : ModeCodes) : List Byte :=
  [m.none, m.play, m.record, m.rewind, m.fastForward, m.autoRewind, m.autoFastForward, m.stop, m.eject]

/-- `RATE_CLASS_CODE`: one byte for each of the four classes (R135). -/
structure RateClassCodes where
  c48k     : Byte := 0
  c44k1    : Byte := 1
  c44k1alt : Byte := 2
  c32k     : Byte := 3
  deriving DecidableEq, Repr, Inhabited

/-- The four codes in the order of R56. -/
def RateClassCodes.toList (c : RateClassCodes) : List Byte :=
  [c.c48k, c.c44k1, c.c44k1alt, c.c32k]

/-- One row of `RATE_CLASS_OTHER`: the class of tape rate `rate` when the alternate flag is `alt` (R284). -/
structure RateClassRow where
  rate  : Nat
  alt   : Bool
  rateClass : RateClass
  deriving DecidableEq, Repr, Inhabited

/-- Every parameter of 93_implementation_defined.md section 2, under the spec's own name. The values written here for the
parameters with no default only show that the type is inhabited: no step and no statement uses them (log entry 1). -/
structure Params where
  /-- `CHUNK_BYTES` (R10): the size of a chunk. -/
  chunkBytes : Nat := 1
  /-- `MODERN_MAGIC` (R11): the 4-byte tag of a modern image. -/
  modernMagic : List Byte := [0, 0, 0, 0]
  /-- `SEEK_TICK_MS` (R12): the length of one fast-wind tick. -/
  seekTickMs : Nat := 1
  /-- `UPDATE_MS` (R12): timing only, no rule reads it. -/
  updateMs : Nat := 90
  /-- `KIND_SENSOR_CHANGE` (R122). -/
  kindSensorChange : Byte := 0
  /-- `KIND_STATUS_CHANGE` (R122). -/
  kindStatusChange : Byte := 1
  /-- `KIND_REQUEST_ACK` (R122). -/
  kindRequestAck : Byte := 2
  /-- `KIND_SAMPLE_RATE_CHANGE` (R122). -/
  kindSampleRateChange : Byte := 3
  /-- `SENSOR_BIT_RUNNING` (R132). -/
  sensorBitRunning : Fin 8 := 0
  /-- `SENSOR_BIT_TAPESET` (R132). -/
  sensorBitTapeset : Fin 8 := 1
  /-- `SENSOR_BIT_NOTWP` (R132). -/
  sensorBitNotwp : Fin 8 := 2
  /-- `MODE_CODE` (R134). -/
  modeCode : ModeCodes := {}
  /-- `RATE_CLASS_CODE` (R135). -/
  rateClassCode : RateClassCodes := {}
  /-- `HOST_RATE_ALT` (R9): the host rate of class C44K1ALT, in 1 .. 48000 (R191, R194). -/
  hostRateAlt : Nat := 44100
  /-- `RATE_CLASS_OTHER` (R284): the classes given to single tape rates. -/
  rateClassRows : List RateClassRow := []
  /-- `RATE_CLASS_OTHER` (R284) for every rate with no row; `none` leaves it open, and then the run is refused (R347). -/
  rateClassRest : Option RateClass := some .c48k
  /-- `POS_MAX` (R15): the largest position of a legacy image. -/
  posMax : Nat := 4294967295
  /-- `REC_PROTECT_POLICY` (R231). -/
  recProtectPolicy : RecProtectPolicy := .refuse
  /-- `UNLISTED_CMD_POLICY` (R121). -/
  unlistedCmdPolicy : UnlistedCmdPolicy := .refuse
  /-- `APSS_TOL_HI` (R256), with the spec's default. -/
  apssTolHi : Nat := 44100
  /-- `TIE_RULE` (R224), with the spec's default. -/
  tieRule : TieRule := .repeatLast
  deriving DecidableEq, Repr, Inhabited

/-- What the spec asks of the parameters: a positive chunk size (R10), a 4-byte magic (R11), a positive tick (D15), four
distinct kind bytes (R122), three distinct sensor bits (R132), injective mode and class codes (R134, R135), an
alternate host rate in 1 .. 48000 (R191, R194, log entry 16) and POS_MAX at least 2^32 - 1 (R15). -/
def Params.wf (p : Params) : Bool :=
  decide (0 < p.chunkBytes)
    && p.modernMagic.length == 4
    && decide (0 < p.seekTickMs)
    && decide [p.kindSensorChange, p.kindStatusChange, p.kindRequestAck, p.kindSampleRateChange].Nodup
    && decide [p.sensorBitRunning, p.sensorBitTapeset, p.sensorBitNotwp].Nodup
    && decide p.modeCode.toList.Nodup
    && decide p.rateClassCode.toList.Nodup
    && decide (0 < p.hostRateAlt)
    && decide (p.hostRateAlt ≤ 48000)
    && decide (4294967295 ≤ p.posMax)

/-- Parameters that meet the spec's conditions. -/
structure WfParams where
  val : Params := {}
  ok  : val.wf = true := by decide
  deriving DecidableEq, Repr, Inhabited

namespace Config

/-- FREE VALUE (log entry 1): the parameters of the chip. Known only to meet `Params.wf`. -/
opaque machineParams : WfParams

/-- FREE VALUE (log entry 7): whether the worker iteration that makes draw number `n` appends UPDATE (R302). -/
opaque freeUpdate : Nat → Bool

/-- FREE VALUE (log entry 8): which of the values a field held during a status read is answered (R94). -/
opaque freeRead : Nat → Nat

end Config

end Sys2Proof
end

