-- ==== Sys2Proof/Syntax.lean ====
section
/-! DEFINITION. The instruction set: the ten command bytes of R120, one constructor for each row of the opcode table. -/

namespace Sys2Proof

/-- The ten commands of R120. A command is one byte with no fields and no operands, so no constructor has an argument. -/
inductive Instr where
  /-- EJECT, R290 -/
  | eject
  /-- STOP, R291 -/
  | stop
  /-- PLAY, R292 -/
  | play
  /-- FF, R293 -/
  | ff
  /-- REW, R294 -/
  | rew
  /-- AFF, R295 -/
  | aff
  /-- AREW, R296 -/
  | arew
  /-- REC, R297 -/
  | record
  /-- STATUS, R298 -/
  | status
  /-- SENSOR, R299 -/
  | sensor
  deriving DecidableEq, Repr

/-- The queries of R138; every other command is a mode command. -/
def Instr.isQuery : Instr → Bool
  | .status => true
  | .sensor => true
  | .eject | .stop | .play | .ff | .rew | .aff | .arew | .record => false

end Sys2Proof
end

