-- ==== Sys2Proof/WellFormed.lean ====
section
/-! DEFINITION. What makes a command, a chunk and a parameter set well formed. A command has no operands (R120), so every
`Instr` is well formed; what can be ill formed is the bytes of a command, the size of a chunk (R392) and the parameters
(`Params.wf` in Config.lean). -/

namespace Sys2Proof

/-- Every command is well formed: it has no field that could be out of range (R120). -/
def Instr.wellFormed : Instr → Bool
  | .eject | .stop | .play | .ff | .rew | .aff | .arew | .record | .status | .sensor => true

/-- The ten bytes of R120. -/
def commandBytes : List Byte :=
  [0x00, 0x01, 0x02, 0x03, 0x04, 0x05, 0x06, 0x0a, 0x80, 0x81]

/-- A command is exactly one byte (R120, R136), and one of the ten. -/
def wellFormedCommand : List Byte → Bool
  | [b] => commandBytes.contains b
  | _ => false

/-- An inbound chunk has exactly CHUNK_BYTES bytes (R98, R392). -/
def wellFormedChunk (p : Params) (chunk : List Byte) : Bool :=
  chunk.length == p.chunkBytes

end Sys2Proof
end

