-- ==== Sys2Proof/Decode.lean ====
section
/-! DEFINITION. The decoder of command bytes, total on any bytes and rejecting by name, and the encoder (R120, R121). -/

namespace Sys2Proof

/-- One row of the opcode table: the byte decodes to `instr` when its bits under `mask` equal `pattern`. -/
structure OpcodeRow where
  mask    : Byte
  pattern : Byte
  instr   : Instr
  deriving DecidableEq, Repr

/-- The opcode table of R120: "A decoder compares all 8 bits, so the mask is 0xFF for every row." -/
def opcodeTable : List OpcodeRow :=
  [ ⟨0xff, 0x00, .eject⟩, ⟨0xff, 0x01, .stop⟩, ⟨0xff, 0x02, .play⟩, ⟨0xff, 0x03, .ff⟩, ⟨0xff, 0x04, .rew⟩,
    ⟨0xff, 0x05, .aff⟩, ⟨0xff, 0x06, .arew⟩, ⟨0xff, 0x0a, .record⟩, ⟨0xff, 0x80, .status⟩, ⟨0xff, 0x81, .sensor⟩ ]

/-- Whether a byte matches a row. -/
def OpcodeRow.hit (r : OpcodeRow) (b : Byte) : Bool :=
  b &&& r.mask == r.pattern

/-- Why bytes are no command. -/
inductive DecodeError where
  /-- no byte on the command port -/
  | noByte
  /-- one of the 246 bytes of R121 -/
  | unlisted (b : Byte)
  deriving DecidableEq, Repr

/-- The command a byte encodes, by the opcode table. -/
def decodeByte (b : Byte) : Option Instr :=
  (opcodeTable.find? (fun r => r.hit b)).map OpcodeRow.instr

/-- The first command of a list of bytes and the bytes after it: a command is one byte (R120, R136). -/
def decode : List Byte → Except DecodeError (Instr × List Byte)
  | [] => .error .noByte
  | b :: rest =>
    match decodeByte b with
    | some i => .ok (i, rest)
    | none => .error (.unlisted b)

/-- The command byte of R120. -/
def encodeByte : Instr → Byte
  | .eject => 0x00
  | .stop => 0x01
  | .play => 0x02
  | .ff => 0x03
  | .rew => 0x04
  | .aff => 0x05
  | .arew => 0x06
  | .record => 0x0a
  | .status => 0x80
  | .sensor => 0x81

/-- The bytes of a command. -/
def encode (i : Instr) : List Byte := [encodeByte i]

/-- The bytes of a table word: bit 0 is the least significant bit of the first byte, and bits at or above `nbits` are 0. -/
def wordBytes (nbits w : Nat) : List Byte :=
  (List.range (max 1 ((nbits + 7) / 8))).map (fun k => BitVec.ofNat 8 (w % 2 ^ nbits / 256 ^ k))

/-- What the decoder reads from a word of the opcode table. -/
def decodeTableWord (nbits w : Nat) : Option Instr :=
  match decode (wordBytes nbits w) with
  | .ok (i, _) => some i
  | .error _ => none

end Sys2Proof
end

