-- ==== Sys2Proof/Machine/State.lean ====
section
/-! DEFINITION. The state of the block as plain data (10_state.md), the host's side of the ports, the reasons a step can
stop, and the state after reset (R63, R380). -/

namespace Sys2Proof.Machine

/-- The header variant of the open image (R33). -/
inductive Variant where
  | legacy | modern
  deriving DecidableEq, Repr, Inhabited

/-- The nine modes (R50). -/
inductive Mode where
  | none | play | record | rewind | fastForward | autoRewind | autoFastForward | stop | eject
  deriving DecidableEq, Repr, Inhabited

/-- The recording strategy (R44). -/
inductive RecStrategy where
  | edge | raw
  deriving DecidableEq, Repr, Inhabited

/-- The phase of the edge decoder (R47). -/
inductive Phase where
  | scan | advance
  deriving DecidableEq, Repr, Inhabited

/-- A 2-byte response frame (R122). -/
structure Frame where
  kind  : Byte
  value : Byte
  deriving DecidableEq, Repr, Inhabited

/-- The events of the event port (R100, R349). -/
inductive Event where
  | eject | update | deviceDisconnected | deviceError
  deriving DecidableEq, Repr, Inhabited

/-- What the dispatcher takes from `cmdQ`: command bytes, insertions and error items (R58, R280, R367). -/
inductive CmdItem where
  | byte (b : Byte)
  | insert (bytes : List Byte) (readOnly : Bool)
  | devErr
  | disconn
  deriving DecidableEq, Repr

/-- What the dispatcher still has to do when the join inside `stop_worker` ends (R282). -/
inductive Join where
  | start (m : Mode)
  | eject
  | stop
  | insert (bytes : List Byte) (readOnly : Bool)
  | devErr
  | disconn
  deriving DecidableEq, Repr

/-- Where the dispatcher stands: between two items, or holding for `workerAlive = 0` (R280, R282). -/
inductive DispatcherPoint where
  | idle
  | joining (k : Join)
  deriving DecidableEq, Repr

/-- Where the mode worker stands: at the top of its loop, or in one of its holds (R301). -/
inductive WorkerPoint where
  /-- at the top of the loop -/
  | top
  /-- holding for the outbound chunk to be taken (R198), with the end-of-tape result of the chunk's `fillOutput` -/
  | takeHold (eot : Bool)
  /-- holding for an inbound chunk (R229) -/
  | offerHold
  /-- in `worker_exit`, holding for `writerAlive = 0` (R305) -/
  | exitHold (self : Bool)
  deriving DecidableEq, Repr

/-- The agents of the block and its host (R365 to R368). -/
inductive Agent where
  | receiver | dispatcher | worker | writer | host
  deriving DecidableEq, Repr

/-- The fields of the status surface that can be read (R64). -/
inductive StatusAccess where
  | mode | sensor | sampleRate | position | totalBits
  deriving DecidableEq, Repr

/-- What a status read answers (R64). -/
inductive StatusValue where
  | mode (m : Mode)
  | byte (b : Byte)
  | number (n : Nat)
  deriving DecidableEq, Repr

/-- A status read between its request and its answer, with the values the field has held since (R94). -/
structure StatusRead where
  access : StatusAccess
  seen   : List StatusValue
  deriving DecidableEq, Repr

/-- Why an image did not open, in the order the checks are made (R340). -/
inductive OpenCode where
  | badHeader | badRate | tooLarge
  deriving DecidableEq, Repr

/-- The actions of the host agent (R365), the accesses of the status and configuration surface (R64), reset (R380) and the
host's accesses to the image store (R395). -/
inductive HostAction where
  /-- deliver a byte on the command port (R96) -/
  | pushPort (b : Byte)
  /-- issue a command through the surface: the byte goes to `cmdQ` (R64) -/
  | issue (b : Byte)
  /-- insert a tape image (R178) -/
  | insert (bytes : List Byte) (readOnly : Bool)
  /-- take the outbound chunk (R97) -/
  | takeChunk
  /-- offer one inbound chunk (R98) -/
  | offerChunk (bytes : List Byte)
  /-- write `altRate` (R64) -/
  | setAltRate (v : Bool)
  /-- write `recConv` (R64) -/
  | setRecConv (v : Bool)
  /-- read the status surface (R64, R94): one turn requests, a later turn is answered -/
  | readStatus (a : StatusAccess)
  /-- consume a frame of `rspQ` (R99) -/
  | takeFrame
  /-- register an event listener (R64) -/
  | listen
  /-- consume an event of `evtQ` (R100) -/
  | takeEvent
  /-- `deviceError()` (R343) -/
  | deviceError
  /-- `deviceDisconnected()` (R345) -/
  | deviceDisconnected
  /-- read a byte of the image store (R395) -/
  | readImage (address : Nat)
  /-- write a byte of the image store (R395) -/
  | writeImage (address : Nat) (v : Byte)
  /-- power-on or restart (R380) -/
  | reset
  deriving DecidableEq, Repr

/-- What the host agent has received, in order. -/
inductive HostResult where
  /-- the result of an insertion: none is OK (R340, R365) -/
  | inserted (failure : Option OpenCode)
  | chunk (bytes : List Byte)
  | frame (f : Frame)
  | event (e : Event)
  | status (a : StatusAccess) (v : StatusValue)
  | imageByte (address : Nat) (v : Byte)
  deriving DecidableEq, Repr

/-- Why a step stops with a fault: 93_implementation_defined.md section 1. Every one is safe: the model stops. -/
inductive Fault where
  /-- variant, HDR, t, totalBits, pos, protect or readOnly is read while `loaded = 0` (R33 to R38, R64). Raised by the
  status reads, by `close`, by the start operations and by the worker and the writer. Safe: the run stops. -/
  | noTape
  /-- `CursorAtEnd` (R346): `read()` or `write()` at pos = total. Raised by the cursor. Safe: the run stops. -/
  | cursorAtEnd
  /-- an access to a byte that no address space of R81 has. Raised by MemRead, MemWrite, the flush of a cursor that caches no
  byte and the scratch cursor. Safe: the run stops. -/
  | addressOutside
  /-- NONE or another mode that runs nothing is entered by a worker (R50). Raised by `start_mode` and the worker. Safe. -/
  | notRunningMode
  /-- stuck: a loop of R191 or R225 that adds a host rate of 0 never ends. Raised by those loops. Safe: the run stops. -/
  | noProgress
  deriving DecidableEq, Repr

/-- Why a run is refused: R347 and 93_implementation_defined.md section 4. Every one is safe: nothing is claimed. -/
inductive Refusal where
  /-- an instruction that has no meaning yet. Raised by no arm of exec now. Safe. -/
  | notModelled (mnemonic : String)
  /-- an unlisted command byte under UNLISTED_CMD_POLICY = REFUSE (R121, R300). Raised by the dispatcher. Safe. -/
  | unlistedCommand (b : Byte)
  /-- REC on a protected tape under REC_PROTECT_POLICY = REFUSE (R231, R283). Raised by `start_mode`. Safe. -/
  | recProtected
  /-- RATE_CLASS_OTHER is open at this tape rate (R284, R347). Raised by the insertion. Safe. -/
  | rateClassOpen
  /-- an inbound chunk whose size is not CHUNK_BYTES (R392). Raised by the host agent. Safe. -/
  | chunkSize
  /-- the host touches the image store while a tape is loaded (R395). Raised by the host agent. Safe. -/
  | imageOwned
  deriving DecidableEq, Repr

/-- The whole state. Counters and accumulators are mathematical integers (R15). -/
structure State where
  /-- the parameters of the chip (93_implementation_defined.md section 2); no step writes them (log entry 1) -/
  params : Params
  /-- `img` (R80): the bytes of the image file that are not 0, by rising offset (log entry 3) -/
  img : List Host.Cell
  /-- the number of bytes of the image file (R80) -/
  fileSize : Nat
  /-- R32 -/
  loaded : Bool
  /-- R33; HDR is `State.hdr` -/
  variant : Variant
  /-- `t` (R34) -/
  t : Nat
  /-- R35 -/
  totalBits : Nat
  /-- R36 -/
  pos : Nat
  /-- R37 -/
  protect : Bool
  /-- R38 -/
  readOnly : Bool
  /-- R39; `none` is NONE -/
  cacheIdx : Option Nat
  /-- R39 -/
  cacheByte : Byte
  /-- R40 -/
  dirty : Bool
  /-- R41 -/
  slotFull : Bool
  /-- R41 -/
  slotData : List Byte
  /-- R42 -/
  scr : List Byte
  /-- R42 -/
  spos : Nat
  /-- R42 -/
  sValid : Bool
  /-- R43 -/
  acc : Int
  /-- R44 -/
  recStrategy : RecStrategy
  /-- R45 -/
  ended : Bool
  /-- R46 -/
  w : Int
  /-- R46 -/
  vote : Int
  /-- R46 -/
  last : Bool
  /-- R47 -/
  phase : Phase
  /-- R47 -/
  prev : Bool
  /-- R47 -/
  n : Nat
  /-- R47 -/
  k : Nat
  /-- R48 -/
  ign : Nat
  /-- R48; `none` is UNSET -/
  maj : Option Bool
  /-- R48 -/
  mis : Nat
  /-- R48 -/
  mat : Nat
  /-- R48 -/
  seen : Bool
  /-- R48 -/
  found : Bool
  /-- R50 -/
  mode : Mode
  /-- R51 -/
  running : Bool
  /-- R53 -/
  workerAlive : Bool
  /-- R53 -/
  workerMode : Mode
  /-- R53 -/
  runFlag : Bool
  /-- R54 -/
  writerAlive : Bool
  /-- R55 -/
  altRate : Bool
  /-- R55 -/
  recConv : Bool
  /-- R56 -/
  rateClass : RateClass
  /-- R57 -/
  devError : Bool
  /-- R57 -/
  disconnected : Bool
  /-- R58 -/
  cmdQ : List CmdItem
  /-- R59 -/
  rspQ : List Frame
  /-- R59 -/
  evtQ : List Event
  /-- R60 -/
  recEntered : Bool
  /-- R61 -/
  outChunk : List Byte
  /-- R61 -/
  outValid : Bool
  /-- the hold the dispatcher is in, if any (R282) -/
  dispatcherAt : DispatcherPoint
  /-- the hold the worker is in, if any (R198, R229, R305) -/
  workerAt : WorkerPoint
  /-- the bytes on the command port that the receiver has not moved yet (R96, R366) -/
  cmdPort : List Byte
  /-- the host's pending offer on the inbound chunk port (R98, R361) -/
  offer : Option (List Byte)
  /-- whether a listener is registered on the event port (R64) -/
  listener : Bool
  /-- the status read in progress (R94) -/
  statusRead : Option StatusRead
  /-- MODEL: the actions the host agent still has to do, in order (R365) -/
  host : List HostAction
  /-- MODEL: what the host agent has received, in order -/
  hostLog : List HostResult
  /-- MODEL: which agent moves at each of the next steps (R369, log entry 4) -/
  sched : List Agent
  /-- MODEL: how many free draws have been made (R94, R302) -/
  draws : Nat
  deriving DecidableEq, Repr

/-- The state after reset (R63, R380). Every register that the spec leaves unspecified holds the value that log entry 2 names. -/
def State.reset : State where
  params := { Config.machineParams.val with apssTolHi := 44100, tieRule := .repeatLast }
  img := []
  fileSize := 0
  loaded := false
  variant := .legacy
  t := 0
  totalBits := 0
  pos := 0
  protect := false
  readOnly := false
  cacheIdx := none
  cacheByte := 0
  dirty := false
  slotFull := false
  slotData := []
  scr := []
  spos := 0
  sValid := false
  acc := 0
  recStrategy := .edge
  ended := false
  w := 0
  vote := 0
  last := false
  phase := .scan
  prev := false
  n := 0
  k := 0
  ign := 0
  maj := none
  mis := 0
  mat := 0
  seen := false
  found := false
  mode := .eject
  running := false
  workerAlive := false
  workerMode := .none
  runFlag := false
  writerAlive := false
  altRate := false
  recConv := false
  rateClass := .c48k
  devError := false
  disconnected := false
  cmdQ := []
  rspQ := []
  evtQ := []
  recEntered := false
  outChunk := []
  outValid := false
  dispatcherAt := .idle
  workerAt := .top
  cmdPort := []
  offer := none
  listener := false
  statusRead := none
  host := []
  hostLog := []
  sched := []
  draws := 0

/-- The outcome of a step of this machine. -/
abbrev Result := Host.Outcome State Fault Refusal

end Sys2Proof.Machine
end

