-- ==== Sys2Proof/Machine/Operands.lean ====
section
/-! DEFINITION. The data forms of the block: byte order and bit order (20_memory.md), the FM symbol (30_encoding.md), the
derived constants (R49), the host rate and the rate class (R9, R284), and the codes of a mode and of a class. -/

namespace Sys2Proof.Machine

/-! ### Byte order and bit order -/

/-- `le32` of R16. -/
def le32 (b0 b1 b2 b3 : Byte) : Nat :=
  b0.toNat + 256 * b1.toNat + 65536 * b2.toNat + 16777216 * b3.toNat

/-- The 4 bytes of a little-endian field (R83). -/
def le32bytes (v : Nat) : List Byte :=
  [BitVec.ofNat 8 v, BitVec.ofNat 8 (v / 256), BitVec.ofNat 8 (v / 65536), BitVec.ofNat 8 (v / 16777216)]

/-- Bit `7 - j` of a byte: its `j`-th sample, most significant first (R82, R84). -/
def byteBit (b : Byte) (j : Nat) : Bit := b.getLsbD (7 - j)

/-- The byte with bit `7 - j` replaced by `v` (R159). -/
def setByteBit (b : Byte) (j : Nat) (v : Bit) : Byte :=
  if v then b ||| ((1 : Byte) <<< (7 - j)) else b &&& ~~~((1 : Byte) <<< (7 - j))

/-- Host bit `j` of a chunk (R84); `none` past its end. -/
def chunkBit (chunk : List Byte) (j : Nat) : Option Bit :=
  (chunk[j / 8]?).map (fun b => byteBit b (j % 8))

/-- The byte whose `j`-th sample is `bit j`. -/
def byteOfBits (bit : Nat → Bit) : Byte :=
  BitVec.ofNat 8 ((List.range 8).foldl (fun v j => 2 * v + (bit j).toNat) 0)

/-- Host bits packed most significant first; the last byte's remaining bits are 0 (R192). -/
def packBits (bits : List Bit) : List Byte :=
  (List.range ((bits.length + 7) / 8)).map (fun i => byteOfBits (fun j => bits.getD (8 * i + j) false))

/-! ### FM symbols -/

/-- `D`, the half-cycle of logical 0 in tape samples (R127). -/
def halfCycle (t : Nat) : Nat := (t + 4000) / 8000

/-- The length of each half of the symbol of `b` (R128). -/
def symbolHalf (t : Nat) (b : Bit) : Nat := halfCycle t * (b.toNat + 1)

/-- The FM symbol of a logical bit: high samples, then as many low samples (R128). -/
def fmSymbol (t : Nat) (b : Bit) : List Bit :=
  List.replicate (symbolHalf t b) true ++ List.replicate (symbolHalf t b) false

/-- A sequence of logical bits is the concatenation of its symbols (R129). -/
def fmEncode (t : Nat) (bits : List Bit) : List Bit := bits.flatMap (fmSymbol t)

/-! ### Derived constants -/

/-- `S`, the sample offset of the edge decoder in host bits (R215). -/
def sampleOffset (h : Nat) : Nat := 3 * h / 16000

/-- `G`, the long-gap threshold in host bits (R215). -/
def longGap (h : Nat) : Nat := h / 2000

/-- `N35`, 3.5 s of tape samples rounded down (R254). -/
def apssWindow (t : Nat) : Nat := 7 * t / 2

/-- `TOL`, the noise tolerance of APSS (R256). -/
def apssTolerance (tolHi t : Nat) : Nat :=
  if tolHi < t then 2 else if 32000 < t then 1 else 0

/-- `steps(ms)`, the samples of one fast-wind tick (R250). -/
def seekSteps (t ms : Nat) : Nat := t / 1000 * ms * 18

/-! ### Host rate and rate class -/

/-- `HOST_RATE` (R9). -/
def hostRateOf (p : Params) : RateClass → Nat
  | .c48k => 48000
  | .c44k1 => 44100
  | .c44k1alt => p.hostRateAlt
  | .c32k => 32000

/-- `RATE_CLASS_OTHER` (R284); `none` where the parameters leave it open. -/
def rateClassOther (p : Params) (t : Nat) (alt : Bool) : Option RateClass :=
  match p.rateClassRows.find? (fun r => r.rate == t && r.alt == alt) with
  | some r => some r.rateClass
  | none => p.rateClassRest

/-- `RATE_CLASS` (R284). -/
def rateClassOf (p : Params) (t : Nat) (alt : Bool) : Option RateClass :=
  if t = 48000 then some .c48k
  else if t = 44100 then some (if alt then .c44k1alt else .c44k1)
  else if t = 32000 then some .c32k
  else rateClassOther p t alt

/-! ### Codes -/

/-- `MODE_CODE` (R134). -/
def modeCode (p : Params) : Mode → Byte
  | .none => p.modeCode.none
  | .play => p.modeCode.play
  | .record => p.modeCode.record
  | .rewind => p.modeCode.rewind
  | .fastForward => p.modeCode.fastForward
  | .autoRewind => p.modeCode.autoRewind
  | .autoFastForward => p.modeCode.autoFastForward
  | .stop => p.modeCode.stop
  | .eject => p.modeCode.eject

/-- `RATE_CLASS_CODE` (R135). -/
def rateClassCode (p : Params) : RateClass → Byte
  | .c48k => p.rateClassCode.c48k
  | .c44k1 => p.rateClassCode.c44k1
  | .c44k1alt => p.rateClassCode.c44k1alt
  | .c32k => p.rateClassCode.c32k

/-- `HDR`, the header size of a variant (R33, R124). -/
def headerSize : Variant → Nat
  | .legacy => 4
  | .modern => 40

/-- The running modes of R281. -/
def isRunningMode : Mode → Bool
  | .play | .record | .rewind | .fastForward | .autoRewind | .autoFastForward => true
  | .none | .stop | .eject => false

/-- `HDR` of the open image (R33). -/
def hdr (s : State) : Nat := headerSize s.variant

/-- `h`, the host rate (R9, R56). -/
def hostRate (s : State) : Nat := hostRateOf s.params s.rateClass

end Sys2Proof.Machine
end

