-- ==== Sys2Proof/Machine/Flags.lean ====
section
/-! DEFINITION. The sensor byte, the device gate, and the frames and events that report them (R52, R132, R344, R349). -/

namespace Sys2Proof.Machine

/-- One bit of the sensor byte. -/
def flagBit (v : Bool) (position : Fin 8) : Byte :=
  if v then (1 : Byte) <<< position.val else 0

/-- The sensor byte, computed from the other state (R52, R132, R133). -/
def sensor (s : State) : Byte :=
  flagBit s.running s.params.sensorBitRunning
    ||| flagBit s.loaded s.params.sensorBitTapeset
    ||| flagBit (s.loaded && !s.protect) s.params.sensorBitNotwp

/-- The device gate: `devError = 1` or `disconnected = 1` (R344). -/
def gated (s : State) : Bool := s.devError || s.disconnected

/-- `send(kind, value)`: append a frame to `rspQ`, or discard it while the device is gated (R17, R344). -/
def send (kind value : Byte) (s : State) : State :=
  { s with rspQ := if gated s then s.rspQ else s.rspQ ++ [⟨kind, value⟩] }

/-- `notify(e)`: append an event to `evtQ`, gated or not (R17, R344). -/
def notify (e : Event) (s : State) : State :=
  { s with evtQ := s.evtQ ++ [e] }

/-- Publish the sensor byte (R123, R285). -/
def publishSensor (s : State) : State := send s.params.kindSensorChange (sensor s) s

/-- The stop acknowledgement `{KIND_REQUEST_ACK, 0x01}` (R123). -/
def stopAck (s : State) : State := send s.params.kindRequestAck 0x01 s

/-- Publish the mode (R123, R298). -/
def publishMode (s : State) : State := send s.params.kindStatusChange (modeCode s.params s.mode) s

/-- Publish the host sample-rate class (R123, R178). -/
def publishRateClass (s : State) : State :=
  send s.params.kindSampleRateChange (rateClassCode s.params s.rateClass) s

/-- "maybe notify(UPDATE)": a free draw (R302, log entry 7). -/
def drawUpdate (s : State) : State :=
  { s with
    evtQ := if Config.freeUpdate s.draws then s.evtQ ++ [.update] else s.evtQ
    draws := s.draws + 1 }

end Sys2Proof.Machine
end

