-- ==== Sys2Proof/Machine/Ops.lean ====
section
/-! DEFINITION. The shared operations: the image store (20_memory.md), the bit cursor (40_cursor.md), the stop and join of
the worker (R282), and the one trap entry of the block, `worker_exit` (R305, R351). The block has no return from it (R353). -/

namespace Sys2Proof.Machine

/-! ### The image store -/

/-- What an offset that the list of cells leaves out reads as (log entry 3). -/
def Memory.unlisted : Byte := 0

/-- The canonical form: offsets strictly rising, and no cell equal to what an unlisted offset reads as. -/
abbrev Memory.wf (m : List Host.Cell) : Prop :=
  m.Pairwise (fun c d => c.1 < d.1) ∧ ∀ c ∈ m, c.2 ≠ Memory.unlisted

/-- The byte at an offset. -/
def Memory.get : List Host.Cell → Nat → Byte
  | [], _ => Memory.unlisted
  | c :: m, a => if c.1 = a then c.2 else Memory.get m a

/-- Replace the byte at an offset, keeping the canonical form. -/
def Memory.set : List Host.Cell → Nat → Byte → List Host.Cell
  | [], a, v => if v = Memory.unlisted then [] else [(a, v)]
  | c :: m, a, v =>
    if c.1 < a then c :: Memory.set m a v
    else if v = Memory.unlisted then (if c.1 = a then m else c :: m)
    else if c.1 = a then (a, v) :: m
    else (a, v) :: c :: m

/-- The cells of a list of bytes that starts at offset `a`. -/
def Memory.ofBytes (a : Nat) : List Byte → List Host.Cell
  | [] => []
  | b :: bs => if b = Memory.unlisted then Memory.ofBytes (a + 1) bs else (a, b) :: Memory.ofBytes (a + 1) bs

/-- `MemRead(a, 1)` (R80). -/
def imgRead (a : Nat) (s : State) : Except Fault Byte :=
  if a < s.fileSize then .ok (Memory.get s.img a) else .error .addressOutside

/-- `MemWrite(a, 1, v)` (R80). -/
def imgWrite (a : Nat) (v : Byte) (s : State) : Except Fault State :=
  if a < s.fileSize then .ok { s with img := Memory.set s.img a v } else .error .addressOutside

/-- `MemWrite(a, n, v)`: the bytes in order (R80). -/
def imgWriteBytes : Nat → List Byte → State → Except Fault State
  | _, [], s => .ok s
  | a, b :: bs, s => do
    let s1 ← imgWrite a b s
    imgWriteBytes (a + 1) bs s1

/-! ### The tape cursor -/

/-- What a cursor move returns (R150). -/
inductive CursorResult where
  | ok | boundary
  deriving DecidableEq, Repr

/-- The directions of a wind (R251). -/
inductive Dir where
  | fwd | bwd
  deriving DecidableEq, Repr

/-- `load()` (R151). -/
def load (s : State) : Except Fault State :=
  if s.pos < s.totalBits then do
    let b ← imgRead (hdr s + s.pos / 8) s
    .ok { s with cacheIdx := some (s.pos / 8), cacheByte := b }
  else .ok { s with cacheIdx := none }

/-- `flush()` (R156). -/
def flush (s : State) : Except Fault State :=
  if s.dirty then
    match s.cacheIdx with
    | some i => do
      let s1 ← imgWrite (hdr s + i) s.cacheByte s
      .ok { s1 with dirty := false }
    | none => .error .addressOutside
  else .ok s

/-- The byte index the cursor caches at position `p` (R39, R152). -/
def cacheIdxAt (p : Nat) (s : State) : Option Nat :=
  if p < s.totalBits then some (p / 8) else none

/-- `moveTo(p)` (R152). -/
def moveTo (p : Nat) (s : State) : Except Fault State :=
  if cacheIdxAt p s = s.cacheIdx then .ok { s with pos := p }
  else do
    let s1 ← flush s
    load { s1 with pos := p }

/-- `seek(b)` (R153). -/
def seek (b : Nat) (s : State) : Except Fault (CursorResult × State) :=
  if s.totalBits < b then do
    let s1 ← moveTo s.totalBits s
    .ok (.boundary, s1)
  else do
    let s1 ← moveTo b s
    .ok (.ok, s1)

/-- `position()` (R154). -/
def position (s : State) : Nat := s.pos

/-- `read()` (R157). -/
def readSample (s : State) : Except Fault Bit :=
  if s.pos < s.totalBits then .ok (byteBit s.cacheByte (s.pos % 8)) else .error .cursorAtEnd

/-- `readInverted()` (R158). -/
def readInverted (s : State) : Except Fault Bit := do
  let b ← readSample s
  .ok (!b)

/-- `write(v)` (R159). -/
def writeSample (v : Bit) (s : State) : Except Fault State :=
  if s.pos < s.totalBits then
    .ok { s with cacheByte := setByteBit s.cacheByte (s.pos % 8) v, dirty := true }
  else .error .cursorAtEnd

/-- `stepForward()` (R160). -/
def stepForward (s : State) : Except Fault (CursorResult × State) :=
  if s.totalBits ≤ s.pos then .ok (.boundary, s)
  else do
    let s1 ← moveTo (s.pos + 1) s
    .ok (.ok, s1)

/-- `stepBackward()` (R161). -/
def stepBackward (s : State) : Except Fault (CursorResult × State) :=
  if s.pos = 0 then .ok (.boundary, s)
  else do
    let s1 ← moveTo (s.pos - 1) s
    .ok (.ok, s1)

/-- A step in a direction. -/
def stepDir : Dir → State → Except Fault (CursorResult × State)
  | .fwd => stepForward
  | .bwd => stepBackward

/-- The cursor's view of tape sample `i`: a staged write is seen before it is flushed (R82, R88). -/
def tapeSample (s : State) (i : Nat) : Bit :=
  if s.cacheIdx = some (i / 8) then byteBit s.cacheByte (i % 8)
  else byteBit (Memory.get s.img (hdr s + i / 8)) (i % 8)

/-! ### The scratch cursor (R162) -/

/-- `seek(0)` on the scratch cursor, over a new chunk. -/
def scratchLoad (chunk : List Byte) (s : State) : State :=
  { s with scr := chunk, spos := 0, sValid := true }

/-- Whether the scratch cursor has an unread host bit (R162, R212). -/
def scratchReady (s : State) : Bool := s.sValid && decide (s.spos < 8 * s.params.chunkBytes)

/-- `readInverted(); stepForward()` on the scratch cursor (R131, R162). -/
def scratchTake (s : State) : Except Fault (Bit × State) :=
  match chunkBit s.scr s.spos with
  | some x => .ok (!x, { s with spos := s.spos + 1 })
  | none => .error .addressOutside

/-! ### Outcomes -/

/-- Go on from an operation that can fault. -/
def andThen {α : Type} (x : Except Fault α) (f : α → Result) : Result :=
  match x with
  | .ok a => f a
  | .error e => .fault e

/-- Tape registers may be read only while `loaded = 1` (R33 to R38). -/
def withTape (s : State) (r : Result) : Result :=
  if s.loaded then r else .fault .noTape

/-! ### Stop, join and the trap entry -/

/-- `stop_worker()` with what follows it (R282): with no worker alive the dispatcher goes on at once; otherwise it clears
`runFlag` and holds, and `k` says what it does when the join ends. -/
def stopWorker (k : Join) (after : State → Result) (s : State) : Result :=
  if s.workerAlive then .next { s with runFlag := false, dispatcherAt := .joining k } else after s

/-- The end of `worker_exit(self)`, once no writer is alive (R305). -/
def finishExit (self : Bool) (s : State) : State :=
  stopAck (publishSensor
    { s with
      outValid := false
      running := false
      mode := if self then .stop else s.mode
      recEntered := if self then false else s.recEntered
      workerAlive := false
      workerAt := .top })

/-- TRAP ENTRY: `worker_exit(self)` (R305, R351). In RECORD it first clears `runFlag` and holds for the writer. -/
def workerExit (self : Bool) (s : State) : State :=
  if s.workerMode = .record then
    if s.writerAlive then { s with runFlag := false, workerAt := .exitHold self }
    else finishExit self { s with runFlag := false }
  else finishExit self s

end Sys2Proof.Machine
end

