-- ==== Sys2Proof/Machine/Image.lean ====
section
/-! DEFINITION. Tape image open, close and insertion (41_image.md). -/

namespace Sys2Proof.Machine

/-- What the header of an image says (R124, R170 to R173). -/
structure Header where
  variant   : Variant
  rate      : Nat
  totalBits : Nat
  start     : Nat
  protect   : Bool
  deriving DecidableEq, Repr

/-- Byte `i` of an image that has it. -/
def imageByte (bytes : List Byte) (i : Nat) : Byte := bytes.getD i 0

/-- The 4-byte little-endian field at offset `i` (R83). -/
def imageField (bytes : List Byte) (i : Nat) : Nat :=
  le32 (imageByte bytes i) (imageByte bytes (i + 1)) (imageByte bytes (i + 2)) (imageByte bytes (i + 3))

/-- The variant: MODERN needs 40 bytes and the magic (R126, R170). -/
def imageVariant (p : Params) (bytes : List Byte) : Variant :=
  if 40 ≤ bytes.length ∧ bytes.take 4 = p.modernMagic then .modern else .legacy

/-- The sample rate field (R170). -/
def imageRate (v : Variant) (bytes : List Byte) : Nat :=
  match v with
  | .modern => imageField bytes 28
  | .legacy => imageField bytes 0

/-- The largest position of a variant (R15, R171). -/
def maxPosition (p : Params) : Variant → Nat
  | .modern => 4294967295
  | .legacy => p.posMax

/-- The start position, clamped to the tape (R172). -/
def imageStart (v : Variant) (bytes : List Byte) (totalBits : Nat) : Nat :=
  match v with
  | .modern => min (imageField bytes 36) totalBits
  | .legacy => 0

/-- The write protection (R173). -/
def imageProtect (v : Variant) (bytes : List Byte) (readOnly : Bool) : Bool :=
  match v with
  | .modern => imageByte bytes 26 == 0x10
  | .legacy => readOnly

/-- The checks and the fields of `open`, the checks in the order of R340 (R170 to R173). -/
def parseHeader (p : Params) (bytes : List Byte) (readOnly : Bool) : Except OpenCode Header :=
  let v := imageVariant p bytes
  let rate := imageRate v bytes
  let total := (bytes.length - headerSize v) * 8
  if bytes.length < 4 then .error .badHeader
  else if rate < 8000 ∨ 48000 < rate then .error .badRate
  else if maxPosition p v < total then .error .tooLarge
  else .ok ⟨v, rate, total, imageStart v bytes total, imageProtect v bytes readOnly⟩

/-- The tape registers that a header sets (R170 to R173, R175); `load()` follows. -/
def setTape (bytes : List Byte) (readOnly : Bool) (hd : Header) (s : State) : State :=
  { s with
    img := Memory.ofBytes 0 bytes
    fileSize := bytes.length
    loaded := true
    variant := hd.variant
    t := hd.rate
    totalBits := hd.totalBits
    pos := hd.start
    protect := hd.protect
    readOnly := readOnly
    dirty := false }

/-- `insert(bytes, ro)` from `open` on, with no tape loaded (R178). An image that does not open changes nothing (R174), and the
host gets the code. -/
def openAndEnter (bytes : List Byte) (readOnly : Bool) (s : State) : Result :=
  match parseHeader s.params bytes readOnly with
  | .error code => .next { s with hostLog := s.hostLog ++ [.inserted (some code)] }
  | .ok hd =>
    andThen (load (setTape bytes readOnly hd s)) fun s1 =>
      match rateClassOf s1.params s1.t s1.altRate with
      | none => .refused .rateClassOpen
      | some c =>
        .next (publishRateClass (publishSensor
          { s1 with
            mode := .stop
            running := false
            rateClass := c
            hostLog := s1.hostLog ++ [.inserted none] }))

/-- The position written back to a writable modern image (R176). -/
def persistPosition (s : State) : Except Fault State :=
  if s.variant = .modern ∧ s.readOnly = false then imgWriteBytes 36 (le32bytes s.pos) s else .ok s

/-- `close()` (R176). -/
def closeImage (s : State) : Except Fault State := do
  let s1 ← flush s
  let s2 ← persistPosition s1
  .ok { s2 with loaded := false, cacheIdx := none }

/-- EJECT from `close` on (R290). -/
def ejectTape (s : State) : Except Fault State := do
  let s1 ← closeImage s
  .ok (notify .eject (publishSensor { s1 with mode := .eject, running := false, recEntered := false }))

/-- EJECT once no worker is alive (R290). -/
def finishEject (s : State) : Result := withTape s (andThen (ejectTape s) .next)

/-- An insertion once no worker is alive: EJECT first if a tape is loaded (R178). -/
def finishInsert (bytes : List Byte) (readOnly : Bool) (s : State) : Result :=
  if s.loaded ∧ s.mode ≠ .eject then andThen (ejectTape s) (openAndEnter bytes readOnly)
  else openAndEnter bytes readOnly s

/-- `insert(bytes, ro)` as the dispatcher executes it (R178). -/
def insertTape (bytes : List Byte) (readOnly : Bool) (s : State) : Result :=
  if s.loaded ∧ s.mode ≠ .eject then
    stopWorker (.insert bytes readOnly) (finishInsert bytes readOnly) s
  else openAndEnter bytes readOnly s

end Sys2Proof.Machine
end

