-- ==== Sys2Proof/Machine/Playback.lean ====
section
/-! DEFINITION. The playback rate converter (42_playback.md). -/

namespace Sys2Proof.Machine

/-- `start_play()` (R190). -/
def startPlay (s : State) : State := { s with acc := ((hostRate s / 2 : Nat) : Int) }

/-- The loop `while acc < 0` of R191. Each turn adds h > 0, so at most `-acc` turns are made; with h = 0 it never ends. -/
def advanceLoop : Nat → State → Except Fault State
  | 0, s => if s.acc < 0 then .error .noProgress else .ok s
  | fuel + 1, s =>
    if s.acc < 0 then do
      let (_, s1) ← stepForward s
      advanceLoop fuel { s1 with acc := s1.acc + (hostRate s1 : Int) }
    else .ok s

/-- `emitOne()` (R191): the host bit emitted and the next state. -/
def emitOne (s : State) : Except Fault (Bit × State) := do
  let b ← readSample s
  let s1 : State := { s with acc := s.acc - (s.t : Int) }
  let s2 ← advanceLoop s1.acc.natAbs s1
  .ok (b, s2)

/-- The loop of R192 for up to `m` more host bits: the bits, the end-of-tape result and the next state. -/
def fillBits : Nat → State → Except Fault (List Bit × Bool × State)
  | 0, s => .ok ([], false, s)
  | m + 1, s =>
    if s.totalBits ≤ s.pos then .ok ([], true, s)
    else do
      let (b, s1) ← emitOne s
      let (bs, eot, s2) ← fillBits m s1
      .ok (b :: bs, eot, s2)

/-- `fillOutput(R)` (R192): the bytes, whose number is `count`, the end-of-tape result and the next state. -/
def fillOutput (requiredBytes : Nat) (s : State) : Except Fault (List Byte × Bool × State) := do
  let (bits, eot, s1) ← fillBits (8 * requiredBytes) s
  .ok (packBits bits, eot, s1)

/-- `iterate_play()` up to its hold (R198): a chunk is offered and the worker holds, or the worker goes on. An end of the tape
with no chunk and the exit that follows it are one step (the model's choice, log entry 5). -/
def iteratePlay (s : State) : Except Fault State := do
  let (buffer, eot, s1) ← fillOutput s.params.chunkBytes s
  if buffer.length = 0 then
    .ok (if eot then workerExit true s1 else s1)
  else
    .ok { s1 with outChunk := buffer, outValid := true, workerAt := .takeHold eot }

end Sys2Proof.Machine
end

