-- ==== Sys2Proof/Machine/Record.lean ====
section
/-! DEFINITION. Recording: the FM demodulator, the raw decimator, the record writer and the RECORD worker's iteration
(43_record.md). -/

namespace Sys2Proof.Machine

/-- `start_write()` (R210). -/
def startWrite (s : State) : State :=
  { s with
    recStrategy := if s.recConv || decide (s.t < 32000) then .edge else .raw
    ended := false
    w := ((hostRate s / 2 : Nat) : Int)
    vote := 0
    last := false
    phase := .scan
    prev := false
    n := 0
    k := 0
    sValid := false
    spos := 0
    slotFull := false
    writerAlive := true }

/-- Whether the tape is protected (R231, R283). -/
def tapeProtected (s : State) : Bool := s.protect || s.readOnly

/-- Whether this session only steps the cursor: REC_PROTECT_POLICY = INHIBIT on a protected tape (R231, log entry 18). -/
def inhibited (s : State) : Bool := tapeProtected s && s.params.recProtectPolicy == .inhibit

/-- The step of the tape cursor after a sample. -/
def passSample (s : State) : Except Fault State := do
  let (_, s1) ← stepForward s
  .ok s1

/-- `tapeWrite(v)` (R213). -/
def tapeWrite (v : Bit) (s : State) : Except Fault State :=
  if s.ended then .ok s
  else if s.totalBits ≤ s.pos then .ok { s with ended := true }
  else if inhibited s then passSample s
  else do
    let s1 ← writeSample v s
    passSample s1

/-- `tapeWrite(v)` done `m` times. -/
def tapeRun (v : Bit) : Nat → State → Except Fault State
  | 0, s => .ok s
  | m + 1, s => do
    let s1 ← tapeWrite v s
    tapeRun v m s1

/-- `pad(m)`: `m` silence samples, which are low (R130, R214). -/
def pad (m : Nat) (s : State) : Except Fault State := tapeRun false m s

/-- `writeSymbol(b)` (R216). -/
def writeSymbol (b : Bit) (s : State) : Except Fault State := do
  let s1 ← tapeRun true (symbolHalf s.t b) s
  tapeRun false (symbolHalf s.t b) s1

/-- Host bits rescaled to tape samples (R219, R220). -/
def rescale (m : Nat) (s : State) : Nat := m * s.t / hostRate s

/-- The long gap before a rising edge is padded with silence (R219). -/
def scanGap (s : State) : Except Fault State :=
  if longGap (hostRate s) < s.n then pad (rescale s.n s) s else .ok s

/-- `edge_step(v)` in phase SCAN (R217, R219). -/
def edgeScan (v : Bit) (s : State) : Except Fault State :=
  if s.prev = false ∧ v = true then do
    let s1 ← scanGap s
    .ok { s1 with phase := .advance, k := 0, n := 0, prev := v }
  else .ok { s with n := s.n + 1, prev := v }

/-- `edge_step(v)` in phase ADVANCE (R218). -/
def edgeAdvance (v : Bit) (s : State) : Except Fault State :=
  if s.k + 1 = sampleOffset (hostRate s) then do
    let s1 ← writeSymbol v { s with k := s.k + 1 }
    .ok { s1 with prev := v, n := 0, phase := .scan }
  else .ok { s with k := s.k + 1 }

/-- `edge_step(v)` (R217, R218). -/
def edgeStep (v : Bit) (s : State) : Except Fault State :=
  match s.phase with
  | .scan => edgeScan v s
  | .advance => edgeAdvance v s

/-- The tie of a closed window under keepTape: step over the sample, or end the session at the tape end (R224). -/
def keepTapeTie (s : State) : Except Fault State :=
  if s.totalBits ≤ s.pos then .ok { s with ended := true } else passSample s

/-- The sample a closed window commits (R224, R225). -/
def rawCommit (s : State) : Except Fault State :=
  if 0 < s.vote then do
    let s1 ← tapeWrite true s
    .ok { s1 with last := true }
  else if s.vote < 0 then do
    let s1 ← tapeWrite false s
    .ok { s1 with last := false }
  else
    match s.params.tieRule with
    | .repeatLast => tapeWrite s.last s
    | .keepTape => keepTapeTie s

/-- The loop `while w < 0 and ended = 0` of R225. Each turn adds h > 0, so at most `-w` turns are made. -/
def rawLoop : Nat → State → Except Fault State
  | 0, s => if s.w < 0 ∧ s.ended = false then .error .noProgress else .ok s
  | fuel + 1, s =>
    if s.w < 0 ∧ s.ended = false then do
      let s1 ← rawCommit s
      rawLoop fuel { s1 with vote := 0, w := s1.w + (hostRate s1 : Int) }
    else .ok s

/-- `raw_step(v)` (R225). -/
def rawStep (v : Bit) (s : State) : Except Fault State :=
  let s1 : State := { s with vote := s.vote + (if v then 1 else -1), w := s.w - (s.t : Int) }
  rawLoop s1.w.natAbs s1

/-- One host bit of a record session, by the session's strategy (R211). -/
def recStep (v : Bit) (s : State) : Except Fault State :=
  match s.recStrategy with
  | .edge => edgeStep v s
  | .raw => rawStep v s

/-- The host bits the edge decoder has consumed since the last sample point (R220). -/
def pendingScan (s : State) : Nat :=
  match s.phase with
  | .scan => s.n
  | .advance => s.k + 1

/-- `cancel_end()` (R220, R228). -/
def cancelEnd (s : State) : Except Fault State :=
  match s.recStrategy with
  | .edge => do
    let s1 ← pad (rescale (pendingScan s) s) s
    .ok { s1 with ended := true }
  | .raw => .ok { s with ended := true }

/-- `writer_exit()` (R232). -/
def writerExit (s : State) : Except Fault State := do
  let s1 ← flush s
  .ok { s1 with sValid := false, writerAlive := false }

/-- One host bit of the writer, and its exit if the session ended (R211). -/
def writerBit (v : Bit) (s : State) : Except Fault State := do
  let s1 ← recStep v s
  if s1.ended then writerExit s1 else .ok s1

/-- Whether the writer holds in `take()` (R212): no host bit left, no chunk in the slot, and no cancellation. -/
def writerHolds (s : State) : Bool :=
  !s.writerAlive || (!scratchReady s && !s.sValid && !s.slotFull && s.runFlag)

/-- One step of the record writer: one host bit, one chunk taken from the slot, or the cancelled end (R95, R211, R212). -/
def writerTurn (s : State) : Except Fault State :=
  if scratchReady s then do
    let (v, s1) ← scratchTake s
    writerBit v s1
  else if s.slotFull then
    .ok { scratchLoad s.slotData s with slotFull := false }
  else if s.runFlag then .ok { s with sValid := false }
  else do
    let s1 ← cancelEnd { s with sValid := false }
    writerExit s1

/-- Whether the worker can accept a chunk: one is offered, the slot is free and the device is not gated (R229, R344). -/
def canAccept (s : State) : Bool := s.offer.isSome && !s.slotFull && !gated s

/-- The chunk is moved to the handoff slot (R95, R229). -/
def acceptChunk (s : State) : State :=
  match s.offer with
  | some chunk => { s with slotData := chunk, slotFull := true, offer := none, workerAt := .top }
  | none => s

/-- `iterate_rec()` from its hold on (R229): leave on cancellation (R304), exit when the writer has ended, accept a chunk,
or hold. The end of the iteration and the exit that follows it are one step (the model's choice, log entry 5). -/
def iterateRec (s : State) : State :=
  if s.runFlag = false then workerExit false s
  else if s.writerAlive = false then workerExit true s
  else if canAccept s then acceptChunk s
  else { s with workerAt := .offerHold }

end Sys2Proof.Machine
end

