-- ==== Sys2Proof/Machine/Wind.lean ====
section
/-! DEFINITION. Fast wind and the APSS boundary detector (44_seek_apss.md). -/

namespace Sys2Proof.Machine

/-- The loop of `seek_tick` over the steps still to make (R251). -/
def seekLoop (dir : Dir) : Nat → State → Except Fault (CursorResult × State)
  | 0, s => .ok (.ok, s)
  | m + 1, s => do
    let (r, s1) ← stepDir dir s
    if r = .boundary then .ok (.boundary, s1) else seekLoop dir m s1

/-- `seek_tick(ms, dir)` (R251). -/
def seekTick (ms : Nat) (dir : Dir) (s : State) : Except Fault (CursorResult × State) :=
  seekLoop dir (seekSteps s.t ms) s

/-- `start_apss()` (R254). -/
def startApss (s : State) : State :=
  { s with ign := apssWindow s.t, maj := none, mis := 0, mat := 0, seen := false, found := false }

/-- `TOL` of the open image (R256). -/
def tolerance (s : State) : Nat := apssTolerance s.params.apssTolHi s.t

/-- `apss_eval(b)` once the majority is seeded with `m` (R257). -/
def apssCompare (m b : Bit) (s : State) : State :=
  if b = m then
    if s.seen then
      { s with mis := 0, mat := s.mat + 1, found := s.found || decide (apssWindow s.t < s.mat + 1) }
    else { s with mis := 0 }
  else if tolerance s < s.mis + 1 then
    { s with maj := some b, seen := true, mat := 0, mis := 0 }
  else { s with mis := s.mis + 1 }

/-- `apss_eval(b)` (R257). -/
def apssEval (b : Bit) (s : State) : State :=
  if 0 < s.ign then { s with ign := s.ign - 1 }
  else
    match s.maj with
    | none => { s with maj := some b }
    | some m => apssCompare m b s

/-- What one call of the detector returns (R255). -/
inductive ApssResult where
  | ok | boundary | found
  deriving DecidableEq, Repr

/-- FOUND or OK, by the `found` register (R255). -/
def apssResult (s : State) : ApssResult := if s.found then .found else .ok

/-- `apss_bit(dir)` (R255). -/
def apssBit (dir : Dir) (s : State) : Except Fault (ApssResult × State) :=
  match dir with
  | .fwd =>
    if s.totalBits ≤ s.pos then .ok (.boundary, s)
    else do
      let b ← readSample s
      let (_, s1) ← stepForward (apssEval b s)
      .ok (apssResult s1, s1)
  | .bwd =>
    if s.pos = 0 then .ok (.boundary, s)
    else do
      let (_, s1) ← stepBackward s
      let b ← readSample s1
      .ok (apssResult (apssEval b s1), apssEval b s1)

/-- The loop of `apss_tick` over the samples still to evaluate (R258). -/
def apssLoop (dir : Dir) : Nat → State → Except Fault (ApssResult × State)
  | 0, s => .ok (.ok, s)
  | m + 1, s => do
    let (r, s1) ← apssBit dir s
    if r = .ok then apssLoop dir m s1 else .ok (r, s1)

/-- `apss_tick(ms, dir)` (R258). -/
def apssTick (ms : Nat) (dir : Dir) (s : State) : Except Fault (ApssResult × State) :=
  apssLoop dir (seekSteps s.t ms) s

/-- One FASTFORWARD or REWIND iteration: the worker terminates at BOUNDARY (R252). The iteration and the exit that
follows it are one step (the model's choice, log entry 5). -/
def iterateSeek (dir : Dir) (s : State) : Except Fault State := do
  let (r, s1) ← seekTick s.params.seekTickMs dir s
  .ok (if r = .boundary then workerExit true s1 else s1)

/-- One AUTOFASTFORWARD or AUTOREWIND iteration: the worker terminates at FOUND or BOUNDARY (R259). The iteration and
the exit that follows it are one step (the model's choice, log entry 5). -/
def iterateApss (dir : Dir) (s : State) : Except Fault State := do
  let (r, s1) ← apssTick s.params.seekTickMs dir s
  .ok (if r = .ok then s1 else workerExit true s1)

end Sys2Proof.Machine
end

