-- ==== Sys2Proof/Machine/Transport.lean ====
section
/-! DEFINITION. The commands that start a running mode: PLAY, FF, REW, AFF, AREW and REC (R283, R292 to R297). -/

namespace Sys2Proof.Machine

/-- REC's `start_write()`, on first entry only (R283). -/
def enterRecord (s : State) : State :=
  if s.recEntered then s else { startWrite s with recEntered := true }

/-- The start operation of a running mode (R283, R382); `none` for a mode that runs nothing (R50). -/
def startOperation (m : Mode) (s : State) : Option State :=
  match m with
  | .play => some (startPlay s)
  | .record => some (enterRecord s)
  | .autoFastForward => some (startApss s)
  | .autoRewind => some (startApss s)
  | .fastForward => some s
  | .rewind => some s
  | .none | .stop | .eject => none

/-- Spawn the worker of mode `m` (R283, R301). -/
def spawnWorker (m : Mode) (s : State) : State :=
  { s with runFlag := true, workerMode := m, workerAlive := true, workerAt := .top }

/-- `start_mode(M)` once no worker is alive (R283). `recEntered` is cleared when the mode leaves RECORD (R60, log entry 6). -/
def finishStart (m : Mode) (s : State) : Result :=
  withTape s
    (if m = .record ∧ tapeProtected s = true ∧ s.params.recProtectPolicy = .refuse then .refused .recProtected
     else
      match startOperation m { s with mode := m, running := true, recEntered := s.recEntered && m == .record } with
      | some s1 => .next (publishSensor (spawnWorker m s1))
      | none => .fault .notRunningMode)

/-- `start_mode(M)` (R283). -/
def startMode (m : Mode) (s : State) : Result :=
  if s.loaded = false ∨ gated s = true ∨ s.mode = m then .next s
  else stopWorker (.start m) (finishStart m) s

/-- PLAY (R292). -/
def execPlay (s : State) : Result := startMode .play s

/-- FF (R293). -/
def execFf (s : State) : Result := startMode .fastForward s

/-- REW (R294). -/
def execRew (s : State) : Result := startMode .rewind s

/-- AFF (R295). -/
def execAff (s : State) : Result := startMode .autoFastForward s

/-- AREW (R296). -/
def execArew (s : State) : Result := startMode .autoRewind s

/-- REC (R297). -/
def execRecord (s : State) : Result := startMode .record s

end Sys2Proof.Machine
end

