-- ==== Sys2Proof/Machine/Control.lean ====
section
/-! DEFINITION. EJECT and STOP, the error items, and what the dispatcher does when a join ends (R282, R290, R291, R343, R345). -/

namespace Sys2Proof.Machine

/-- EJECT (R290): a no-op in mode EJECT. -/
def execEject (s : State) : Result :=
  if s.mode = .eject then .next s else stopWorker .eject finishEject s

/-- STOP after the join: the worker's exit has sent the frames (R291). `recEntered` leaves with RECORD (R60). -/
def finishStop (s : State) : State := { s with mode := .stop, recEntered := false }

/-- STOP with no worker alive (R291). -/
def idleStop (s : State) : State :=
  stopAck (publishSensor
    { s with mode := if s.loaded then .stop else s.mode, running := false, recEntered := false })

/-- STOP (R291). -/
def execStop (s : State) : Result := stopWorker .stop (fun s1 => .next (idleStop s1)) s

/-- An error item once no worker is alive: mode STOP if a tape is loaded, then its event (R343, R345). -/
def finishError (e : Event) (s : State) : State :=
  notify e { s with mode := if s.loaded then .stop else s.mode, running := false, recEntered := false }

/-- Item DEVERR (R343). -/
def runDevErr (s : State) : Result := stopWorker .devErr (fun s1 => .next (finishError .deviceError s1)) s

/-- Item DISCONN (R345). -/
def runDisconn (s : State) : Result :=
  stopWorker .disconn (fun s1 => .next (finishError .deviceDisconnected s1)) s

/-- A start command after the join: it starts its mode (R283), unless a device flag has been set in the join, for then no mode can
start (R309, R344, D36) and the transport, whose worker has stopped, is in STOP (R306). Testing the gate here as well, and STOP as
the mode it leaves, are log entry 21. -/
def resumeStart (m : Mode) (s : State) : Result :=
  if gated s then .next (finishStop s) else finishStart m s

/-- What the dispatcher does when its join ends (R282). -/
def resume (k : Join) (s : State) : Result :=
  match k with
  | .start m => resumeStart m s
  | .eject => finishEject s
  | .stop => .next (finishStop s)
  | .insert bytes readOnly => finishInsert bytes readOnly s
  | .devErr => .next (finishError .deviceError s)
  | .disconn => .next (finishError .deviceDisconnected s)

end Sys2Proof.Machine
end

