-- ==== Sys2Proof/Machine/Query.lean ====
section
/-! DEFINITION. The queries STATUS and SENSOR (R298, R299). -/

namespace Sys2Proof.Machine

/-- STATUS (R298). -/
def execStatus (s : State) : Result := .next (publishMode s)

/-- SENSOR (R299). -/
def execSensor (s : State) : Result := .next (publishSensor s)

end Sys2Proof.Machine
end

