-- ==== Sys2Proof/Machine/Dispatch.lean ====
section
/-! DEFINITION. The meaning of each command (R120, R290 to R299). -/

namespace Sys2Proof.Machine

def exec (i : Instr) (s : State) : Host.Outcome State Fault Refusal :=
  match i with
  | .eject => Sys2Proof.Machine.execEject s
  | .stop => Sys2Proof.Machine.execStop s
  | .play => Sys2Proof.Machine.execPlay s
  | .ff => Sys2Proof.Machine.execFf s
  | .rew => Sys2Proof.Machine.execRew s
  | .aff => Sys2Proof.Machine.execAff s
  | .arew => Sys2Proof.Machine.execArew s
  | .record => Sys2Proof.Machine.execRecord s
  | .status => Sys2Proof.Machine.execStatus s
  | .sensor => Sys2Proof.Machine.execSensor s

end Sys2Proof.Machine
end

