-- ==== Sys2Proof/Machine/HostPort.lean ====
section
/-! DEFINITION. The host agent and the command receiver: the ports, the status and configuration surface, insertion, device
errors, reset and the host's own accesses to the image store (20_memory.md, R64, R343 to R345, R361, R365, R366, R380, R395). -/

namespace Sys2Proof.Machine

/-- Error items, which stand before every other item of `cmdQ` (R350). -/
def isErrorItem : CmdItem → Bool
  | .devErr | .disconn => true
  | .byte _ | .insert _ _ => false

/-- Put an error item after every error item already there and before everything else (R343, R345). -/
def insertError (e : CmdItem) : List CmdItem → List CmdItem
  | [] => [e]
  | x :: q => if isErrorItem x then x :: insertError e q else e :: x :: q

/-- `deviceError()` (R343). -/
def deviceError (s : State) : State :=
  if gated s then s else { s with devError := true, cmdQ := insertError .devErr s.cmdQ }

/-- `deviceDisconnected()` (R345). -/
def deviceDisconnected (s : State) : State :=
  if s.disconnected then s else { s with disconnected := true, cmdQ := insertError .disconn s.cmdQ }

/-- Reset (R63, R380, R381): the image file, the chip's parameters, and the host's own script, log and schedule are not part
of what it resets (log entry 13). -/
def restart (s : State) : State :=
  { State.reset with
    params := s.params
    img := s.img
    fileSize := s.fileSize
    host := s.host
    hostLog := s.hostLog
    sched := s.sched
    draws := s.draws }

/-- The value of a field of the status surface; `none` for a tape field with no tape loaded (R64). -/
def statusValue (a : StatusAccess) (s : State) : Option StatusValue :=
  match a with
  | .mode => some (.mode s.mode)
  | .sensor => some (.byte (sensor s))
  | .sampleRate => if s.loaded then some (.number s.t) else none
  | .position => if s.loaded then some (.number s.pos) else none
  | .totalBits => if s.loaded then some (.number s.totalBits) else none

/-- The answer to a status read: one of the values the field has held since the request (R94, log entry 8). -/
def drawStatus (q : StatusRead) (draw : Nat) : Option StatusValue :=
  match q.seen with
  | [v] => some v
  | seen => seen[draw % seen.length]?

/-- Keep the value that the field of a pending status read holds now (R94). -/
def observe (s : State) : State :=
  match s.statusRead with
  | none => s
  | some q =>
    match statusValue q.access s with
    | none => s
    | some v =>
      { s with statusRead := some { q with seen := if q.seen.contains v then q.seen else q.seen ++ [v] } }

/-- Append to what the host has received. -/
def logResult (r : HostResult) (s : State) : State := { s with hostLog := s.hostLog ++ [r] }

/-- A status read: the first turn requests it, a later turn is answered (R64, R94). `rest` is the script after it. -/
def readStatus (a : StatusAccess) (rest : List HostAction) (s : State) : Result :=
  match s.statusRead with
  | none =>
    match statusValue a s with
    | none => .fault .noTape
    | some v => .next { s with statusRead := some ⟨a, [v]⟩ }
  | some q =>
    match drawStatus q (Config.freeRead s.draws) with
    | none => .fault .noTape
    | some v =>
      .next (logResult (.status q.access v) { s with statusRead := none, draws := s.draws + 1, host := rest })

/-- Whether the host can take the outbound chunk (R97, R344, R361). -/
def canTake (s : State) : Bool := s.mode == .play && s.outValid && !gated s

/-- A read of the image store by the host (R395). -/
def hostRead (a : Nat) (s : State) : Result :=
  if s.loaded then .refused .imageOwned
  else andThen (imgRead a s) fun v => .next (logResult (.imageByte a v) s)

/-- A write of the image store by the host (R395). -/
def hostWrite (a : Nat) (v : Byte) (s : State) : Result :=
  if s.loaded then .refused .imageOwned else andThen (imgWrite a v s) .next

/-- An offer on the inbound chunk port: it waits until the worker accepts it (R98, R361, R392). -/
def offerChunk (bytes : List Byte) (rest : List HostAction) (s : State) : Result :=
  if bytes.length = s.params.chunkBytes then
    match s.offer with
    | none => .next { s with offer := some bytes, host := rest }
    | some _ => .next s
  else .refused .chunkSize

/-- Take the outbound chunk (R97). -/
def takeChunk (s : State) : State := logResult (.chunk s.outChunk) { s with outValid := false }

/-- Consume a frame (R99): the host holds while there is none. -/
def takeFrame (rest : List HostAction) (s : State) : State :=
  match s.rspQ with
  | [] => s
  | f :: q => logResult (.frame f) { s with rspQ := q, host := rest }

/-- Consume an event (R100): the host holds while there is none or no listener is registered. -/
def takeEvent (rest : List HostAction) (s : State) : State :=
  match s.evtQ with
  | [] => s
  | e :: q => if s.listener then logResult (.event e) { s with evtQ := q, host := rest } else s

/-- One action of the host (R365), with the script after it. -/
def hostAct (act : HostAction) (rest : List HostAction) (s : State) : Result :=
  match act with
  | .pushPort b => .next { s with cmdPort := s.cmdPort ++ [b], host := rest }
  | .issue b => .next { s with cmdQ := s.cmdQ ++ [.byte b], host := rest }
  | .insert bytes readOnly => .next { s with cmdQ := s.cmdQ ++ [.insert bytes readOnly], host := rest }
  | .takeChunk => .next (if canTake s then takeChunk { s with host := rest } else s)
  | .offerChunk bytes => offerChunk bytes rest s
  | .setAltRate v => .next { s with altRate := v, host := rest }
  | .setRecConv v => .next { s with recConv := v, host := rest }
  | .readStatus a => readStatus a rest s
  | .takeFrame => .next (takeFrame rest s)
  | .listen => .next { s with listener := true, host := rest }
  | .takeEvent => .next (takeEvent rest s)
  | .deviceError => .next (deviceError { s with host := rest })
  | .deviceDisconnected => .next (deviceDisconnected { s with host := rest })
  | .readImage a => hostRead a { s with host := rest }
  | .writeImage a v => hostWrite a v { s with host := rest }
  | .reset => .next (restart { s with host := rest })

/-- The host's turn: the next action of its script, if it can be taken. -/
def hostStep (s : State) : Result :=
  match s.host with
  | [] => .next s
  | act :: rest => hostAct act rest s

/-- Whether the host holds: nothing left to do, or its next action cannot be taken yet. -/
def hostHolds (s : State) : Bool :=
  match s.host with
  | [] => true
  | .takeChunk :: _ => !canTake s
  | .offerChunk bytes :: _ => bytes.length == s.params.chunkBytes && s.offer.isSome
  | .takeFrame :: _ => s.rspQ.isEmpty
  | .takeEvent :: _ => s.evtQ.isEmpty || !s.listener
  | .pushPort _ :: _ | .issue _ :: _ | .insert _ _ :: _ | .setAltRate _ :: _ | .setRecConv _ :: _
  | .readStatus _ :: _ | .listen :: _ | .deviceError :: _ | .deviceDisconnected :: _ | .readImage _ :: _
  | .writeImage _ _ :: _ | .reset :: _ => false

/-- Whether the receiver holds: no byte on the port, or the device is gated (R344, R366). -/
def receiverHolds (s : State) : Bool := gated s || s.cmdPort.isEmpty

/-- The command receiver's turn: one byte to the tail of `cmdQ` (R366). -/
def receiverStep (s : State) : Result :=
  if gated s then .next s
  else
    match s.cmdPort with
    | [] => .next s
    | b :: rest => .next { s with cmdPort := rest, cmdQ := s.cmdQ ++ [.byte b] }

end Sys2Proof.Machine
end

