-- ==== Sys2Proof/Machine/Worker.lean ====
section
/-! DEFINITION. The steps of the mode worker and of the record writer (R211, R301 to R305). -/

namespace Sys2Proof.Machine

/-- Whether the worker holds: on the outbound chunk (R198), on an inbound chunk (R229) or on the writer's exit (R305). -/
def workerHolds (s : State) : Bool :=
  !s.workerAlive ||
    (match s.workerAt with
     | .top => false
     | .takeHold _ => s.outValid && s.runFlag
     | .offerHold => s.runFlag && s.writerAlive && !canAccept s
     | .exitHold _ => s.writerAlive)

/-- The bounded step of an iteration, by the worker's mode (R301). -/
def iterate (s : State) : Except Fault State :=
  match s.workerMode with
  | .play => iteratePlay s
  | .record => .ok (iterateRec s)
  | .fastForward => iterateSeek .fwd s
  | .rewind => iterateSeek .bwd s
  | .autoFastForward => iterateApss .fwd s
  | .autoRewind => iterateApss .bwd s
  | .none | .stop | .eject => .error .notRunningMode

/-- One pass of the worker's loop from its top: the cancellation check, the UPDATE draw and the iteration (R301, R304). -/
def workerLoop (s : State) : Except Fault State :=
  if s.runFlag = false then .ok (workerExit false s) else iterate (drawUpdate s)

/-- The end of the hold on the outbound chunk: a cleared runFlag wins over the end of the tape (R198, R304, R350). The end of the
hold and the exit that follows it are one step (the model's choice, log entry 5). -/
def afterTake (eot : Bool) (s : State) : State :=
  if s.runFlag = false then workerExit false s
  else if eot then workerExit true s
  else { s with workerAt := .top }

/-- One step of a worker that does not hold. -/
def workerTurn (s : State) : Except Fault State :=
  match s.workerAt with
  | .top => workerLoop s
  | .takeHold eot => .ok (afterTake eot s)
  | .offerHold => .ok (iterateRec s)
  | .exitHold self => .ok (finishExit self s)

/-- The mode worker's turn: a worker that holds takes no step (R369). -/
def workerStep (s : State) : Result :=
  if workerHolds s then .next s else withTape s (andThen (workerTurn s) .next)

/-- The record writer's turn: a writer that holds takes no step (R369). -/
def writerStep (s : State) : Result :=
  if writerHolds s then .next s else withTape s (andThen (writerTurn s) .next)

end Sys2Proof.Machine
end

