-- ==== Sys2Proof/Machine/Agents.lean ====
section
/-! DEFINITION. The dispatcher, and the choice of the agent that moves (R280, R367, R369). -/

namespace Sys2Proof.Machine

/-- A byte from `cmdQ`: its command, or UNLISTED_CMD_POLICY (R121, R280, R300). -/
def runByte (b : Byte) (s : State) : Result :=
  match decode [b] with
  | .ok (i, _) => exec i s
  | .error _ =>
    match s.params.unlistedCmdPolicy with
    | .ignore => .next s
    | .refuse => .refused (.unlistedCommand b)

/-- An item from `cmdQ` (R280, R367). -/
def runItem (x : CmdItem) (s : State) : Result :=
  match x with
  | .byte b => runByte b s
  | .insert bytes readOnly => insertTape bytes readOnly s
  | .devErr => runDevErr s
  | .disconn => runDisconn s

/-- Whether the dispatcher holds: on an empty `cmdQ`, or in the join of `stop_worker` (R280, R282). -/
def dispatcherHolds (s : State) : Bool :=
  match s.dispatcherAt with
  | .idle => s.cmdQ.isEmpty
  | .joining _ => s.workerAlive

/-- The dispatcher's turn (R280, R282). -/
def dispatcherStep (s : State) : Result :=
  match s.dispatcherAt with
  | .joining k => if s.workerAlive then .next s else resume k { s with dispatcherAt := .idle }
  | .idle =>
    match s.cmdQ with
    | [] => .next s
    | x :: q => runItem x { s with cmdQ := q }

/-- Whether an agent holds (R369). -/
def holds (a : Agent) (s : State) : Bool :=
  match a with
  | .receiver => receiverHolds s
  | .dispatcher => dispatcherHolds s
  | .worker => workerHolds s
  | .writer => writerHolds s
  | .host => hostHolds s

/-- The turn of an agent. -/
def agentStep (a : Agent) (s : State) : Result :=
  match a with
  | .receiver => receiverStep s
  | .dispatcher => dispatcherStep s
  | .worker => workerStep s
  | .writer => writerStep s
  | .host => hostStep s

/-- The agent that moves when the schedule is used up: the first one of the block that does not hold, then the host, so that
every agent steps until it holds (RUN of R137, log entry 4). -/
def defaultAgent (s : State) : Agent :=
  ([Agent.writer, .worker, .dispatcher, .receiver].find? (fun a => !holds a s)).getD .host

/-- The agent that moves (R369, log entry 4). -/
def nextAgent (s : State) : Agent := s.sched.headD (defaultAgent s)

/-- Go on from a step with a function of the state. -/
def mapNext (f : State → State) (r : Result) : Result :=
  match r with
  | .next s => .next (f s)
  | .fault e => .fault e
  | .refused e => .refused e

/-- One step of the block and its host: one agent's turn (R369), after which a pending status read sees the new value (R94). -/
def turn (s : State) : Result :=
  mapNext observe (agentStep (nextAgent s) { s with sched := s.sched.tail })

/-- A state whose very next turn is the dispatcher's, between two items, with these bytes at the head of `cmdQ`. -/
def placeCommand (bytes : List Byte) (s : State) : State :=
  { s with
    cmdQ := bytes.map CmdItem.byte ++ s.cmdQ
    dispatcherAt := .idle
    sched := .dispatcher :: s.sched }

end Sys2Proof.Machine
end

