-- ==== Sys2Proof/Machine/Step.lean ====
section
/-! DEFINITION. One step of the machine, and where it fetches its next command (R31, R280, R369). -/

namespace Sys2Proof.Machine

/-- One step: the turn of one agent. -/
def step (s : State) : Host.Outcome State Fault Refusal := turn s

/-- The state with the command of a table word at the head of `cmdQ`, where the dispatcher takes its next command, and the
dispatcher's turn next (log entry 12). -/
def State.withFetchWord (s : State) (nbits w : Nat) : State := placeCommand (wordBytes nbits w) s

end Sys2Proof.Machine
end

