-- ==== Sys2Proof/Safety.lean ====
section
/-! DEFINITION. The words the statements use: the invariants of the block, what a step may change, and what a record of a
session or of a playback is. -/

namespace Sys2Proof.Machine

/-! ### Invariants -/

/-- The image store: canonical cells, all inside the file (R80). -/
structure MemInv (s : State) : Prop where
  canonical : Memory.wf s.img
  inside    : ∀ c ∈ s.img, c.1 < s.fileSize

/-- The open tape and its cursor (R34 to R40, R171). -/
structure TapeInv (s : State) : Prop where
  rate   : s.loaded = true → 8000 ≤ s.t ∧ s.t ≤ 48000
  header : s.loaded = true → hdr s ≤ s.fileSize
  size   : s.loaded = true → s.totalBits = (s.fileSize - hdr s) * 8
  bound  : s.loaded = true → s.totalBits ≤ maxPosition s.params s.variant
  posLe  : s.loaded = true → s.pos ≤ s.totalBits
  cached : s.loaded = true → s.cacheIdx = cacheIdxAt s.pos s
  clean  : s.loaded = true → s.dirty = false → s.pos < s.totalBits →
             s.cacheByte = Memory.get s.img (hdr s + s.pos / 8)
  staged : s.dirty = true → s.loaded = true ∧ s.pos < s.totalBits
  legacy : s.loaded = true → s.variant = .legacy → s.protect = s.readOnly

/-- The controller, the worker and the writer (R50, R51, R60, R281, R306). -/
structure CtrlInv (s : State) : Prop where
  /-- a worker is alive only in a running mode, and the mode is its own -/
  worker   : s.workerAlive = true → isRunningMode s.workerMode = true ∧ s.mode = s.workerMode
  /-- outside a dispatcher step, no running mode without a worker -/
  quiet    : s.workerAlive = false → s.dispatcherAt = .idle → isRunningMode s.mode = false
  /-- mode EJECT is the mode with no tape -/
  tape     : s.mode = .eject ↔ s.loaded = false
  /-- NONE is never entered -/
  entered  : s.mode ≠ .none
  running  : s.running = s.workerAlive
  writer   : s.writerAlive = true → s.workerAlive = true ∧ s.workerMode = .record
  session  : s.recEntered = true → s.mode = .record
  /-- a cancelled worker has the dispatcher waiting for it -/
  cancel   : s.workerAlive = true → s.runFlag = false → s.dispatcherAt ≠ .idle
  takeHold : ∀ eot, s.workerAlive = true → s.workerAt = .takeHold eot → s.workerMode = .play
  offerHold : s.workerAlive = true → s.workerAt = .offerHold → s.workerMode = .record
  exitHold : ∀ self, s.workerAlive = true → s.workerAt = .exitHold self →
               s.workerMode = .record ∧ s.runFlag = false ∧ self = false
  outbound : s.outValid = true → s.workerAlive = true ∧ ∃ eot, s.workerAt = .takeHold eot
  joining  : ∀ k, s.dispatcherAt = .joining k → s.loaded = true ∧ (s.workerAlive = true → s.runFlag = false)
  starting : ∀ m, s.dispatcherAt = .joining (.start m) → isRunningMode m = true ∧ s.mode ≠ m

/-- The chunks (R41, R42, R61, R98). -/
structure PortInv (s : State) : Prop where
  slot    : s.slotFull = true → s.slotData.length = s.params.chunkBytes
  scratch : s.sValid = true → s.scr.length = s.params.chunkBytes ∧ s.spos ≤ 8 * s.params.chunkBytes
  offered : ∀ chunk, s.offer = some chunk → chunk.length = s.params.chunkBytes
  out     : s.outValid = true → 0 < s.outChunk.length ∧ s.outChunk.length ≤ s.params.chunkBytes

/-- Error items stand before every other item of `cmdQ` (R350). -/
def QueueInv (s : State) : Prop :=
  s.cmdQ.Pairwise (fun x y => isErrorItem y = true → isErrorItem x = true)

/-- The ranges of the accumulators and counters while their unit runs (R48, R194, R226). -/
structure RangeInv (s : State) : Prop where
  acc  : s.workerAlive = true → s.workerMode = .play → 0 ≤ s.acc ∧ s.acc < (hostRate s : Int)
  w    : s.writerAlive = true → s.recStrategy = .raw →
           0 ≤ s.w ∧ ((s.vote.natAbs * s.t : Nat) : Int) + s.w < (hostRate s : Int)
  apss : s.workerAlive = true → (s.workerMode = .autoFastForward ∨ s.workerMode = .autoRewind) →
           s.ign ≤ apssWindow s.t ∧ s.mis ≤ tolerance s ∧ s.mat ≤ apssWindow s.t ∧ s.found = false

/-- Every invariant of the block. -/
structure Inv (s : State) : Prop where
  params : s.params.wf = true
  mem    : MemInv s
  tape   : TapeInv s
  ctrl   : CtrlInv s
  port   : PortInv s
  queue  : QueueInv s
  range  : RangeInv s

/-! ### What a step or an operation may change -/

/-- Only the image store, the tape cursor and the transport registers differ (R35 to R48 without the tape's own fields). -/
def DatapathOnly (s t : State) : Prop :=
  t = { s with
    img := t.img, pos := t.pos, cacheIdx := t.cacheIdx, cacheByte := t.cacheByte, dirty := t.dirty,
    acc := t.acc, ended := t.ended, w := t.w, vote := t.vote, last := t.last,
    phase := t.phase, prev := t.prev, n := t.n, k := t.k,
    ign := t.ign, maj := t.maj, mis := t.mis, mat := t.mat, seen := t.seen, found := t.found }

/-- Only the image store and the tape cursor differ. -/
def CursorOnly (s t : State) : Prop :=
  t = { s with
    img := t.img, pos := t.pos, cacheIdx := t.cacheIdx, cacheByte := t.cacheByte, dirty := t.dirty }

/-- No tape sample differs in the cursor's view. -/
def SameSamples (s t : State) : Prop := ∀ i, tapeSample t i = tapeSample s i

/-- Every byte of the image store reads as before. -/
def SameImage (s t : State) : Prop := ∀ a, Memory.get t.img a = Memory.get s.img a

/-- What reset leaves, where R63 gives the value. -/
structure AtReset (s : State) : Prop where
  tape    : s.loaded = false ∧ s.cacheIdx = none ∧ s.dirty = false
  chunks  : s.slotFull = false ∧ s.sValid = false ∧ s.spos = 0 ∧ s.outValid = false
  control : s.mode = .eject ∧ s.running = false ∧ s.recEntered = false ∧ s.ended = false
  agents  : s.workerAlive = false ∧ s.runFlag = false ∧ s.writerAlive = false
  config  : s.altRate = false ∧ s.recConv = false ∧ s.rateClass = .c48k
  device  : s.devError = false ∧ s.disconnected = false
  queues  : s.cmdQ = [] ∧ s.rspQ = [] ∧ s.evtQ = []
  sensor  : sensor s = 0x00
  holds   : holds .receiver s = true ∧ holds .dispatcher s = true

/-! ### Commands and turns -/

/-- The running mode a command starts (R281). -/
def startTarget : Instr → Option Mode
  | .play => some .play
  | .ff => some .fastForward
  | .rew => some .rewind
  | .aff => some .autoFastForward
  | .arew => some .autoRewind
  | .record => some .record
  | .eject | .stop | .status | .sensor => none

/-- `rspQ` after a list of frames has been sent, in order (R308, R344). -/
def sentFrames (s : State) (frames : List Frame) : List Frame :=
  if s.devError || s.disconnected then s.rspQ else s.rspQ ++ frames

/-- The SENSOR_CHANGE frame of a state (R123). -/
def sensorFrame (s : State) : Frame := ⟨s.params.kindSensorChange, sensor s⟩

/-- The stop acknowledgement (R123). -/
def ackFrame (s : State) : Frame := ⟨s.params.kindRequestAck, 0x01⟩

/-- Whether a step is the host's reset (R380). -/
def isResetTurn (s : State) : Prop := nextAgent s = .host ∧ s.host.head? = some .reset

/-- The turns of a list of agents, one after another (R369). -/
def runTurns : List Agent → State → Result
  | [], s => .next s
  | a :: as, s =>
    match agentStep a s with
    | .next s1 => runTurns as s1
    | .fault e => .fault e
    | .refused e => .refused e

/-! ### Folds of the detector and of the decoders -/

/-- The APSS registers after a list of samples (R257). -/
def apssFold (samples : List Bit) (s : State) : State := samples.foldl (fun u b => apssEval b u) s

/-- The `m` samples that a cursor passes over from `pos`, in the order it passes them (R255). -/
def passedSamples (dir : Dir) (m : Nat) (s : State) : List Bit :=
  (List.range m).map fun k =>
    match dir with
    | .fwd => tapeSample s (s.pos + k)
    | .bwd => tapeSample s (s.pos - 1 - k)

/-- A record session after a list of raw host bits, each read inverted (R131, R211). -/
def recordBits : List Bit → State → Except Fault State
  | [], s => .ok s
  | x :: xs, s => do
    let s1 ← recStep (!x) s
    recordBits xs s1

/-- `m` forward steps that all return OK (R163). -/
def forwardSteps : Nat → State → Except Fault (Bool × State)
  | 0, s => .ok (true, s)
  | m + 1, s => do
    let (r, s1) ← stepForward s
    if r = .ok then forwardSteps m s1 else .ok (false, s1)

/-- `m` backward steps (R163). -/
def backwardSteps : Nat → State → Except Fault State
  | 0, s => .ok s
  | m + 1, s => do
    let (_, s1) ← stepBackward s
    backwardSteps m s1

/-- `j_k` of R195: the sample of host bit `k`, counted from the start of the playback. -/
def selectedSample (t h k : Nat) : Nat := (k * t - h / 2 + (h - 1)) / h

end Sys2Proof.Machine
end

