-- ==== Sys2Proof/Certificates/Slice0/Obligations.lean ====
section
/-! DEFINITION. The statements about the model, each a numbered rule of the spec or derived from several. -/

open Sys2Proof Sys2Proof.Machine

/-! ### Encoding -/

/-- R120: the ten command bytes, written out from the table of R120, decode to their commands, each with no operand, and the
decoder compares all 8 bits: every other byte is rejected by name. STATUS and SENSOR are the queries. -/
def Obligations.CommandBytesDecode : Prop :=
  ∀ rest : List Byte,
    decode (0x00#8 :: rest) = .ok (.eject, rest) ∧ decode (0x01#8 :: rest) = .ok (.stop, rest) ∧
    decode (0x02#8 :: rest) = .ok (.play, rest) ∧ decode (0x03#8 :: rest) = .ok (.ff, rest) ∧
    decode (0x04#8 :: rest) = .ok (.rew, rest) ∧ decode (0x05#8 :: rest) = .ok (.aff, rest) ∧
    decode (0x06#8 :: rest) = .ok (.arew, rest) ∧ decode (0x0a#8 :: rest) = .ok (.record, rest) ∧
    decode (0x80#8 :: rest) = .ok (.status, rest) ∧ decode (0x81#8 :: rest) = .ok (.sensor, rest) ∧
    (∀ b : Byte, b ∉ commandBytes → decode (b :: rest) = .error (.unlisted b)) ∧
    (∀ i : Instr, i.isQuery = true ↔ i = .status ∨ i = .sensor)

/-- R120, R136: decoding an encoded command gives it back with the bytes after it, and every decoded command's byte is its
encoding: each word has one meaning. -/
def Obligations.DecodeEncodeAgree : Prop :=
  (∀ (i : Instr) (rest : List Byte), i.wellFormed = true → decode (encode i ++ rest) = .ok (i, rest)) ∧
  (∀ (bytes rest : List Byte) (i : Instr), decode bytes = .ok (i, rest) → bytes = encode i ++ rest) ∧
  (∀ i : Instr, (encode i).length = 1 ∧ wellFormedCommand (encode i) = true)

/-- R300: an unlisted byte follows UNLISTED_CMD_POLICY. IGNORE removes it, with no other change and no response; REFUSE stops
the run. -/
def Obligations.UnlistedByteFollowsPolicy : Prop :=
  ∀ (s : State) (b : Byte) (q : List CmdItem),
    s.dispatcherAt = .idle → s.cmdQ = .byte b :: q → b ∉ commandBytes →
    (s.params.unlistedCmdPolicy = .ignore → agentStep .dispatcher s = .next { s with cmdQ := q }) ∧
    (s.params.unlistedCmdPolicy = .refuse → agentStep .dispatcher s = .refused (.unlistedCommand b))

/-! ### The step -/

/-- R280, R366: when the dispatcher moves and the byte at the head of `cmdQ` decodes to a command, the step is that command's
meaning on the state without the byte (and a pending status read sees the new value, R94); `withFetchWord` places a
command there (the model's choice, log entry 12); and the receiver brings a byte of the command port to the tail of `cmdQ`. -/
def Obligations.StepRunsDecodedCommand : Prop :=
  (∀ (s : State) (b : Byte) (q : List CmdItem) (i : Instr) (r : List Byte),
    nextAgent s = .dispatcher → s.dispatcherAt = .idle → s.cmdQ = .byte b :: q → decode [b] = .ok (i, r) →
    i.wellFormed = true →
    step s = mapNext observe (exec i { s with cmdQ := q, sched := s.sched.tail })) ∧
  (∀ (s : State) (word : Nat) (i : Instr), decodeTableWord 8 word = some i →
    step (s.withFetchWord 8 word) = mapNext observe (exec i { s with dispatcherAt := .idle })) ∧
  (∀ (s : State) (b : Byte) (rest : List Byte), s.cmdPort = b :: rest → s.devError = false → s.disconnected = false →
    agentStep .receiver s = .next { s with cmdPort := rest, cmdQ := s.cmdQ ++ [.byte b] })

/-- R369: an agent that holds takes no step, and the schedule names the agent that moves, whichever it is (that the choice is
a list in the state is the model's own, log entry 4). -/
def Obligations.HoldingAgentTakesNoStep : Prop :=
  (∀ (a : Agent) (s : State), holds a s = true → agentStep a s = .next s) ∧
  (∀ (a : Agent) (rest : List Agent) (s : State), s.sched = a :: rest →
    step s = mapNext observe (agentStep a { s with sched := rest }))

/-! ### Queries and the sensor byte -/

/-- R138, R298, R299: STATUS sends one STATUS_CHANGE frame with the mode's code, SENSOR one SENSOR_CHANGE frame with the sensor
byte (a gated frame is discarded, R344), and neither changes anything else. -/
def Obligations.QueriesSendOneFrame : Prop :=
  ∀ s : State,
    exec .status s =
      .next { s with rspQ := sentFrames s [⟨s.params.kindStatusChange, modeCode s.params s.mode⟩] } ∧
    exec .sensor s = .next { s with rspQ := sentFrames s [⟨s.params.kindSensorChange, sensor s⟩] }

/-- R52, R132, R133: bit by bit, the sensor byte is RUNNING, TAPE-SET and NOT-WRITE-PROTECTED at their positions and 0
elsewhere; with no tape NOT-WRITE-PROTECTED is 0; at reset the byte is 0x00. -/
def Obligations.SensorByteBits : Prop :=
  (∀ (s : State) (i : Fin 8), (sensor s).getLsbD i.val =
    ((i == s.params.sensorBitRunning && s.running) || (i == s.params.sensorBitTapeset && s.loaded) ||
      (i == s.params.sensorBitNotwp && s.loaded && !s.protect))) ∧
  (∀ (s : State) (i : Fin 8), s.loaded = false → s.params.wf = true → i = s.params.sensorBitNotwp →
    (sensor s).getLsbD i.val = false) ∧
  sensor State.reset = 0x00

/-! ### STOP and EJECT -/

/-- R291: STOP with no worker alive. -/
def Obligations.StopWithNoWorker : Prop :=
  ∀ s : State, s.workerAlive = false → exec .stop s = .next { s with
    mode := if s.loaded then .stop else s.mode
    running := false
    recEntered := false
    rspQ := sentFrames s [sensorFrame { s with running := false }, ackFrame s] }

/-- R282: a mode command that finds a worker alive clears `runFlag` and the dispatcher holds, changing nothing else, until the
worker is gone (the hold is a control point of the model, log entry 5). -/
def Obligations.ModeCommandJoinsWorker : Prop :=
  ∀ s : State, s.workerAlive = true →
    exec .stop s = .next { s with runFlag := false, dispatcherAt := .joining .stop } ∧
    (s.mode ≠ .eject → exec .eject s = .next { s with runFlag := false, dispatcherAt := .joining .eject }) ∧
    (∀ (i : Instr) (m : Mode), startTarget i = some m → s.loaded = true → s.devError = false →
      s.disconnected = false → s.mode ≠ m →
      exec i s = .next { s with runFlag := false, dispatcherAt := .joining (.start m) }) ∧
    (∀ k : Join, s.dispatcherAt = .joining k → agentStep .dispatcher s = .next s)

/-- R282, R283, R290, R291: when the join ends, STOP enters mode STOP and sends nothing more, and every other mode command goes on
as it does with no worker alive. R309, R344: a start command whose join ends while the device is gated starts no mode, whatever
its mode and the tape's protection: the mode is then STOP, and nothing is sent. That the gate is tested again when the join ends,
and that STOP is the mode left, are log entry 21. The points of the join are log entry 5. -/
def Obligations.JoinEndsThenCommandCompletes : Prop :=
  ∀ s : State, s.workerAlive = false →
    (s.dispatcherAt = .joining .stop →
      agentStep .dispatcher s = .next { s with dispatcherAt := .idle, mode := .stop, recEntered := false }) ∧
    (s.dispatcherAt = .joining .eject → s.mode ≠ .eject →
      agentStep .dispatcher s = exec .eject { s with dispatcherAt := .idle }) ∧
    (∀ (i : Instr) (m : Mode), startTarget i = some m → s.dispatcherAt = .joining (.start m) → s.loaded = true →
      s.devError = false → s.disconnected = false → s.mode ≠ m →
      agentStep .dispatcher s = exec i { s with dispatcherAt := .idle }) ∧
    (∀ m : Mode, s.dispatcherAt = .joining (.start m) → s.devError = true ∨ s.disconnected = true →
      agentStep .dispatcher s = .next { s with dispatcherAt := .idle, mode := .stop, recEntered := false })

/-- R176, R290: EJECT in mode EJECT is a no-op with no response, and with a tape and no worker alive it closes the image and leaves mode EJECT. The bytes written are the staged byte at
the cursor, and for a writable MODERN image the four position bytes at offset 36; every other byte reads as before. -/
def Obligations.EjectClosesTheTape : Prop :=
  (∀ s : State, s.mode = .eject → exec .eject s = .next s) ∧
  ∀ s : State, MemInv s → TapeInv s → s.loaded = true → s.mode ≠ .eject → s.workerAlive = false →
    ∃ t : State, exec .eject s = .next t ∧
      t = { s with
        img := t.img
        loaded := false
        cacheIdx := none
        dirty := false
        mode := .eject
        running := false
        recEntered := false
        rspQ := sentFrames s [⟨s.params.kindSensorChange, 0x00⟩]
        evtQ := s.evtQ ++ [.eject] } ∧
      ∀ a : Nat, Memory.get t.img a =
        if s.variant = .modern ∧ s.readOnly = false ∧ 36 ≤ a ∧ a < 40 then BitVec.ofNat 8 (s.pos / 256 ^ (a - 36))
        else if s.dirty = true ∧ a = hdr s + s.pos / 8 then s.cacheByte
        else Memory.get s.img a

/-! ### Commands that start a running mode -/

/-- R283, R344, C6: PLAY, FF, REW, AFF, AREW and REC do nothing at all with no tape, while the device is gated, or when their
mode is already running. -/
def Obligations.StartIgnoredWithoutEffect : Prop :=
  ∀ (s : State) (i : Instr) (m : Mode), startTarget i = some m →
    s.loaded = false ∨ s.devError = true ∨ s.disconnected = true ∨ s.mode = m → exec i s = .next s

/-- R190, R283, R292: PLAY with a tape and no worker sets `acc` to h div 2, spawns the PLAY worker and publishes the sensor
byte; nothing else changes, so no byte of the image store does. `recEntered` is cleared by R60 (log entry 6). -/
def Obligations.PlayStarts : Prop :=
  ∀ s : State, s.loaded = true → s.devError = false → s.disconnected = false → s.mode ≠ .play →
    s.workerAlive = false →
    exec .play s = .next { s with
      mode := .play
      running := true
      recEntered := false
      acc := ((hostRateOf s.params s.rateClass / 2 : Nat) : Int)
      runFlag := true
      workerMode := .play
      workerAlive := true
      workerAt := .top
      rspQ := s.rspQ ++ [sensorFrame { s with running := true }] }

/-- R254, R283, R293 to R296: FF, REW, AFF and AREW with a tape and no worker start their mode. FF and REW reset no transport
register, and AFF and AREW set the APSS registers. `recEntered` is cleared by R60 (log entry 6). -/
def Obligations.WindStarts : Prop :=
  (∀ (s : State) (i : Instr) (m : Mode), (i = .ff ∧ m = .fastForward) ∨ (i = .rew ∧ m = .rewind) →
      s.loaded = true → s.devError = false → s.disconnected = false → s.mode ≠ m → s.workerAlive = false →
      exec i s = .next { s with
        mode := m
        running := true
        recEntered := false
        runFlag := true
        workerMode := m
        workerAlive := true
        workerAt := .top
        rspQ := s.rspQ ++ [sensorFrame { s with running := true }] }) ∧
  ∀ (s : State) (i : Instr) (m : Mode), (i = .aff ∧ m = .autoFastForward) ∨ (i = .arew ∧ m = .autoRewind) →
    s.loaded = true → s.devError = false → s.disconnected = false → s.mode ≠ m → s.workerAlive = false →
    exec i s = .next { s with
      mode := m
      running := true
      recEntered := false
      ign := 7 * s.t / 2
      maj := none
      mis := 0
      mat := 0
      seen := false
      found := false
      runFlag := true
      workerMode := m
      workerAlive := true
      workerAt := .top
      rspQ := s.rspQ ++ [sensorFrame { s with running := true }] }

/-- R210, R283, R297: REC with a tape, no worker and no session entered sets the record registers and starts the writer and the
worker. On a protected tape this is so unless REC_PROTECT_POLICY is REFUSE. -/
def Obligations.RecordStarts : Prop :=
  ∀ s : State, s.loaded = true → s.devError = false → s.disconnected = false → s.mode ≠ .record →
    s.workerAlive = false → s.recEntered = false →
    (s.protect = false ∧ s.readOnly = false) ∨ s.params.recProtectPolicy ≠ .refuse →
    exec .record s = .next { s with
      mode := .record
      running := true
      recEntered := true
      recStrategy := if s.recConv = true ∨ s.t < 32000 then .edge else .raw
      ended := false
      w := ((hostRateOf s.params s.rateClass / 2 : Nat) : Int)
      vote := 0
      last := false
      phase := .scan
      prev := false
      n := 0
      k := 0
      sValid := false
      spos := 0
      slotFull := false
      writerAlive := true
      runFlag := true
      workerMode := .record
      workerAlive := true
      workerAt := .top
      rspQ := s.rspQ ++ [sensorFrame { s with running := true }] }

/-- R231: REC on a protected tape. REFUSE stops the run; INHIBIT makes every `tapeWrite` a bare cursor step: no sample
changes, nothing is staged, and with nothing staged before the store stays as it is; WRITE records as on any tape. That INHIBIT is decided at each write is the model's reading (log entry 18). -/
def Obligations.ProtectedTapeFollowsPolicy : Prop :=
  ∀ s : State, s.loaded = true → s.protect = true ∨ s.readOnly = true →
    (s.params.recProtectPolicy = .refuse → s.devError = false → s.disconnected = false → s.mode ≠ .record →
      s.workerAlive = false → exec .record s = .refused .recProtected) ∧
    (MemInv s → TapeInv s → s.ended = false → s.pos < s.totalBits → ∀ v : Bit, ∃ t : State,
      tapeWrite v s = .ok t ∧ t.pos = s.pos + 1 ∧ CursorOnly s t ∧
      (s.params.recProtectPolicy = .inhibit → SameSamples s t ∧
        (s.dirty = false → t.dirty = false ∧ t.img = s.img)) ∧
      (s.params.recProtectPolicy = .write →
        ∀ i, tapeSample t i = if i = s.pos then v else tapeSample s i))

/-! ### The trap entry, errors and the device gate -/

/-- R305: `worker_exit(self)`. With no writer to wait for, the worker is gone, RUNNING is clear, the outbound chunk is
withdrawn, the mode is STOP if the worker ended by itself, and a sensor update and then a stop acknowledgement are sent;
`pos` and every other register stay. With a writer alive, a RECORD worker clears `runFlag` and holds until the writer is gone. In
RECORD after the tape end, when the writer has ended and nobody has cancelled, self is true. That the iteration which ends and the
exit are one step, and that the hold is a control point, are the model's choices (log entry 5). -/
def Obligations.WorkerExitIsTheTrapEntry : Prop :=
  ∀ (s : State) (self : Bool),
    (s.workerMode ≠ .record ∨ s.writerAlive = false →
      workerExit self s = { s with
        runFlag := if s.workerMode = .record then false else s.runFlag
        outValid := false
        running := false
        mode := if self then .stop else s.mode
        recEntered := if self then false else s.recEntered
        workerAlive := false
        workerAt := .top
        rspQ := sentFrames s [
          sensorFrame { s with running := false }, ackFrame s] }) ∧
    (s.workerMode = .record → s.writerAlive = true →
      workerExit self s = { s with runFlag := false, workerAt := .exitHold self }) ∧
    (s.workerAlive = true → s.loaded = true → s.workerAt = .exitHold self →
      (s.writerAlive = true → agentStep .worker s = .next s) ∧
      (s.writerAlive = false → s.workerMode = .record → s.runFlag = false →
        agentStep .worker s = .next (workerExit self s))) ∧
    (s.runFlag = true → s.writerAlive = false → iterateRec s = workerExit true s)

/-- R343, R345: the error items. `deviceError()` sets its flag and puts DEVERR behind the error items and before everything
else, and does nothing once the device is gated. `deviceDisconnected()` does so with its own flag and DISCONN, also while
`devError = 1`, and does nothing once `disconnected = 1`. The dispatcher then stops any worker, enters STOP if a tape is loaded,
and sends the event. -/
def Obligations.DeviceErrorStopsTheMode : Prop :=
  (∀ s : State, s.devError = false → s.disconnected = false →
    deviceError s = { s with
      devError := true
      cmdQ := s.cmdQ.takeWhile isErrorItem ++ .devErr :: s.cmdQ.dropWhile isErrorItem }) ∧
  (∀ s : State, s.devError = true ∨ s.disconnected = true → deviceError s = s) ∧
  (∀ (s : State) (q : List CmdItem), s.dispatcherAt = .idle → s.cmdQ = .devErr :: q →
    (s.workerAlive = true → agentStep .dispatcher s =
      .next { s with cmdQ := q, runFlag := false, dispatcherAt := .joining .devErr }) ∧
    (s.workerAlive = false → agentStep .dispatcher s =
      .next { s with
        cmdQ := q
        mode := if s.loaded then .stop else s.mode
        running := false
        recEntered := false
        evtQ := s.evtQ ++ [.deviceError] })) ∧
  (∀ s : State, s.dispatcherAt = .joining .devErr → s.workerAlive = false → agentStep .dispatcher s =
      .next { s with
        dispatcherAt := .idle
        mode := if s.loaded then .stop else s.mode
        running := false
        recEntered := false
        evtQ := s.evtQ ++ [.deviceError] }) ∧
  (∀ s : State, s.disconnected = false →
    deviceDisconnected s = { s with
      disconnected := true
      cmdQ := s.cmdQ.takeWhile isErrorItem ++ .disconn :: s.cmdQ.dropWhile isErrorItem }) ∧
  (∀ s : State, s.disconnected = true → deviceDisconnected s = s) ∧
  (∀ (s : State) (q : List CmdItem), s.dispatcherAt = .idle → s.cmdQ = .disconn :: q →
    (s.workerAlive = true → agentStep .dispatcher s =
      .next { s with cmdQ := q, runFlag := false, dispatcherAt := .joining .disconn }) ∧
    (s.workerAlive = false → agentStep .dispatcher s =
      .next { s with
        cmdQ := q
        mode := if s.loaded then .stop else s.mode
        running := false
        recEntered := false
        evtQ := s.evtQ ++ [.deviceDisconnected] })) ∧
  (∀ s : State, s.dispatcherAt = .joining .disconn → s.workerAlive = false → agentStep .dispatcher s =
      .next { s with
        dispatcherAt := .idle
        mode := if s.loaded then .stop else s.mode
        running := false
        recEntered := false
        evtQ := s.evtQ ++ [.deviceDisconnected] })

/-- R344: while the device is gated, no command byte arrives, no chunk moves (a RECORD worker accepts none, in its hold or at the
top of its loop), frames are discarded and no start command has an effect, while events are still appended and STOP and the
queries still execute. R309: no turn of any agent starts a worker or enters a running mode. That this holds of a start command
that was in its join when the flag was set is log entry 21. -/
def Obligations.DeviceGateClosesThePorts : Prop :=
  ∀ s : State, s.devError = true ∨ s.disconnected = true →
    agentStep .receiver s = .next s ∧
    (∀ rest, s.host = .takeChunk :: rest → agentStep .host s = .next s) ∧
    (s.workerAlive = true → s.workerAt = .offerHold → s.writerAlive = true → s.runFlag = true →
      agentStep .worker s = .next s) ∧
    (s.workerAlive = true → s.loaded = true → s.workerMode = .record → s.workerAt = .top → s.writerAlive = true →
      s.runFlag = true → agentStep .worker s = .next { drawUpdate s with workerAt := .offerHold }) ∧
    (∀ kind value : Byte, send kind value s = s) ∧
    (∀ (i : Instr) (m : Mode), startTarget i = some m → exec i s = .next s) ∧
    (∀ e : Event, notify e s = { s with evtQ := s.evtQ ++ [e] }) ∧
    exec .status s = .next s ∧ exec .sensor s = .next s ∧
    (s.workerAlive = false → exec .stop s = .next { s with
      mode := if s.loaded then .stop else s.mode, running := false, recEntered := false }) ∧
    (∀ (a : Agent) (t : State), agentStep a s = .next t →
      (s.workerAlive = false → t.workerAlive = false) ∧ (t.mode ≠ s.mode → isRunningMode t.mode = false))

/-- R381: no step but the host's reset clears `devError` or `disconnected`. -/
def Obligations.OnlyResetClearsDeviceFlags : Prop :=
  ∀ s t : State, step s = .next t → ¬ isResetTurn s →
    (s.devError = true → t.devError = true) ∧ (s.disconnected = true → t.disconnected = true)

/-! ### The status and configuration surface -/

/-- R64, R94, R396: the surface. A status read is requested in one turn of the host and answered in a later one, with one of the
values the field has held in between (every step adds the value the field holds then, and nothing else); t, pos and totalBits
fault with no tape loaded. A write of a configuration flag changes that flag only, so neither the host rate nor the session's
strategy. A command issued goes to the tail of `cmdQ`, and a listener is registered. R96, R98, R99, R178, R308, R365, R392, R395:
the host's other actions. A byte goes to the tail of the command port and an insertion to the tail of `cmdQ`; frames and events
are consumed in order; one chunk of CHUNK_BYTES bytes is offered at a time, and one of another size is refused; the outbound chunk
is not taken while there is none; the image store is the host's while no tape is loaded, and refused while one is; and an error is
raised. That a read takes two turns is log entry 8, that events wait for the registration is log entry 17, the script and the
pending offer are log entry 10, that frames are consumed and issued commands reach `cmdQ` while the device is gated is log entry
11, and the refusals and the fault outside the file are log entries 14 and 20. -/
def Obligations.SurfaceReadsAndWrites : Prop :=
  (∀ s : State, statusValue .mode s = some (.mode s.mode) ∧ statusValue .sensor s = some (.byte (sensor s)) ∧
    (s.loaded = true → statusValue .sampleRate s = some (.number s.t) ∧ statusValue .position s = some (.number s.pos) ∧
      statusValue .totalBits s = some (.number s.totalBits)) ∧
    (s.loaded = false → ∀ a, a = .sampleRate ∨ a = .position ∨ a = .totalBits → statusValue a s = none)) ∧
  (∀ (s : State) (a : StatusAccess) (rest : List HostAction), s.host = .readStatus a :: rest → s.statusRead = none →
    (∀ v, statusValue a s = some v → agentStep .host s = .next { s with statusRead := some ⟨a, [v]⟩ }) ∧
    (statusValue a s = none → agentStep .host s = .fault .noTape)) ∧
  (∀ (s : State) (a : StatusAccess) (rest : List HostAction) (q : StatusRead), s.host = .readStatus a :: rest →
    s.statusRead = some q → q.seen ≠ [] →
    ∃ v ∈ q.seen, agentStep .host s = .next { s with
      statusRead := none, draws := s.draws + 1, host := rest, hostLog := s.hostLog ++ [.status q.access v] }) ∧
  (∀ (s : State) (q : StatusRead), s.statusRead = some q →
    ∃ seen, observe s = { s with statusRead := some ⟨q.access, seen⟩ } ∧
      ∀ v, v ∈ seen ↔ v ∈ q.seen ∨ statusValue q.access s = some v) ∧
  (∀ s : State, s.statusRead = none → observe s = s) ∧
  (∀ (s : State) (v : Bool) (rest : List HostAction), s.host = .setAltRate v :: rest →
    agentStep .host s = .next { s with altRate := v, host := rest }) ∧
  (∀ (s : State) (v : Bool) (rest : List HostAction), s.host = .setRecConv v :: rest →
    agentStep .host s = .next { s with recConv := v, host := rest }) ∧
  (∀ (s : State) (b : Byte) (rest : List HostAction), s.host = .issue b :: rest →
    agentStep .host s = .next { s with cmdQ := s.cmdQ ++ [.byte b], host := rest }) ∧
  (∀ (s : State) (rest : List HostAction), s.host = .listen :: rest →
    agentStep .host s = .next { s with listener := true, host := rest }) ∧
  (∀ (s : State) (e : Event) (q : List Event) (rest : List HostAction), s.host = .takeEvent :: rest → s.evtQ = e :: q →
    agentStep .host s = .next (if s.listener then
      { s with evtQ := q, host := rest, hostLog := s.hostLog ++ [.event e] } else s)) ∧
  (∀ (s : State) (b : Byte) (rest : List HostAction), s.host = .pushPort b :: rest →
    agentStep .host s = .next { s with cmdPort := s.cmdPort ++ [b], host := rest }) ∧
  (∀ (s : State) (bytes : List Byte) (readOnly : Bool) (rest : List HostAction), s.host = .insert bytes readOnly :: rest →
    agentStep .host s = .next { s with cmdQ := s.cmdQ ++ [.insert bytes readOnly], host := rest }) ∧
  (∀ (s : State) (f : Frame) (q : List Frame) (rest : List HostAction), s.host = .takeFrame :: rest → s.rspQ = f :: q →
    agentStep .host s = .next { s with rspQ := q, host := rest, hostLog := s.hostLog ++ [.frame f] }) ∧
  (∀ (s : State) (rest : List HostAction),
    (s.host = .takeFrame :: rest ∧ s.rspQ = []) ∨ (s.host = .takeEvent :: rest ∧ s.evtQ = []) ∨
      (s.host = .takeChunk :: rest ∧ (s.outValid = false ∨ s.mode ≠ .play)) →
    agentStep .host s = .next s) ∧
  (∀ (s : State) (bytes : List Byte) (rest : List HostAction), s.host = .offerChunk bytes :: rest →
    (bytes.length = s.params.chunkBytes → s.offer = none →
      agentStep .host s = .next { s with offer := some bytes, host := rest }) ∧
    (bytes.length = s.params.chunkBytes → s.offer ≠ none → agentStep .host s = .next s) ∧
    (bytes.length ≠ s.params.chunkBytes → agentStep .host s = .refused .chunkSize)) ∧
  (∀ (s : State) (a : Nat) (rest : List HostAction), s.host = .readImage a :: rest →
    (s.loaded = true → agentStep .host s = .refused .imageOwned) ∧
    (s.loaded = false → a < s.fileSize → agentStep .host s =
      .next { s with host := rest, hostLog := s.hostLog ++ [.imageByte a (Memory.get s.img a)] }) ∧
    (s.loaded = false → s.fileSize ≤ a → agentStep .host s = .fault .addressOutside)) ∧
  (∀ (s : State) (a : Nat) (v : Byte) (rest : List HostAction), s.host = .writeImage a v :: rest →
    (s.loaded = true → agentStep .host s = .refused .imageOwned) ∧
    (MemInv s → s.loaded = false → a < s.fileSize → ∃ t : State, agentStep .host s = .next t ∧
      t = { s with host := rest, img := t.img } ∧
      ∀ x, Memory.get t.img x = if x = a then v else Memory.get s.img x) ∧
    (s.loaded = false → s.fileSize ≤ a → agentStep .host s = .fault .addressOutside)) ∧
  (∀ (s : State) (rest : List HostAction), s.host = .deviceError :: rest →
    agentStep .host s = .next (deviceError { s with host := rest })) ∧
  (∀ (s : State) (rest : List HostAction), s.host = .deviceDisconnected :: rest →
    agentStep .host s = .next (deviceDisconnected { s with host := rest }))

/-! ### Image open and insertion -/

/-- R170 to R173, R340: the checks of `open` in their order and the fields of the header. `rate` is the little-endian field of
the variant that the first four bytes and the size decide. -/
def Obligations.HeaderParsesAsSpecified : Prop :=
  ∀ (p : Params) (bytes : List Byte) (readOnly : Bool),
    (bytes.length < 4 → parseHeader p bytes readOnly = .error .badHeader) ∧
    (40 ≤ bytes.length → bytes.take 4 = p.modernMagic →
      let rate := imageField bytes 28
      let total := (bytes.length - 40) * 8
      ((rate < 8000 ∨ 48000 < rate) → parseHeader p bytes readOnly = .error .badRate) ∧
      (8000 ≤ rate → rate ≤ 48000 → 2 ^ 32 - 1 < total → parseHeader p bytes readOnly = .error .tooLarge) ∧
      (8000 ≤ rate → rate ≤ 48000 → total ≤ 2 ^ 32 - 1 →
        parseHeader p bytes readOnly =
          .ok ⟨.modern, rate, total, min (imageField bytes 36) total, bytes.getD 26 0 == 0x10⟩)) ∧
    (4 ≤ bytes.length → (bytes.length < 40 ∨ bytes.take 4 ≠ p.modernMagic) →
      let rate := imageField bytes 0
      let total := (bytes.length - 4) * 8
      ((rate < 8000 ∨ 48000 < rate) → parseHeader p bytes readOnly = .error .badRate) ∧
      (8000 ≤ rate → rate ≤ 48000 → p.posMax < total → parseHeader p bytes readOnly = .error .tooLarge) ∧
      (8000 ≤ rate → rate ≤ 48000 → total ≤ p.posMax →
        parseHeader p bytes readOnly = .ok ⟨.legacy, rate, total, 0, readOnly⟩)) ∧
    (∀ i, i + 3 < bytes.length → imageField bytes i =
      (bytes.getD i 0).toNat + 256 * (bytes.getD (i + 1) 0).toNat + 65536 * (bytes.getD (i + 2) 0).toNat +
        16777216 * (bytes.getD (i + 3) 0).toNat)

/-- R172, R175, R178: with no tape loaded, an image that opens gives mode STOP, the class of its rate, the two frames and the
host's OK; the image store holds the file, and the tape and its cursor are as the invariant says. With a tape loaded, a running
worker is joined first; with no worker the insertion is EJECT and then the same insertion. When the join ends, the insertion goes
on as one taken from `cmdQ` with no worker alive. A rate whose class RATE_CLASS_OTHER leaves open refuses the run (R347, log entry
15). The points of the join are log entry 5. -/
def Obligations.InsertionEntersStop : Prop :=
  (∀ (s : State) (bytes : List Byte) (readOnly : Bool) (q : List CmdItem) (hd : Header) (c : RateClass),
    s.dispatcherAt = .idle → s.cmdQ = .insert bytes readOnly :: q → s.loaded = false →
    parseHeader s.params bytes readOnly = .ok hd → rateClassOf s.params hd.rate s.altRate = some c →
    ∃ t : State, agentStep .dispatcher s = .next t ∧
      t = { s with
        cmdQ := q
        img := t.img
        fileSize := bytes.length
        loaded := true
        variant := hd.variant
        t := hd.rate
        totalBits := hd.totalBits
        pos := hd.start
        protect := hd.protect
        readOnly := readOnly
        cacheIdx := if hd.start < hd.totalBits then some (hd.start / 8) else none
        cacheByte := t.cacheByte
        dirty := false
        mode := .stop
        running := false
        rateClass := c
        rspQ := sentFrames s [
          sensorFrame { s with loaded := true, protect := hd.protect, running := false },
          ⟨s.params.kindSampleRateChange, rateClassCode s.params c⟩]
        hostLog := s.hostLog ++ [.inserted none] } ∧
      (∀ i : Nat, Memory.get t.img i = bytes.getD i 0) ∧ MemInv t ∧ TapeInv t) ∧
  (∀ (s : State) (bytes : List Byte) (readOnly : Bool) (q : List CmdItem),
    s.dispatcherAt = .idle → s.cmdQ = .insert bytes readOnly :: q → s.loaded = true → s.mode ≠ .eject →
    (s.workerAlive = true → agentStep .dispatcher s =
      .next { s with cmdQ := q, runFlag := false, dispatcherAt := .joining (.insert bytes readOnly) }) ∧
    (s.workerAlive = false → ∀ u : State, exec .eject { s with cmdQ := q } = .next u →
      agentStep .dispatcher s = agentStep .dispatcher { u with cmdQ := .insert bytes readOnly :: q })) ∧
  (∀ (s : State) (bytes : List Byte) (readOnly : Bool),
    s.dispatcherAt = .joining (.insert bytes readOnly) → s.workerAlive = false →
    agentStep .dispatcher s =
      agentStep .dispatcher { s with dispatcherAt := .idle, cmdQ := .insert bytes readOnly :: s.cmdQ }) ∧
  (∀ (s : State) (bytes : List Byte) (readOnly : Bool) (q : List CmdItem) (hd : Header),
    s.dispatcherAt = .idle → s.cmdQ = .insert bytes readOnly :: q → s.loaded = false →
    parseHeader s.params bytes readOnly = .ok hd → rateClassOf s.params hd.rate s.altRate = none →
    agentStep .dispatcher s = .refused .rateClassOpen)

/-- R170, R174: an image that does not open, with no tape loaded, changes no state: the host gets the code. R174 says so of the
state of 10_state.md; that the image file too stays as it was is the model's reading (log entry 20). -/
def Obligations.FailedOpenChangesNothing : Prop :=
  ∀ (s : State) (bytes : List Byte) (readOnly : Bool) (q : List CmdItem) (code : OpenCode),
    s.dispatcherAt = .idle → s.cmdQ = .insert bytes readOnly :: q → s.loaded = false →
    parseHeader s.params bytes readOnly = .error code →
    agentStep .dispatcher s = .next { s with cmdQ := q, hostLog := s.hostLog ++ [.inserted (some code)] }

/-- R9, R284: the class of a tape rate and the host rate of a class. -/
def Obligations.RateClassMap : Prop :=
  (∀ (p : Params) (alt : Bool),
    rateClassOf p 48000 alt = some .c48k ∧
    rateClassOf p 44100 alt = some (if alt then .c44k1alt else .c44k1) ∧
    rateClassOf p 32000 alt = some .c32k) ∧
  (∀ (p : Params) (t : Nat) (alt : Bool), t ≠ 48000 → t ≠ 44100 → t ≠ 32000 →
    rateClassOf p t alt = rateClassOther p t alt) ∧
  (∀ p : Params, hostRateOf p .c48k = 48000 ∧ hostRateOf p .c44k1 = 44100 ∧ hostRateOf p .c32k = 32000 ∧
    hostRateOf p .c44k1alt = p.hostRateAlt)

/-! ### The bit cursor -/

/-- R163: on an open tape, N forward steps that all return OK followed by N backward steps restore the position, and no
sample is lost. -/
def Obligations.ForwardThenBackwardReturns : Prop :=
  ∀ (s s1 : State) (m : Nat), MemInv s → TapeInv s → s.loaded = true → forwardSteps m s = .ok (true, s1) →
    ∃ s2 : State, backwardSteps m s1 = .ok s2 ∧ s2.pos = s.pos ∧ SameSamples s s2

/-- R159, R164: a written sample is read back at once, no other sample changes, and the image store does not change. -/
def Obligations.StagedWriteIsSeenAtOnce : Prop :=
  ∀ (s : State) (v : Bit), TapeInv s → s.loaded = true → s.pos < s.totalBits →
    ∃ t : State, writeSample v s = .ok t ∧ readSample t = .ok v ∧ t.img = s.img ∧ t.pos = s.pos ∧ t.dirty = true ∧
      ∀ i, tapeSample t i = if i = s.pos then v else tapeSample s i

/-- R152, R155: on an open tape a move to any position answers, flushes the staged byte exactly when the byte index changes,
and changes no sample. -/
def Obligations.CursorMoveFlushesOnByteChange : Prop :=
  ∀ (s : State) (p : Nat), MemInv s → TapeInv s → s.loaded = true → p ≤ s.totalBits →
    ∃ t : State, moveTo p s = .ok t ∧ CursorOnly s t ∧ t.pos = p ∧ SameSamples s t ∧ MemInv t ∧ TapeInv t ∧
      (cacheIdxAt p s = s.cacheIdx → t.img = s.img ∧ t.dirty = s.dirty) ∧
      (cacheIdxAt p s ≠ s.cacheIdx → t.dirty = false ∧
        ∀ a, Memory.get t.img a =
          if s.dirty = true ∧ a = hdr s + s.pos / 8 then s.cacheByte else Memory.get s.img a)

/-- R153, R160, R161: steps and seeks at the ends of an open tape. A step past an end changes nothing and returns BOUNDARY,
every other step is a move by one sample and returns OK, a seek past the end goes to the end and returns BOUNDARY, and every
other seek is a move and returns OK; at the end of the tape no byte is cached. -/
def Obligations.CursorEndsClamp : Prop :=
  ∀ s : State, MemInv s → TapeInv s → s.loaded = true →
    (s.pos = s.totalBits → stepForward s = .ok (.boundary, s)) ∧
    (s.pos < s.totalBits → ∃ t, stepForward s = .ok (.ok, t) ∧ moveTo (s.pos + 1) s = .ok t ∧ t.pos = s.pos + 1) ∧
    (s.pos = 0 → stepBackward s = .ok (.boundary, s)) ∧
    (0 < s.pos → ∃ t, stepBackward s = .ok (.ok, t) ∧ moveTo (s.pos - 1) s = .ok t ∧ t.pos = s.pos - 1) ∧
    (∀ b, s.totalBits < b → ∃ t, seek b s = .ok (.boundary, t) ∧ moveTo s.totalBits s = .ok t ∧ t.pos = s.totalBits ∧
      t.cacheIdx = none) ∧
    (∀ b, b ≤ s.totalBits → ∃ t, seek b s = .ok (.ok, t) ∧ moveTo b s = .ok t ∧ t.pos = b ∧
      (b = s.totalBits → t.cacheIdx = none))

/-! ### Playback -/

/-- R195: from `start_play`, host bit k of a playback is tape sample p0 + j_k with j_k = max(0, ceil((k t - a0) / h)), for as
long as that sample is on the tape; then the end of the tape is reported; and no sample changes. -/
def Obligations.PlaybackSelectsSamples : Prop :=
  ∀ (s : State) (m : Nat), s.params.wf = true → MemInv s → TapeInv s → s.loaded = true →
    ∃ (bits : List Bit) (eot : Bool) (t : State), fillBits m (startPlay s) = .ok (bits, eot, t) ∧
      (∀ k, k < bits.length →
        s.pos + selectedSample s.t (hostRate s) k < s.totalBits ∧
        bits[k]? = some (tapeSample s (s.pos + selectedSample s.t (hostRate s) k))) ∧
      (eot = false → bits.length = m) ∧
      (eot = true → bits.length < m ∧ s.totalBits ≤ s.pos + selectedSample s.t (hostRate s) bits.length) ∧
      t.pos = min s.totalBits (s.pos + selectedSample s.t (hostRate s) bits.length) ∧ SameSamples s t

/-- R193: two calls of `fillOutput` give the same bytes and leave the same state as one call for both, when the first does not
reach the end of the tape. -/
def Obligations.FillOutputSplits : Prop :=
  ∀ (s s1 s2 : State) (r1 r2 : Nat) (o1 o2 : List Byte) (eot : Bool),
    fillOutput r1 s = .ok (o1, false, s1) → fillOutput r2 s1 = .ok (o2, eot, s2) →
    fillOutput (r1 + r2) s = .ok (o1 ++ o2, eot, s2)

/-- R195, L1.5: at equal rates a playback from a byte boundary reproduces the tape's bytes. -/
def Obligations.PassthroughReproducesBytes : Prop :=
  ∀ (s : State) (r : Nat), s.params.wf = true → MemInv s → TapeInv s → s.loaded = true → s.dirty = false →
    s.t = hostRate s → s.pos % 8 = 0 → s.pos + 8 * r ≤ s.totalBits →
    ∃ t : State, fillOutput r (startPlay s) =
        .ok ((List.range r).map (fun i => Memory.get s.img (hdr s + s.pos / 8 + i)), false, t) ∧
      t.pos = s.pos + 8 * r

/-- R192, R197, R198: at the end of the tape `fillOutput` gives no byte and reports it, and the PLAY worker then exits with
self = true and offers no chunk. That the iteration and the exit are one step is log entry 5. -/
def Obligations.PlaybackEndsAtTapeEnd : Prop :=
  ∀ s : State, s.pos = s.totalBits → 0 < s.params.chunkBytes →
    (∀ r, 0 < r → fillOutput r s = .ok ([], true, s)) ∧
    (s.loaded = true → s.workerAlive = true → s.workerMode = .play → s.workerAt = .top → s.runFlag = true →
      agentStep .worker s = .next (workerExit true (drawUpdate s)))

/-- R84, R192, R197: byte j of what `fillOutput` gives holds host bits 8j to 8j + 7, most significant first, and 0 past the last
bit, in as many bytes as the bits fill or begin. R97, R198: a PLAY iteration with a sample left puts the bytes of `fillOutput`, of
which there is at least one, in the outbound chunk and holds. The host takes the chunk, which is withdrawn from the port, and the
worker's hold ends: it exits if the chunk was the last, and otherwise goes on. That the end of the hold and the exit are one step
is log entry 5. -/
def Obligations.OutboundChunkHandshake : Prop :=
  (∀ (s u : State) (r : Nat) (bits : List Bit) (eot : Bool), fillBits (8 * r) s = .ok (bits, eot, u) →
    ∃ bytes : List Byte, fillOutput r s = .ok (bytes, eot, u) ∧ bytes.length = (bits.length + 7) / 8 ∧
      ∀ j k, j < bytes.length → k < 8 →
        (bytes[j]?).map (fun b => b.getLsbD (7 - k)) = some (bits.getD (8 * j + k) false)) ∧
  (∀ s : State, s.params.wf = true → MemInv s → TapeInv s → s.loaded = true → s.workerAlive = true →
    s.workerMode = .play → s.workerAt = .top → s.runFlag = true → s.pos < s.totalBits →
    ∃ (bytes : List Byte) (eot : Bool) (u : State),
      fillOutput s.params.chunkBytes (drawUpdate s) = .ok (bytes, eot, u) ∧
      bytes ≠ [] ∧ bytes.length ≤ s.params.chunkBytes ∧ (eot = false → bytes.length = s.params.chunkBytes) ∧
      DatapathOnly (drawUpdate s) u ∧ SameSamples s u ∧
      agentStep .worker s = .next { u with outChunk := bytes, outValid := true, workerAt := .takeHold eot }) ∧
  ∀ (s : State) (rest : List HostAction) (eot : Bool), s.mode = .play → s.outValid = true →
    s.devError = false → s.disconnected = false → s.host = .takeChunk :: rest →
    agentStep .host s =
      .next { s with host := rest, outValid := false, hostLog := s.hostLog ++ [.chunk s.outChunk] } ∧
    (s.workerAlive = true → s.loaded = true → s.workerAt = .takeHold eot → s.runFlag = true →
      agentStep .worker s = .next s ∧
      agentStep .worker { s with outValid := false } =
        .next (if eot then workerExit true { s with outValid := false }
               else { s with outValid := false, workerAt := .top }))

/-! ### Recording -/

/-- R229, R230, R304: the RECORD worker's iteration, from the top of its loop (after the UPDATE draw) or from its hold. Cancelled, it
leaves with self = false; with its writer ended it exits with self = true; it accepts an offered chunk into the free slot while
the device is not gated (R344), and otherwise it holds. That an iteration and the exit are one step is log entry 5. -/
def Obligations.RecordWorkerIteration : Prop :=
  ∀ s u : State, s.loaded = true → s.workerAlive = true → s.workerMode = .record →
    (s.workerAt = .top ∧ u = drawUpdate s) ∨ (s.workerAt = .offerHold ∧ u = s) →
    (s.runFlag = false → agentStep .worker s = .next (workerExit false s)) ∧
    (s.runFlag = true → s.writerAlive = false → agentStep .worker s = .next (workerExit true u)) ∧
    (s.runFlag = true → s.writerAlive = true → s.slotFull = false → s.devError = false → s.disconnected = false →
      ∀ chunk, s.offer = some chunk → agentStep .worker s =
        .next { u with slotData := chunk, slotFull := true, offer := none, workerAt := .top }) ∧
    (s.runFlag = true → s.writerAlive = true →
      s.slotFull = true ∨ s.offer = none ∨ s.devError = true ∨ s.disconnected = true →
      agentStep .worker s = .next { u with workerAt := .offerHold })

/-- R213: on an open tape that is not inhibited, `tapeWrite` writes one sample and moves on; at the tape end it marks the
session ended and writes nothing; in an ended session it does nothing. -/
def Obligations.TapeWriteStoresOneSample : Prop :=
  ∀ (s : State) (v : Bit),
    (s.ended = true → tapeWrite v s = .ok s) ∧
    (s.ended = false → s.totalBits ≤ s.pos → tapeWrite v s = .ok { s with ended := true }) ∧
    (MemInv s → TapeInv s → s.loaded = true → s.ended = false → s.pos < s.totalBits →
      (s.protect = false ∧ s.readOnly = false) ∨ s.params.recProtectPolicy ≠ .inhibit →
      ∃ t, tapeWrite v s = .ok t ∧ CursorOnly s t ∧ t.pos = s.pos + 1 ∧
        ∀ i, tapeSample t i = if i = s.pos then v else tapeSample s i)

/-- R128, R216: with room on the tape, `writeSymbol(b)` writes L high samples and then L low ones, L = D (b + 1), and no other
sample changes. -/
def Obligations.WriteSymbolIsTheCanonicalWaveform : Prop :=
  ∀ (s : State) (b : Bit), MemInv s → TapeInv s → s.loaded = true → s.ended = false →
    (s.protect = false ∧ s.readOnly = false) ∨ s.params.recProtectPolicy ≠ .inhibit →
    let half := (s.t + 4000) / 8000 * (b.toNat + 1)
    s.pos + 2 * half ≤ s.totalBits →
    ∃ t, writeSymbol b s = .ok t ∧ CursorOnly s t ∧ t.pos = s.pos + 2 * half ∧
      ∀ i, tapeSample t i =
        if s.pos ≤ i ∧ i < s.pos + half then true
        else if s.pos + half ≤ i ∧ i < s.pos + 2 * half then false
        else tapeSample s i

/-- R227: with t = h the RAW strategy writes the inverted host bits one for one. -/
def Obligations.RawAtEqualRatesInverts : Prop :=
  ∀ (s : State) (xs : List Bit), s.params.wf = true → MemInv s → TapeInv s → s.loaded = true →
    (s.protect = false ∧ s.readOnly = false) ∨ s.params.recProtectPolicy ≠ .inhibit →
    s.t = hostRate s → s.recConv = false → 32000 ≤ s.t → s.pos + xs.length ≤ s.totalBits →
    ∃ t, recordBits xs (startWrite s) = .ok t ∧ t.ended = false ∧ t.pos = s.pos + xs.length ∧
      (∀ i, i < xs.length → some (tapeSample t (s.pos + i)) = (xs[i]?).map not) ∧
      (∀ i, i < s.pos ∨ s.pos + xs.length ≤ i → tapeSample t i = tapeSample s i)

/-- R222: with t = h and D ≤ S ≤ 2D - 1 and 4D - 1 - S ≤ G, the EDGE strategy applied to the inverted encoding of logical bits
writes exactly their symbols, in order; and the conditions hold at 48000, 44100 and 32000. R217, R219: in SCAN, a bit that makes no
rising edge is counted; a rising edge after at most G counted bits writes nothing; one after more than G writes (n t) div h low
samples, as many as the tape has room for; and either edge goes to ADVANCE with k = 0 and n = 0. R218: in ADVANCE, a host bit that
is not the S-th after the edge, S = (3 h) div 16000, is counted in k alone; the S-th is the sample point: the symbol of its value is
written, as many samples as the tape has room for, and the decoder goes to SCAN with that value in prev and n = 0. -/
def Obligations.EdgeDecoderRoundTrip : Prop :=
  (∀ (s : State) (bits : List Bit), MemInv s → TapeInv s → s.loaded = true →
    (s.protect = false ∧ s.readOnly = false) ∨ s.params.recProtectPolicy ≠ .inhibit →
    s.t = hostRate s → s.recConv = true ∨ s.t < 32000 →
    halfCycle s.t ≤ sampleOffset s.t → sampleOffset s.t ≤ 2 * halfCycle s.t - 1 →
    4 * halfCycle s.t - 1 - sampleOffset s.t ≤ longGap s.t →
    s.pos + (fmEncode s.t bits).length ≤ s.totalBits →
    ∃ t, recordBits ((fmEncode s.t bits).map not) (startWrite s) = .ok t ∧ t.ended = false ∧
      t.pos = s.pos + (fmEncode s.t bits).length ∧
      (∀ i, i < (fmEncode s.t bits).length → some (tapeSample t (s.pos + i)) = (fmEncode s.t bits)[i]?) ∧
      (∀ i, i < s.pos ∨ s.pos + (fmEncode s.t bits).length ≤ i → tapeSample t i = tapeSample s i)) ∧
  (∀ r ∈ [48000, 44100, 32000], halfCycle r ≤ sampleOffset r ∧ sampleOffset r ≤ 2 * halfCycle r - 1 ∧
    4 * halfCycle r - 1 - sampleOffset r ≤ longGap r) ∧
  (∀ (s : State) (v : Bit), s.phase = .scan → s.prev = true ∨ v = false →
    edgeStep v s = .ok { s with n := s.n + 1, prev := v }) ∧
  (∀ s : State, s.phase = .scan → s.prev = false → s.n ≤ hostRate s / 2000 →
    edgeStep true s = .ok { s with phase := .advance, k := 0, n := 0, prev := true }) ∧
  (∀ s : State, MemInv s → TapeInv s → s.loaded = true → s.ended = false → s.phase = .scan → s.prev = false →
    hostRate s / 2000 < s.n →
    let padded := s.n * s.t / hostRate s
    ∃ u : State, edgeStep true s = .ok u ∧
      u = { s with
        img := u.img, cacheIdx := u.cacheIdx, cacheByte := u.cacheByte, dirty := u.dirty
        pos := min s.totalBits (s.pos + padded)
        ended := decide (s.totalBits < s.pos + padded)
        phase := .advance
        k := 0
        n := 0
        prev := true } ∧
      ((s.protect = false ∧ s.readOnly = false) ∨ s.params.recProtectPolicy ≠ .inhibit →
        ∀ i, tapeSample u i = if s.pos ≤ i ∧ i < u.pos then false else tapeSample s i)) ∧
  (∀ (s : State) (v : Bit), s.phase = .advance → s.k + 1 ≠ 3 * hostRate s / 16000 →
    edgeStep v s = .ok { s with k := s.k + 1 }) ∧
  (∀ (s : State) (v : Bit), MemInv s → TapeInv s → s.loaded = true → s.ended = false → s.phase = .advance →
    s.k + 1 = 3 * hostRate s / 16000 →
    let half := (s.t + 4000) / 8000 * (v.toNat + 1)
    ∃ u : State, edgeStep v s = .ok u ∧
      u = { s with
        img := u.img, cacheIdx := u.cacheIdx, cacheByte := u.cacheByte, dirty := u.dirty
        pos := min s.totalBits (s.pos + 2 * half)
        ended := decide (s.totalBits < s.pos + 2 * half)
        phase := .scan
        k := s.k + 1
        n := 0
        prev := v } ∧
      ((s.protect = false ∧ s.readOnly = false) ∨ s.params.recProtectPolicy ≠ .inhibit →
        ∀ i, tapeSample u i = if s.pos ≤ i ∧ i < u.pos then decide (i < s.pos + half) else tapeSample s i))

/-- R224: a window that closes on a tie, as one of no host bit does, commits `last` under repeatLast, the default; under keepTape
it steps over the sample and changes none, or ends the session at the tape end. Every commit opens the next window with vote 0, so a
second commit inside one host bit is a tie. R225, at any t and h: a host bit moves the vote by one and takes t from w. While w stays
at or above 0, or in an ended session, that is all. Otherwise c windows close, c the least number with w + c h at or above 0: the
first commits the majority, 1 for a positive and 0 for a negative vote of any size, and the others are ties; past the tape end the
session ends, with no window closed after the one that finds it. R223: after N host bits from `start_write` the windows closed are
those m with floor((h div 2 + (m - 1) h) / t) + 1 ≤ N. -/
def Obligations.TieFollowsTheTieRule : Prop :=
  (State.reset.params.tieRule = .repeatLast ∧
  ∀ s : State, s.vote = 0 →
    (s.params.tieRule = .repeatLast → rawCommit s = tapeWrite s.last s) ∧
    (s.params.tieRule = .keepTape →
      (s.totalBits ≤ s.pos → rawCommit s = .ok { s with ended := true }) ∧
      (MemInv s → TapeInv s → s.loaded = true → s.pos < s.totalBits →
        ∃ t, rawCommit s = .ok t ∧ CursorOnly s t ∧ t.pos = s.pos + 1 ∧ SameSamples s t)) ∧
    ∀ (u v : State) (fuel : Nat), u.w < 0 → u.ended = false → rawCommit u = .ok v →
      rawLoop (fuel + 1) u = rawLoop fuel { v with vote := 0, w := u.w + (hostRate u : Int) }) ∧
  (∀ (s : State) (v : Bit), s.ended = true ∨ (s.t : Int) ≤ s.w →
    rawStep v s = .ok { s with vote := s.vote + (if v then 1 else -1), w := s.w - (s.t : Int) }) ∧
  (∀ (s : State) (v : Bit) (c : Nat), MemInv s → TapeInv s → s.loaded = true → s.ended = false → 0 < c →
    s.w - (s.t : Int) + ((c : Int) - 1) * (hostRate s : Int) < 0 → 0 ≤ s.w - (s.t : Int) + (c : Int) * (hostRate s : Int) →
    let vote : Int := s.vote + (if v then 1 else -1)
    let b : Bit := if vote = 0 then s.last else decide (0 < vote)
    let closed := min c (s.totalBits - s.pos + 1)
    ∃ u : State, rawStep v s = .ok u ∧
      u = { s with
        img := u.img, cacheIdx := u.cacheIdx, cacheByte := u.cacheByte, dirty := u.dirty
        pos := min s.totalBits (s.pos + c)
        ended := decide (s.totalBits < s.pos + c)
        w := s.w - (s.t : Int) + (closed : Int) * (hostRate s : Int)
        vote := 0
        last := b } ∧
      ((s.protect = false ∧ s.readOnly = false) ∨ s.params.recProtectPolicy ≠ .inhibit →
        ∀ i, tapeSample u i =
          if s.pos ≤ i ∧ i < u.pos ∧ (s.params.tieRule = .repeatLast ∨ (vote ≠ 0 ∧ i = s.pos)) then b
          else tapeSample s i)) ∧
  (∀ (s : State) (xs : List Bit) (m : Nat), s.params.wf = true → MemInv s → TapeInv s → s.loaded = true →
    s.recConv = false → 32000 ≤ s.t → s.pos + m ≤ s.totalBits →
    (∀ k, k < m ↔ (hostRate s / 2 + k * hostRate s) / s.t + 1 ≤ xs.length) →
    ∃ u, recordBits xs (startWrite s) = .ok u ∧ u.ended = false ∧ u.pos = s.pos + m ∧
      ∀ i, i < s.pos ∨ s.pos + m ≤ i → tapeSample u i = tapeSample s i)

/-- R84, R131, R211, R212: with a host bit left in the scratch chunk, the writer's turn is one step of the session's strategy on
bit 7 - (spos mod 8) of byte spos div 8, inverted, with spos moved on; if the session has ended, the turn goes on with
`writer_exit`; and on an open tape it answers. R95, R212: the writer takes the chunk in the slot before it honours cancellation,
and with neither it holds. R220, R228, R232: with no host bit left, an empty slot and a cancelled session, EDGE pads the host bits
since the last sample point, rescaled, with low samples, as many as the tape has room for; RAW writes nothing; then the writer
exits: the session has ended, nothing is staged and every sample stands in the image store. On an inhibited tape the cursor only
steps (R231, log entry 18). That the taking of a chunk, the clearing of sValid before a hold, one host bit with its exit, and the
cancelled end are each one turn of the writer is the model's reading (log entry 9). -/
def Obligations.BufferedChunkGoesBeforeCancellation : Prop :=
  (∀ s : State, s.writerAlive = true → s.loaded = true → s.sValid = true → s.spos < 8 * s.params.chunkBytes →
    s.scr.length = s.params.chunkBytes →
    let bit : Bit := (s.scr.getD (s.spos / 8) 0).getLsbD (7 - s.spos % 8)
    let r := recStep (!bit) { s with spos := s.spos + 1 }
    (∀ e, r = .error e → agentStep .writer s = .fault e) ∧
    (∀ u, r = .ok u → u.ended = false → agentStep .writer s = .next u) ∧
    (∀ u x, r = .ok u → u.ended = true → flush u = .ok x →
      agentStep .writer s = .next { x with sValid := false, writerAlive := false }) ∧
    (s.params.wf = true → MemInv s → TapeInv s → s.ended = false →
      ∃ u x, r = .ok u ∧ DatapathOnly { s with spos := s.spos + 1 } u ∧ flush u = .ok x)) ∧
  ∀ s : State, s.writerAlive = true → s.loaded = true → (s.sValid = false ∨ 8 * s.params.chunkBytes ≤ s.spos) →
    (s.slotFull = true → agentStep .writer s =
      .next { s with scr := s.slotData, spos := 0, sValid := true, slotFull := false }) ∧
    (s.slotFull = false → s.runFlag = true → agentStep .writer s = .next { s with sValid := false }) ∧
    (s.slotFull = false → s.runFlag = false → MemInv s → TapeInv s → s.ended = false →
      let hostBits := if s.phase = .scan then s.n else s.k + 1
      let padded := if s.recStrategy = .edge then hostBits * s.t / hostRate s else 0
      ∃ u : State, agentStep .writer s = .next u ∧
        u = { s with
          img := u.img, cacheIdx := u.cacheIdx, cacheByte := u.cacheByte
          pos := min s.totalBits (s.pos + padded)
          dirty := false
          ended := true
          sValid := false
          writerAlive := false } ∧
        ((s.protect = false ∧ s.readOnly = false) ∨ s.params.recProtectPolicy ≠ .inhibit →
          ∀ i, tapeSample u i = if s.pos ≤ i ∧ i < u.pos then false else tapeSample s i) ∧
        ((s.protect = true ∨ s.readOnly = true) → s.params.recProtectPolicy = .inhibit → SameSamples s u) ∧
        ∀ i, i < s.totalBits → byteBit (Memory.get u.img (hdr s + i / 8)) (i % 8) = tapeSample u i)

/-- R95, R391: no step overwrites a chunk that the writer has not taken. -/
def Obligations.SlotIsNeverOverwritten : Prop :=
  ∀ s t : State, step s = .next t → s.slotFull = true → t.slotFull = true → t.slotData = s.slotData

/-- R232: after the writer's exit nothing is staged: every sample stands in the image store. -/
def Obligations.WriterExitFlushes : Prop :=
  ∀ s : State, MemInv s → TapeInv s → s.loaded = true →
    ∃ t, writerExit s = .ok t ∧ t = { s with img := t.img, dirty := false, sValid := false, writerAlive := false } ∧
      ∀ i, i < s.totalBits → byteBit (Memory.get t.img (hdr s + i / 8)) (i % 8) = tapeSample s i

/-- R233: REC and then STOP with no chunk delivered writes no sample, under both strategies and whichever of the worker and the
writer moves first, and sends exactly one stop acknowledgement. The turns counted here are the model's (log entries 5 and 9). -/
def Obligations.EmptySessionWritesNothing : Prop :=
  ∀ s : State, MemInv s → TapeInv s → CtrlInv s → s.loaded = true → s.mode = .stop → s.dispatcherAt = .idle →
    s.devError = false → s.disconnected = false →
    (s.protect = false ∧ s.readOnly = false) ∨ s.params.recProtectPolicy ≠ .refuse →
    ∃ s1 s2, exec .record s = .next s1 ∧ exec .stop s1 = .next s2 ∧
      ∀ order, order = [.writer, .worker, .dispatcher] ∨ order = [.worker, .writer, .worker, .dispatcher] →
        ∃ t, runTurns order s2 = .next t ∧ t.pos = s.pos ∧ SameSamples s t ∧ (s.dirty = false → t.img = s.img) ∧
          t.mode = .stop ∧ t.running = false ∧ t.workerAlive = false ∧ t.writerAlive = false ∧
          t.dispatcherAt = .idle ∧
          t.rspQ = s.rspQ ++ [sensorFrame { s with running := true }, sensorFrame { s with running := false },
            ackFrame s]

/-- R307: STOP while a PLAY, FF, REW, AFF or AREW worker is alive: after the worker's and the dispatcher's turns RUNNING is
clear, the mode is STOP, exactly one stop acknowledgement has been sent, behind the sensor update, and no tape state changed.
STOP while a RECORD worker is alive, at the top of its loop or holding for a chunk, with whatever chunks are buffered: after the
worker's turn, enough turns of the writer, and the worker's and the dispatcher's turns it is so too, and the writer has
consumed the buffered chunks, unless the tape ended, and flushed. The turns are the model's (log entries 5 and 9). -/
def Obligations.StopEndsTheRunningMode : Prop :=
  (∀ s : State, s.loaded = true → s.workerAlive = true → isRunningMode s.workerMode = true → s.workerMode ≠ .record →
    s.workerAt = .top ∨ (∃ eot, s.workerAt = .takeHold eot) →
    ∃ s1, exec .stop s = .next s1 ∧
      runTurns [.worker, .dispatcher] s1 = .next { s with
        runFlag := false
        outValid := false
        running := false
        mode := .stop
        recEntered := false
        workerAlive := false
        workerAt := .top
        dispatcherAt := .idle
        rspQ := sentFrames s [sensorFrame { s with running := false }, ackFrame s] }) ∧
  ∀ s : State, s.params.wf = true → MemInv s → TapeInv s → PortInv s → s.loaded = true → s.workerAlive = true →
    s.workerMode = .record → s.workerAt = .top ∨ s.workerAt = .offerHold → (s.writerAlive = true → s.ended = false) →
    ∃ s1, exec .stop s = .next s1 ∧ ∃ (m : Nat) (t : State),
      runTurns (.worker :: List.replicate m .writer ++ [.worker, .dispatcher]) s1 = .next t ∧
      t.mode = .stop ∧ t.running = false ∧ t.workerAlive = false ∧ t.writerAlive = false ∧ t.recEntered = false ∧
      t.dispatcherAt = .idle ∧ t.rspQ = sentFrames s [sensorFrame { s with running := false }, ackFrame s] ∧
      (s.writerAlive = true → t.ended = true ∧ t.dirty = false ∧ (t.slotFull = false ∨ t.pos = t.totalBits))

/-! ### Fast wind and APSS -/

/-- R250, R251: one fast-wind tick on an open tape moves `(t div 1000) ms 18` samples, or to the end with BOUNDARY when that
passes it; landing on the end is OK; nothing but the cursor changes, and no sample. -/
def Obligations.SeekTickMovesAndClamps : Prop :=
  ∀ (s : State) (ms : Nat), MemInv s → TapeInv s → s.loaded = true →
    let steps := s.t / 1000 * ms * 18
    (∃ t, seekTick ms .fwd s = .ok (if s.totalBits < s.pos + steps then .boundary else .ok, t) ∧
      t.pos = min s.totalBits (s.pos + steps) ∧ CursorOnly s t ∧ SameSamples s t) ∧
    (∃ t, seekTick ms .bwd s = .ok (if s.pos < steps then .boundary else .ok, t) ∧
      t.pos = s.pos - steps ∧ CursorOnly s t ∧ SameSamples s t)

/-- R252, R253: an iteration of a FASTFORWARD or REWIND worker either moves by a whole tick and goes on, or passes the end: then
the mode is STOP at that end of the tape, with the exit frames. R258, R259: an iteration of an AUTOFASTFORWARD or AUTOREWIND
worker evaluates the samples it passes, in order, each once, and goes on after a whole tick, or exits to STOP at FOUND, or at
BOUNDARY at that end of the tape. The search stops at the first sample that sets `found`, and it is BOUNDARY only if a sample of
the tick was still to be evaluated. That the iteration and the exit are one step is log entry 5. -/
def Obligations.WindWorkerStopsAtTheEnd : Prop :=
  ∀ s : State, MemInv s → TapeInv s → s.loaded = true → s.workerAlive = true → s.workerAt = .top →
    s.runFlag = true →
    let steps := s.t / 1000 * s.params.seekTickMs * 18
    (s.workerMode = .fastForward → ∃ t, agentStep .worker s = .next t ∧ SameSamples s t ∧
      (s.pos + steps ≤ s.totalBits → t.pos = s.pos + steps ∧ t.workerAlive = true ∧ t.mode = s.mode ∧
        t.rspQ = s.rspQ) ∧
      (s.totalBits < s.pos + steps → t.pos = s.totalBits ∧ t.workerAlive = false ∧ t.mode = .stop ∧
        t.running = false ∧ t.rspQ = sentFrames s [sensorFrame { s with running := false }, ackFrame s])) ∧
    (s.workerMode = .rewind → ∃ t, agentStep .worker s = .next t ∧ SameSamples s t ∧
      (steps ≤ s.pos → t.pos = s.pos - steps ∧ t.workerAlive = true ∧ t.mode = s.mode ∧ t.rspQ = s.rspQ) ∧
      (s.pos < steps → t.pos = 0 ∧ t.workerAlive = false ∧ t.mode = .stop ∧ t.running = false ∧
        t.rspQ = sentFrames s [sensorFrame { s with running := false }, ackFrame s])) ∧
    ∀ dir : Dir, (dir = .fwd ∧ s.workerMode = .autoFastForward) ∨ (dir = .bwd ∧ s.workerMode = .autoRewind) →
      ∃ (r : ApssResult) (u : State) (m : Nat), apssTick s.params.seekTickMs dir (drawUpdate s) = .ok (r, u) ∧
        m ≤ steps ∧ (dir = .fwd → u.pos = s.pos + m) ∧ (dir = .bwd → u.pos + m = s.pos) ∧
        CursorOnly (apssFold (passedSamples dir m s) (drawUpdate s)) u ∧ SameSamples s u ∧
        (r = .ok → m = steps) ∧ (r = .boundary → m < steps ∧ u.pos = if dir = .fwd then s.totalBits else 0) ∧
        (r = .found → u.found = true ∧ 0 < m ∧
          (s.found = false → (apssFold (passedSamples dir (m - 1) s) (drawUpdate s)).found = false)) ∧
        (r ≠ .found → s.found = false → u.found = false) ∧
        agentStep .worker s = .next (if r = .ok then u else workerExit true u) ∧
        (r ≠ .ok → (workerExit true u).mode = .stop ∧ (workerExit true u).running = false ∧
          (workerExit true u).workerAlive = false ∧ (workerExit true u).pos = u.pos ∧
          (workerExit true u).rspQ = sentFrames s [sensorFrame { s with running := false }, ackFrame s])

/-- R255: `apss_bit` evaluates the sample the cursor passes over, exactly once: forward it reads and then steps, backward it
steps and then reads; at an end it returns BOUNDARY and evaluates nothing. -/
def Obligations.ApssEvaluatesThePassedSample : Prop :=
  ∀ s : State, MemInv s → TapeInv s → s.loaded = true →
    (s.pos = s.totalBits → apssBit .fwd s = .ok (.boundary, s)) ∧
    (s.pos < s.totalBits → ∃ t, apssBit .fwd s = .ok (if (apssEval (tapeSample s s.pos) s).found then .found else .ok, t) ∧
      t.pos = s.pos + 1 ∧ CursorOnly (apssEval (tapeSample s s.pos) s) t ∧ SameSamples s t) ∧
    (s.pos = 0 → apssBit .bwd s = .ok (.boundary, s)) ∧
    (0 < s.pos → ∃ t,
      apssBit .bwd s = .ok (if (apssEval (tapeSample s (s.pos - 1)) s).found then .found else .ok, t) ∧
      t.pos = s.pos - 1 ∧ CursorOnly (apssEval (tapeSample s (s.pos - 1)) s) t ∧ SameSamples s t)

/-- R260: after N35 ignored samples and a run of c0 ≥ 1 samples of value a, the detector reports FOUND exactly when it has
evaluated TOL + 1 + N35 + 1 samples of the opposite value, and never earlier. -/
def Obligations.ApssFindsTheBoundary : Prop :=
  ∀ (s : State) (ignored : List Bit) (a : Bit) (c0 m : Nat), ignored.length = 7 * s.t / 2 → 1 ≤ c0 →
    ((apssFold (ignored ++ List.replicate c0 a ++ List.replicate m (!a)) (startApss s)).found = true ↔
      tolerance s + 1 + 7 * s.t / 2 + 1 ≤ m) ∧
    (apssFold ignored (startApss s)).found = false ∧
    (∀ c, (apssFold (ignored ++ List.replicate c a) (startApss s)).found = false)

/-- R256, R261: the tolerance is 2 above APSS_TOL_HI, else 1 above 32000, else 0, and with the default 44100 that is 2 at 48000, 1
at 44100 and 0 up to 32000; before any flip a burst of at most TOL disagreeing samples and then an agreeing one changes nothing,
and with TOL = 0 one disagreeing sample flips the majority. R257, before and after a flip: an ignored sample is counted down, and
the first one after them seeds the majority. A burst of disagreeing samples that does not take mis above TOL changes mis alone, so
noise neither advances nor restarts the match count; the one that takes it above TOL flips the majority, back too, with mat = 0
and mis = 0. An agreeing sample clears mis, and once a flip has been seen it counts one match and sets `found` above N35. -/
def Obligations.ApssToleratesNoise : Prop :=
  (State.reset.params.apssTolHi = 44100 ∧ apssTolerance 44100 48000 = 2 ∧ apssTolerance 44100 44100 = 1 ∧
  (∀ r, r ≤ 32000 → apssTolerance 44100 r = 0) ∧
  ∀ (s : State) (a : Bit), s.ign = 0 → s.maj = some a → s.seen = false → s.mis = 0 →
    (tolerance s = if s.params.apssTolHi < s.t then 2 else if 32000 < s.t then 1 else 0) ∧
    (∀ burst, burst ≤ tolerance s → apssFold (List.replicate burst (!a) ++ [a]) s = s) ∧
    (tolerance s = 0 →
      apssEval (!a) s = { s with maj := some (!a), seen := true, mat := 0, mis := 0 })) ∧
  (∀ (s : State) (b : Bit), 0 < s.ign → apssEval b s = { s with ign := s.ign - 1 }) ∧
  (∀ (s : State) (b : Bit), s.ign = 0 → s.maj = none → apssEval b s = { s with maj := some b }) ∧
  ∀ (s : State) (a : Bit), s.ign = 0 → s.maj = some a →
    (∀ burst, s.mis + burst ≤ tolerance s → apssFold (List.replicate burst (!a)) s = { s with mis := s.mis + burst }) ∧
    (tolerance s < s.mis + 1 → apssEval (!a) s = { s with maj := some (!a), seen := true, mat := 0, mis := 0 }) ∧
    (s.seen = false → apssEval a s = { s with mis := 0 }) ∧
    (s.seen = true → apssEval a s =
      { s with mis := 0, mat := s.mat + 1, found := s.found || decide (7 * s.t / 2 < s.mat + 1) })

/-! ### Reset and the invariants -/

/-- R63, R380, R381: the state after reset has the value that the spec gives, wherever it gives one (the registers it leaves
unspecified are not named in `AtReset`), and so has the state after the host's reset, in any state: the device flags are clear, no
tape is loaded, nothing is sent, and the image store is not written. That the parameters, the host's script and log stay and the
command port and the offer are cleared is the model's reading (log entry 13). -/
def Obligations.ResetState : Prop :=
  AtReset State.reset ∧
  ∀ (s : State) (rest : List HostAction), s.host = .reset :: rest →
    ∃ t : State, agentStep .host s = .next t ∧ AtReset t ∧ SameImage s t ∧ t.fileSize = s.fileSize ∧
      t.params = s.params ∧ t.hostLog = s.hostLog ∧ t.host = rest ∧ t.cmdPort = [] ∧ t.offer = none

/-- The reset state meets every invariant of the block. -/
def Obligations.ResetMeetsTheInvariants : Prop := Inv State.reset

/-- R80, R90: every step keeps the image store in canonical form and inside the file. -/
def Obligations.ImageStoreStaysCanonical : Prop :=
  ∀ s t : State, MemInv s → step s = .next t → MemInv t

/-- R34 to R40: every step keeps the invariant of the open tape and its cursor: the position stays in [0, totalBits], the
cached byte is the byte of the position, and a clean cached byte equals the image store's. -/
def Obligations.TapeInvariantIsKept : Prop :=
  ∀ s t : State, MemInv s → TapeInv s → step s = .next t → TapeInv t

/-- R306: every step keeps the invariant of the controller: a worker lives exactly while a running mode is on, outside a
dispatcher step, a writer only with a RECORD worker, RUNNING is the worker, NONE is never entered, and EJECT is the mode with
no tape. -/
def Obligations.ControlInvariantIsKept : Prop :=
  ∀ s t : State, CtrlInv s → step s = .next t → CtrlInv t

/-- R41, R42, R61, R98: every step keeps the chunks at their sizes. -/
def Obligations.ChunkSizesAreKept : Prop :=
  ∀ s t : State, PortInv s → step s = .next t → PortInv t

/-- R350: every step keeps the error items of `cmdQ` before every other item. -/
def Obligations.ErrorItemsStayFirst : Prop :=
  ∀ s t : State, QueueInv s → step s = .next t → QueueInv t

/-- R48, R194, R226, R257: every step keeps the accumulators and the APSS counters in their ranges while their unit runs; the
counters' ranges are those of N35 and TOL (R254, R256), and no width is said of them. For the accumulators `acc` and `w` alone:
the host rate is at most 48000, so after the subtraction of a host bit an accumulator in its range is in [-t, h - t) and its
values fit in 17 signed bits. The vote of a host bit is at most the ceiling of h / t. That HOST_RATE_ALT, the host rate of class
C44K1ALT, is above 0 and at most 48000 is asked by `Params.wf` (log entry 16). -/
def Obligations.RangesAreKept : Prop :=
  (∀ s t : State, s.params.wf = true → TapeInv s → CtrlInv s → RangeInv s → step s = .next t → RangeInv t) ∧
  ∀ s : State, s.params.wf = true → TapeInv s → s.loaded = true →
    0 < hostRate s ∧ hostRate s ≤ 48000 ∧
    (∀ a : Int, 0 ≤ a → a < (hostRate s : Int) →
      -(s.t : Int) ≤ a - s.t ∧ a - s.t < (hostRate s : Int) - s.t ∧ -(2 ^ 16) ≤ a - s.t ∧ a < 2 ^ 16) ∧
    (0 ≤ s.w → ((s.vote.natAbs * s.t : Nat) : Int) + s.w < (hostRate s : Int) →
      s.vote.natAbs + 1 ≤ (hostRate s + s.t - 1) / s.t)

/-- R91, R176, R177, R395: while a tape is loaded, no step but an insertion changes the size of the file, the variant, the rate, the
number of samples or a header byte, but for the four position bytes of a MODERN image, which only a step that closes the
tape can change. That no step changes the parameters is the model's choice (log entry 1). -/
def Obligations.HeaderAndSizeAreFixed : Prop :=
  ∀ s t : State, MemInv s → step s = .next t →
    t.params = s.params ∧
    (s.loaded = true → (¬ ∃ r, t.hostLog = s.hostLog ++ [.inserted r]) →
      (∀ a, a < hdr s → ¬ (s.variant = .modern ∧ 36 ≤ a ∧ a < 40) → Memory.get t.img a = Memory.get s.img a) ∧
      t.fileSize = s.fileSize ∧
      (t.loaded = true → (∀ a, a < hdr s → Memory.get t.img a = Memory.get s.img a) ∧ t.variant = s.variant ∧ t.t = s.t ∧ t.totalBits = s.totalBits ∧
        t.protect = s.protect ∧ t.readOnly = s.readOnly))

/-- R309, R367: only the dispatcher starts a worker, and but for the host's reset only the dispatcher changes the mode, other
than to STOP by a worker's exit. -/
def Obligations.OnlyTheDispatcherEntersModes : Prop :=
  ∀ s t : State, step s = .next t → ¬ isResetTurn s →
    (s.workerAlive = false → t.workerAlive = true → nextAgent s = .dispatcher) ∧
    (t.mode ≠ s.mode → nextAgent s = .dispatcher ∨ (nextAgent s = .worker ∧ t.mode = .stop ∧ t.workerAlive = false))
end

