-- ==== Sys2Proof/Laws/Memory.lean ====
section
/-! SUPPORT. The image store: reads after writes, and the canonical form is kept by every operation. -/

namespace Sys2Proof.Laws

open Sys2Proof.Machine

theorem get_of_all_above {m : List Host.Cell} {a : Nat} (h : ∀ c ∈ m, a < c.1) :
    Memory.get m a = Memory.unlisted := by
  induction m with
  | nil => rfl
  | cons c m ih =>
    have hc : ¬ c.1 = a := by have := h c (by simp); omega
    simp only [Memory.get, if_neg hc]
    exact ih (fun d hd => h d (by simp [hd]))

/-- A read at the written offset gives the byte written. -/
theorem get_set_same {m : List Host.Cell} (hm : Memory.wf m) (a : Nat) (v : Byte) :
    Memory.get (Memory.set m a v) a = v := by
  induction m with
  | nil =>
    simp only [Memory.set]
    split
    · rename_i h; simp [Memory.get, h]
    · simp [Memory.get]
  | cons c m ih =>
    have hm' : Memory.wf m := ⟨(List.pairwise_cons.1 hm.1).2, fun d hd => hm.2 d (by simp [hd])⟩
    have habove : ∀ d ∈ m, c.1 < d.1 := (List.pairwise_cons.1 hm.1).1
    simp only [Memory.set]
    split
    · rename_i h1
      have : ¬ c.1 = a := by omega
      simp only [Memory.get, if_neg this]
      exact ih hm'
    · rename_i h1
      split
      · rename_i hv
        subst hv
        split
        · rename_i h2
          exact get_of_all_above (fun d hd => by have := habove d hd; omega)
        · rename_i h2
          exact get_of_all_above (fun d hd => by
            rcases List.mem_cons.1 hd with rfl | hd
            · omega
            · have := habove d hd; omega)
      · split
        · simp [Memory.get]
        · simp [Memory.get]

/-- A write leaves every other offset alone. -/
theorem get_set_other {m : List Host.Cell} (hm : Memory.wf m) {a b : Nat} (v : Byte) (hab : b ≠ a) :
    Memory.get (Memory.set m a v) b = Memory.get m b := by
  induction m with
  | nil =>
    simp only [Memory.set]
    split
    · rfl
    · simp [Memory.get, Ne.symm hab]
  | cons c m ih =>
    have hm' : Memory.wf m := ⟨(List.pairwise_cons.1 hm.1).2, fun d hd => hm.2 d (by simp [hd])⟩
    simp only [Memory.set]
    split
    · simp only [Memory.get]
      split
      · rfl
      · exact ih hm'
    · split
      · split
        · rename_i h2
          simp only [Memory.get]
          rw [if_neg (by omega)]
        · rfl
      · split
        · rename_i h2
          simp [Memory.get, h2, Ne.symm hab]
        · simp [Memory.get, Ne.symm hab]

theorem mem_set {m : List Host.Cell} {a : Nat} {v : Byte} {c : Host.Cell} (h : c ∈ Memory.set m a v) :
    c ∈ m ∨ (c = (a, v) ∧ v ≠ Memory.unlisted) := by
  induction m with
  | nil =>
    simp only [Memory.set] at h
    split at h <;> simp_all
  | cons d m ih =>
    simp only [Memory.set] at h
    split at h
    · rcases List.mem_cons.1 h with rfl | h
      · simp
      · rcases ih h with h | h
        · simp [h]
        · exact .inr h
    · split at h
      · split at h <;> simp_all
      · split at h
        · rcases List.mem_cons.1 h with rfl | h <;> simp_all
        · rcases List.mem_cons.1 h with rfl | h <;> simp_all

/-- A write keeps the canonical form. -/
theorem set_wf {m : List Host.Cell} (hm : Memory.wf m) (a : Nat) (v : Byte) : Memory.wf (Memory.set m a v) := by
  refine ⟨?_, fun c hc => ?_⟩
  · induction m with
    | nil =>
      simp only [Memory.set]
      split <;> simp
    | cons c m ih =>
      have hm' : Memory.wf m := ⟨(List.pairwise_cons.1 hm.1).2, fun d hd => hm.2 d (by simp [hd])⟩
      have habove : ∀ d ∈ m, c.1 < d.1 := (List.pairwise_cons.1 hm.1).1
      simp only [Memory.set]
      split
      · rename_i h1
        refine List.pairwise_cons.2 ⟨fun d hd => ?_, ih hm'⟩
        rcases mem_set hd with hd | ⟨rfl, _⟩
        · exact habove d hd
        · exact h1
      · rename_i h1
        split
        · split
          · exact hm'.1
          · exact hm.1
        · split
          · rename_i h2
            exact List.pairwise_cons.2 ⟨fun d hd => by have := habove d hd; simp; omega, hm'.1⟩
          · rename_i h2
            refine List.pairwise_cons.2 ⟨fun d hd => ?_, hm.1⟩
            rcases List.mem_cons.1 hd with rfl | hd
            · simp; omega
            · have := habove d hd; simp; omega
  · rcases mem_set hc with hc | ⟨rfl, hv⟩
    · exact hm.2 c hc
    · exact hv

theorem mem_ofBytes {bytes : List Byte} {a : Nat} {c : Host.Cell} (h : c ∈ Memory.ofBytes a bytes) :
    a ≤ c.1 ∧ c.1 < a + bytes.length ∧ c.2 ≠ Memory.unlisted := by
  induction bytes generalizing a with
  | nil => simp [Memory.ofBytes] at h
  | cons b bs ih =>
    simp only [Memory.ofBytes] at h
    split at h
    · obtain ⟨h1, h2, h3⟩ := ih h
      exact ⟨by omega, by simp only [List.length_cons]; omega, h3⟩
    · rcases List.mem_cons.1 h with rfl | h
      · simp_all
      · obtain ⟨h1, h2, h3⟩ := ih h
        exact ⟨by omega, by simp only [List.length_cons]; omega, h3⟩

/-- The cells of a file are in canonical form. -/
theorem ofBytes_wf (bytes : List Byte) (a : Nat) : Memory.wf (Memory.ofBytes a bytes) := by
  refine ⟨?_, fun c hc => (mem_ofBytes hc).2.2⟩
  induction bytes generalizing a with
  | nil => simp [Memory.ofBytes]
  | cons b bs ih =>
    simp only [Memory.ofBytes]
    split
    · exact ih (a + 1)
    · exact List.pairwise_cons.2 ⟨fun d hd => by have := (mem_ofBytes hd).1; simp; omega, ih (a + 1)⟩

/-- The cells of a file read as its bytes. -/
theorem get_ofBytes {bytes : List Byte} {a i : Nat} (h : i < bytes.length) :
    Memory.get (Memory.ofBytes a bytes) (a + i) = bytes[i] := by
  induction bytes generalizing a i with
  | nil => simp at h
  | cons b bs ih =>
    simp only [Memory.ofBytes]
    cases i with
    | zero =>
      split
      · rename_i hb
        rw [get_of_all_above (fun c hc => by have := (mem_ofBytes hc).1; omega)]
        simp [hb]
      · simp [Memory.get]
    | succ i =>
      have hi : i < bs.length := by simpa using h
      have e : a + (i + 1) = a + 1 + i := by omega
      split
      · rw [e, ih hi]; simp
      · simp only [Memory.get]
        rw [if_neg (by omega), e, ih hi]; simp

/-- `MemRead` gives the byte of an offset inside the file. -/
theorem imgRead_ok_iff {a : Nat} {s : State} {b : Byte} :
    imgRead a s = .ok b ↔ a < s.fileSize ∧ b = Memory.get s.img a := by
  unfold imgRead
  split
  · rename_i h
    constructor
    · intro hb; cases hb; exact ⟨h, rfl⟩
    · rintro ⟨_, rfl⟩; rfl
  · rename_i h
    constructor
    · intro hb; cases hb
    · rintro ⟨h', _⟩; exact absurd h' h

/-- `MemWrite` of one byte changes the image store alone. -/
theorem imgWrite_ok_iff {a : Nat} {v : Byte} {s t : State} :
    imgWrite a v s = .ok t ↔ a < s.fileSize ∧ t = { s with img := Memory.set s.img a v } := by
  unfold imgWrite
  split
  · rename_i h
    constructor
    · intro hb; cases hb; exact ⟨h, rfl⟩
    · rintro ⟨_, rfl⟩; rfl
  · rename_i h
    constructor
    · intro hb; cases hb
    · rintro ⟨h', _⟩; exact absurd h' h

/-- The image store of the reset state has the canonical form. -/
theorem reset_img_wf : Memory.wf State.reset.img := by simp [State.reset, Memory.wf]

/-- `MemWrite` of one byte keeps the canonical form. -/
theorem imgWrite_wf {a : Nat} {v : Byte} {s t : State} (hm : Memory.wf s.img) (h : imgWrite a v s = .ok t) :
    Memory.wf t.img := by
  obtain ⟨-, rfl⟩ := imgWrite_ok_iff.1 h
  exact set_wf hm a v

end Sys2Proof.Laws
end

