-- ==== Sys2Proof/Laws/Outcome.lean ====
section
/-! SUPPORT. How an operation that can fault, and an outcome, answer: the inversion of a bind and of the outcome helpers. -/

namespace Sys2Proof.Laws

open Sys2Proof.Machine

/-- A sequence of two operations answers exactly when both do. -/
theorem bind_ok_iff {α β : Type} {x : Except Fault α} {f : α → Except Fault β} {b : β} :
    (x >>= f) = .ok b ↔ ∃ a, x = .ok a ∧ f a = .ok b := by
  cases x with
  | error e => constructor
               · intro h; cases h
               · rintro ⟨a, h, _⟩; cases h
  | ok a => constructor
            · exact fun h => ⟨a, rfl, h⟩
            · rintro ⟨_, h, hf⟩; cases h; exact hf

@[simp] theorem ok_bind {α β : Type} (a : α) (f : α → Except Fault β) : ((Except.ok a : Except Fault α) >>= f) = f a := rfl

theorem ok_inj {α : Type} {a b : α} : (Except.ok a : Except Fault α) = .ok b ↔ a = b :=
  ⟨fun h => by cases h; rfl, fun h => by rw [h]⟩

@[simp] theorem andThen_ok {α : Type} (a : α) (f : α → Result) : andThen (.ok a) f = f a := rfl

/-- An outcome built on an operation is a next state exactly when the operation answers and the rest is one. -/
theorem andThen_next_iff {α : Type} {x : Except Fault α} {f : α → Result} {t : State} :
    andThen x f = .next t ↔ ∃ a, x = .ok a ∧ f a = .next t := by
  cases x with
  | error e => constructor
               · intro h; cases h
               · rintro ⟨a, h, _⟩; cases h
  | ok a => constructor
            · exact fun h => ⟨a, rfl, h⟩
            · rintro ⟨_, h, hf⟩; cases h; exact hf

theorem next_inj {s t : State} : (Host.Outcome.next s : Result) = .next t ↔ s = t :=
  ⟨fun h => by cases h; rfl, fun h => by rw [h]⟩

theorem withTape_next_iff {s t : State} {r : Result} :
    withTape s r = .next t ↔ s.loaded = true ∧ r = .next t := by
  unfold withTape
  split
  · simp [*]
  · simp [*]

theorem mapNext_next_iff {f : State → State} {r : Result} {t : State} :
    mapNext f r = .next t ↔ ∃ s, r = .next s ∧ t = f s := by
  cases r with
  | next s => simp [mapNext, eq_comm]
  | fault e => simp [mapNext]
  | refused e => simp [mapNext]

theorem stopWorker_next_iff {k : Join} {after : State → Result} {s t : State} :
    stopWorker k after s = .next t ↔
      (s.workerAlive = true ∧ t = { s with runFlag := false, dispatcherAt := .joining k }) ∨
      (s.workerAlive = false ∧ after s = .next t) := by
  unfold stopWorker
  cases h : s.workerAlive <;> simp [eq_comm]

end Sys2Proof.Laws
end

