-- ==== Sys2Proof/Laws/Cursor.lean ====
section
/-! SUPPORT. The tape cursor: what each operation can change, and what it does on an open tape. -/

namespace Sys2Proof.Laws

open Sys2Proof.Machine

/-! ### Frames -/

theorem cursorOnly_refl (s : State) : CursorOnly s s := rfl

theorem cursorOnly_trans {s t u : State} (h1 : CursorOnly s t) (h2 : CursorOnly t u) : CursorOnly s u := by
  unfold CursorOnly at *
  rw [h2, h1]

theorem datapathOnly_refl (s : State) : DatapathOnly s s := rfl

theorem datapathOnly_trans {s t u : State} (h1 : DatapathOnly s t) (h2 : DatapathOnly t u) : DatapathOnly s u := by
  unfold DatapathOnly at *
  rw [h2, h1]

theorem cursorOnly_datapath {s t : State} (h : CursorOnly s t) : DatapathOnly s t := by
  unfold CursorOnly at h
  unfold DatapathOnly
  rw [h]

/-- `load` changes the cached byte alone. -/
theorem load_frame {s t : State} (h : load s = .ok t) :
    CursorOnly s t ∧ t.img = s.img ∧ t.pos = s.pos ∧ t.dirty = s.dirty := by
  unfold load at h
  split at h
  · obtain ⟨b, -, h⟩ := bind_ok_iff.1 h
    cases h
    exact ⟨rfl, rfl, rfl, rfl⟩
  · cases h
    exact ⟨rfl, rfl, rfl, rfl⟩

/-- `flush` writes the cached byte, if it is dirty, and clears the flag. -/
theorem flush_cases {s t : State} (h : flush s = .ok t) :
    (s.dirty = false ∧ t = s) ∨
    (s.dirty = true ∧ ∃ i, s.cacheIdx = some i ∧ hdr s + i < s.fileSize ∧
      t = { s with img := Memory.set s.img (hdr s + i) s.cacheByte, dirty := false }) := by
  unfold flush at h
  split at h
  · rename_i hd
    split at h
    · rename_i i hi
      obtain ⟨s1, h1, h⟩ := bind_ok_iff.1 h
      obtain ⟨hlt, rfl⟩ := imgWrite_ok_iff.1 h1
      cases h
      exact .inr ⟨hd, i, hi, hlt, rfl⟩
    · cases h
  · rename_i hd
    cases h
    exact .inl ⟨by simpa using hd, rfl⟩

/-- `flush` of a dirty byte inside the file answers. -/
theorem flush_dirty_eq {s : State} {i : Nat} (hd : s.dirty = true) (hi : s.cacheIdx = some i)
    (hlt : hdr s + i < s.fileSize) :
    flush s = .ok { s with img := Memory.set s.img (hdr s + i) s.cacheByte, dirty := false } := by
  unfold flush
  rw [if_pos hd]
  split
  · rename_i j hj
    rw [hi] at hj
    cases hj
    rw [imgWrite_ok_iff.2 ⟨hlt, rfl⟩]
    rfl
  · rename_i hn
    rw [hi] at hn
    cases hn

/-- `flush` with nothing staged does nothing. -/
theorem flush_clean_eq {s : State} (hd : s.dirty = false) : flush s = .ok s := by
  unfold flush
  rw [if_neg (by simp [hd])]

theorem flush_frame {s t : State} (h : flush s = .ok t) :
    CursorOnly s t ∧ t.pos = s.pos ∧ t.cacheIdx = s.cacheIdx ∧ t.cacheByte = s.cacheByte ∧ t.dirty = false := by
  obtain ⟨hd, rfl⟩ | ⟨-, i, -, -, rfl⟩ := flush_cases h
  · exact ⟨rfl, rfl, rfl, rfl, hd⟩
  · exact ⟨rfl, rfl, rfl, rfl, rfl⟩

theorem moveTo_frame {p : Nat} {s t : State} (h : moveTo p s = .ok t) : CursorOnly s t ∧ t.pos = p := by
  unfold moveTo at h
  split at h
  · cases h; exact ⟨rfl, rfl⟩
  · obtain ⟨s1, h1, h2⟩ := bind_ok_iff.1 h
    have e1 := (flush_frame h1).1
    have e2 := (load_frame h2)
    refine ⟨?_, e2.2.2.1⟩
    exact cursorOnly_trans e1 (cursorOnly_trans (show CursorOnly s1 { s1 with pos := p } from rfl) e2.1)

/-- A forward step: at the end of the tape nothing changes, elsewhere the cursor moves on by one. -/
theorem stepForward_cases {s t : State} {r : CursorResult} (h : stepForward s = .ok (r, t)) :
    (s.totalBits ≤ s.pos ∧ r = .boundary ∧ t = s) ∨
    (s.pos < s.totalBits ∧ r = .ok ∧ moveTo (s.pos + 1) s = .ok t) := by
  unfold stepForward at h
  split at h
  · cases h; exact .inl ⟨‹_›, rfl, rfl⟩
  · obtain ⟨s1, h1, h2⟩ := bind_ok_iff.1 h
    cases h2
    exact .inr ⟨by omega, rfl, h1⟩

/-- A backward step: at the start of the tape nothing changes, elsewhere the cursor moves back by one. -/
theorem stepBackward_cases {s t : State} {r : CursorResult} (h : stepBackward s = .ok (r, t)) :
    (s.pos = 0 ∧ r = .boundary ∧ t = s) ∨ (s.pos ≠ 0 ∧ r = .ok ∧ moveTo (s.pos - 1) s = .ok t) := by
  unfold stepBackward at h
  split at h
  · cases h; exact .inl ⟨‹_›, rfl, rfl⟩
  · obtain ⟨s1, h1, h2⟩ := bind_ok_iff.1 h
    cases h2
    exact .inr ⟨‹_›, rfl, h1⟩

theorem stepForward_frame {s t : State} {r : CursorResult} (h : stepForward s = .ok (r, t)) : CursorOnly s t := by
  obtain ⟨-, -, rfl⟩ | ⟨-, -, h⟩ := stepForward_cases h
  · exact cursorOnly_refl _
  · exact (moveTo_frame h).1

theorem stepBackward_frame {s t : State} {r : CursorResult} (h : stepBackward s = .ok (r, t)) : CursorOnly s t := by
  obtain ⟨-, -, rfl⟩ | ⟨-, -, h⟩ := stepBackward_cases h
  · exact cursorOnly_refl _
  · exact (moveTo_frame h).1

theorem stepDir_frame {d : Dir} {s t : State} {r : CursorResult} (h : stepDir d s = .ok (r, t)) : CursorOnly s t := by
  cases d
  · exact stepForward_frame h
  · exact stepBackward_frame h

theorem writeSample_cases {v : Bit} {s t : State} (h : writeSample v s = .ok t) :
    s.pos < s.totalBits ∧ t = { s with cacheByte := setByteBit s.cacheByte (s.pos % 8) v, dirty := true } := by
  unfold writeSample at h
  split at h
  · cases h; exact ⟨‹_›, rfl⟩
  · cases h

/-- `MemWrite` of several bytes changes the image store alone. -/
theorem imgWriteBytes_frame {bytes : List Byte} {a : Nat} {s t : State} (h : imgWriteBytes a bytes s = .ok t) :
    t = { s with img := t.img } := by
  induction bytes generalizing a s with
  | nil => cases h; rfl
  | cons b bs ih =>
    obtain ⟨s1, h1, h2⟩ := bind_ok_iff.1 h
    obtain ⟨-, rfl⟩ := imgWrite_ok_iff.1 h1
    have := ih h2
    rw [this]

/-! ### The image store stays canonical -/

theorem memInv_write {s : State} (hm : MemInv s) {a : Nat} (ha : a < s.fileSize) (v : Byte) :
    MemInv { s with img := Memory.set s.img a v } :=
  ⟨set_wf hm.canonical a v, fun c hc => by
    rcases mem_set hc with hc | ⟨rfl, -⟩
    · exact hm.inside c hc
    · exact ha⟩

theorem memInv_flush {s t : State} (hm : MemInv s) (h : flush s = .ok t) : MemInv t := by
  obtain ⟨-, rfl⟩ | ⟨-, i, -, hlt, rfl⟩ := flush_cases h
  · exact hm
  · exact ⟨(memInv_write hm hlt s.cacheByte).canonical, (memInv_write hm hlt s.cacheByte).inside⟩

theorem memInv_moveTo {p : Nat} {s t : State} (hm : MemInv s) (h : moveTo p s = .ok t) : MemInv t := by
  unfold moveTo at h
  split at h
  · cases h; exact ⟨hm.canonical, hm.inside⟩
  · obtain ⟨s1, h1, h2⟩ := bind_ok_iff.1 h
    have e1 := memInv_flush hm h1
    obtain ⟨ec, ei, -, -⟩ := load_frame h2
    have ef : t.fileSize = s1.fileSize := by rw [ec]
    exact ⟨by rw [ei]; exact e1.canonical, by rw [ei, ef]; exact e1.inside⟩

theorem memInv_stepForward {s t : State} {r : CursorResult} (hm : MemInv s) (h : stepForward s = .ok (r, t)) :
    MemInv t := by
  obtain ⟨-, -, rfl⟩ | ⟨-, -, h⟩ := stepForward_cases h
  · exact hm
  · exact memInv_moveTo hm h

theorem memInv_stepBackward {s t : State} {r : CursorResult} (hm : MemInv s) (h : stepBackward s = .ok (r, t)) :
    MemInv t := by
  obtain ⟨-, -, rfl⟩ | ⟨-, -, h⟩ := stepBackward_cases h
  · exact hm
  · exact memInv_moveTo hm h

theorem memInv_writeBytes {bytes : List Byte} {a : Nat} {s t : State} (hm : MemInv s)
    (h : imgWriteBytes a bytes s = .ok t) : MemInv t := by
  induction bytes generalizing a s with
  | nil => cases h; exact hm
  | cons b bs ih =>
    obtain ⟨s1, h1, h2⟩ := bind_ok_iff.1 h
    obtain ⟨hlt, rfl⟩ := imgWrite_ok_iff.1 h1
    exact ih (memInv_write hm hlt b) h2

/-! ### On an open tape -/

/-- Where the cursor can be, it caches a byte inside the file. -/
theorem tapeInv_inside {s : State} (ht : TapeInv s) (hl : s.loaded = true) {p : Nat} (hp : p < s.totalBits) :
    hdr s + p / 8 < s.fileSize := by
  have := ht.size hl
  have := ht.header hl
  omega

/-- `load` answers on an open tape. -/
theorem load_eq {s : State} (h : s.pos < s.totalBits → hdr s + s.pos / 8 < s.fileSize) :
    load s = .ok { s with
      cacheIdx := cacheIdxAt s.pos s
      cacheByte := if s.pos < s.totalBits then Memory.get s.img (hdr s + s.pos / 8) else s.cacheByte } := by
  unfold load cacheIdxAt
  split
  · rename_i hp
    rw [imgRead_ok_iff.2 ⟨h hp, rfl⟩]
    rfl
  · rfl

/-- `moveTo` on an open tape: it answers, it moves the cursor, it loses no staged write, and it keeps every invariant of the
tape and of the image store (R152, R155). -/
theorem moveTo_spec {s : State} {p : Nat} (hm : MemInv s) (ht : TapeInv s) (hl : s.loaded = true)
    (hp : p ≤ s.totalBits) :
    ∃ t, moveTo p s = .ok t ∧ t.pos = p ∧ MemInv t ∧ TapeInv t ∧ SameSamples s t := by
  have hcached := ht.cached hl
  unfold moveTo
  split
  · rename_i hsame
    refine ⟨_, rfl, rfl, ⟨hm.canonical, hm.inside⟩, ?_, fun i => rfl⟩
    have hiff : p < s.totalBits ↔ s.pos < s.totalBits := by
      rw [hcached] at hsame
      unfold cacheIdxAt at hsame
      split at hsame <;> split at hsame <;> (simp_all; try omega)
    have hdiv : s.pos < s.totalBits → p / 8 = s.pos / 8 := by
      intro hlt
      rw [hcached] at hsame
      unfold cacheIdxAt at hsame
      rw [if_pos hlt, if_pos (hiff.2 hlt)] at hsame
      exact Option.some.inj hsame
    exact
      { rate := ht.rate, header := ht.header, size := ht.size, bound := ht.bound, legacy := ht.legacy
        posLe := fun _ => hp
        cached := fun _ => by rw [← hsame]; rfl
        clean := fun _ hd hlt => by
          have hlt' : s.pos < s.totalBits := hiff.1 hlt
          show s.cacheByte = Memory.get s.img (hdr s + p / 8)
          rw [hdiv hlt']
          exact ht.clean hl hd hlt'
        staged := fun hd => ⟨hl, hiff.2 (ht.staged hd).2⟩ }
  · rename_i hdiff
    -- the state after the flush
    have hflush : ∃ s1, flush s = .ok s1 ∧ MemInv s1 ∧
        s1 = { s with img := s1.img, dirty := false } ∧
        (∀ j, j < s.totalBits / 8 ∨ s.cacheIdx ≠ some j →
          Memory.get s1.img (hdr s + j) =
          if s.cacheIdx = some j then s.cacheByte else Memory.get s.img (hdr s + j)) := by
      cases hd : s.dirty with
      | false =>
        refine ⟨s, flush_clean_eq hd, hm, by rw [← hd], fun j _ => ?_⟩
        split
        · rename_i hj
          rw [hcached] at hj
          unfold cacheIdxAt at hj
          split at hj
          · rename_i hlt
            cases hj
            exact (ht.clean hl hd hlt).symm
          · cases hj
        · rfl
      | true =>
        have hlt := (ht.staged hd).2
        have hi : s.cacheIdx = some (s.pos / 8) := by rw [hcached, cacheIdxAt, if_pos hlt]
        have hin := tapeInv_inside ht hl hlt
        refine ⟨{ s with img := Memory.set s.img (hdr s + s.pos / 8) s.cacheByte, dirty := false }, ?_, ?_, rfl, ?_⟩
        · exact flush_dirty_eq hd hi hin
        · exact ⟨(memInv_write hm hin s.cacheByte).canonical, (memInv_write hm hin s.cacheByte).inside⟩
        · intro j _
          rw [hi]
          split
          · rename_i hj
            cases hj
            exact get_set_same hm.canonical _ _
          · rename_i hj
            exact get_set_other hm.canonical _ (by intro he; apply hj; congr 1; omega)
    obtain ⟨s1, hf, hm1, es1, hget⟩ := hflush
    have eh : hdr s1 = hdr s := by rw [es1]; rfl
    have ef : s1.fileSize = s.fileSize := by rw [es1]
    have et : s1.totalBits = s.totalBits := by rw [es1]
    have hload := load_eq (s := { s1 with pos := p }) (by
      intro hlt
      show hdr s1 + p / 8 < s1.fileSize
      rw [eh, ef]
      exact tapeInv_inside ht hl (by simpa [et] using hlt))
    rw [hf]
    refine ⟨_, hload, rfl, ⟨hm1.canonical, hm1.inside⟩, ?_, ?_⟩
    · have hl1 : s1.loaded = true := by rw [es1]; exact hl
      exact
        { rate := fun _ => by rw [es1]; exact ht.rate hl
          header := fun _ => by
            have := ht.header hl
            show hdr s1 ≤ s1.fileSize
            rw [eh, ef]; exact this
          size := fun _ => by
            show s1.totalBits = (s1.fileSize - hdr s1) * 8
            rw [eh, ef, et]; exact ht.size hl
          bound := fun _ => by rw [es1]; exact ht.bound hl
          legacy := fun _ hv => by
            rw [es1] at hv ⊢
            exact ht.legacy hl hv
          posLe := fun _ => by rw [es1]; exact hp
          cached := fun _ => rfl
          clean := fun _ _ hlt => by
            show (if p < s1.totalBits then _ else _) = _
            exact if_pos hlt
          staged := fun hd => by rw [es1] at hd; cases hd }
    · intro i
      show (if cacheIdxAt p _ = some (i / 8) then byteBit (if p < s1.totalBits then _ else _) (i % 8)
        else byteBit (Memory.get s1.img (hdr s1 + i / 8)) (i % 8)) = tapeSample s i
      have key : Memory.get s1.img (hdr s + i / 8) =
          if s.cacheIdx = some (i / 8) then s.cacheByte else Memory.get s.img (hdr s + i / 8) := by
        apply hget
        by_cases hc : s.cacheIdx = some (i / 8)
        · left
          rw [hcached] at hc
          unfold cacheIdxAt at hc
          split at hc
          · rename_i hlt
            have := ht.size hl
            have hc := Option.some.inj hc
            omega
          · cases hc
        · exact .inr hc
      have hview : byteBit (Memory.get s1.img (hdr s + i / 8)) (i % 8) = tapeSample s i := by
        rw [key]
        unfold tapeSample
        split <;> rfl
      split
      · rename_i hc
        unfold cacheIdxAt at hc
        split at hc
        · rename_i hlt
          have hc := Option.some.inj hc
          rw [if_pos (show p < s1.totalBits from hlt)]
          show byteBit (Memory.get s1.img (hdr s1 + p / 8)) (i % 8) = _
          rw [hc, eh]
          exact hview
        · cases hc
      · rw [eh]
        exact hview

end Sys2Proof.Laws
end

