-- ==== Sys2Proof/Laws/Tape.lean ====
section
/-! SUPPORT. What every operation of the datapath keeps: the frame, the canonical image store, the invariant of the open tape
and the header bytes, in one relation that composes. -/

namespace Sys2Proof.Laws

open Sys2Proof.Machine

/-- The invariant of the image store depends on the store and its size alone. -/
theorem memInv_congr {s t : State} (h : MemInv s) (hi : t.img = s.img := by rfl)
    (hf : t.fileSize = s.fileSize := by rfl) : MemInv t :=
  ⟨by rw [hi]; exact h.canonical, by rw [hi, hf]; exact h.inside⟩

/-- The invariant of the open tape depends on the tape's own fields alone. -/
theorem tapeInv_congr {s t : State} (h : TapeInv s) (hi : t.img = s.img := by rfl)
    (hf : t.fileSize = s.fileSize := by rfl) (h1 : t.loaded = s.loaded := by rfl) (h2 : t.t = s.t := by rfl)
    (h3 : t.variant = s.variant := by rfl) (h4 : t.totalBits = s.totalBits := by rfl) (h5 : t.pos = s.pos := by rfl)
    (h6 : t.cacheIdx = s.cacheIdx := by rfl) (h7 : t.cacheByte = s.cacheByte := by rfl)
    (h8 : t.dirty = s.dirty := by rfl) (h9 : maxPosition t.params = maxPosition s.params := by rfl)
    (h10 : t.protect = s.protect := by rfl) (h11 : t.readOnly = s.readOnly := by rfl) : TapeInv t := by
  have hh : hdr t = hdr s := by simp [hdr, h3]
  have hc : cacheIdxAt t.pos t = cacheIdxAt s.pos s := by simp [cacheIdxAt, h5, h4]
  constructor
  · rw [h1, h2]; exact h.rate
  · rw [h1, hh, hf]; exact h.header
  · rw [h1, hh, hf, h4]; exact h.size
  · rw [h1, h9, h3, h4]; exact h.bound
  · rw [h1, h4, h5]; exact h.posLe
  · rw [h1, h6, hc]; exact h.cached
  · rw [h1, h8, h5, h4, h7, hi, hh]; exact h.clean
  · rw [h1, h8, h5, h4]; exact h.staged
  · rw [h1, h3, h10, h11]; exact h.legacy

/-- What an operation of the cursor, a converter, a decoder or a detector keeps. -/
structure TapeKept (s t : State) : Prop where
  frame  : DatapathOnly s t
  mem    : MemInv s → MemInv t
  tape   : MemInv s → TapeInv s → s.loaded = true → TapeInv t
  header : MemInv s → ∀ a, a < hdr s → Memory.get t.img a = Memory.get s.img a

theorem datapathOnly_loaded {s t : State} (h : DatapathOnly s t) : t.loaded = s.loaded := by rw [h]
theorem datapathOnly_hdr {s t : State} (h : DatapathOnly s t) : hdr t = hdr s := by rw [h]; rfl

theorem tapeKept_refl (s : State) : TapeKept s s :=
  ⟨datapathOnly_refl s, id, fun _ h _ => h, fun _ _ _ => rfl⟩

theorem tapeKept_trans {s t u : State} (h1 : TapeKept s t) (h2 : TapeKept t u) : TapeKept s u :=
  ⟨datapathOnly_trans h1.frame h2.frame, fun h => h2.mem (h1.mem h),
   fun hm ht hl => h2.tape (h1.mem hm) (h1.tape hm ht hl) (by rw [datapathOnly_loaded h1.frame]; exact hl),
   fun hm a ha => (h2.header (h1.mem hm) a (by rw [datapathOnly_hdr h1.frame]; exact ha)).trans (h1.header hm a ha)⟩

/-- An update of transport registers alone keeps the tape: every field `TapeInv` and `MemInv` read is the same. -/
theorem tapeKept_of_registers {s t : State} (hf : DatapathOnly s t) (hi : t.img = s.img) (hp : t.pos = s.pos)
    (hc : t.cacheIdx = s.cacheIdx) (hb : t.cacheByte = s.cacheByte) (hd : t.dirty = s.dirty) : TapeKept s t := by
  have e : t = { s with
      acc := t.acc, ended := t.ended, w := t.w, vote := t.vote, last := t.last,
      phase := t.phase, prev := t.prev, n := t.n, k := t.k,
      ign := t.ign, maj := t.maj, mis := t.mis, mat := t.mat, seen := t.seen, found := t.found } := by
    unfold DatapathOnly at hf
    rw [hi, hp, hc, hb, hd] at hf
    exact hf
  refine ⟨hf, fun h => ?_, fun _ h _ => ?_, fun _ a _ => by rw [hi]⟩
  · rw [e]; exact ⟨h.canonical, h.inside⟩
  · rw [e]
    exact ⟨h.rate, h.header, h.size, h.bound, h.posLe, h.cached, h.clean, h.staged, h.legacy⟩

theorem flush_header {s t : State} (hm : MemInv s) (h : flush s = .ok t) {a : Nat} (ha : a < hdr s) :
    Memory.get t.img a = Memory.get s.img a := by
  obtain ⟨-, rfl⟩ | ⟨-, i, -, -, rfl⟩ := flush_cases h
  · rfl
  · exact get_set_other hm.canonical _ (by omega)

theorem moveTo_header {p : Nat} {s t : State} (hm : MemInv s) (h : moveTo p s = .ok t) {a : Nat} (ha : a < hdr s) :
    Memory.get t.img a = Memory.get s.img a := by
  unfold moveTo at h
  split at h
  · cases h; rfl
  · obtain ⟨s1, h1, h2⟩ := bind_ok_iff.1 h
    rw [(load_frame h2).2.1]
    exact flush_header hm h1 ha

/-- A move to a position that is on the tape if the tape is open. -/
theorem tapeKept_moveTo {p : Nat} {s t : State} (hp : TapeInv s → s.loaded = true → p ≤ s.totalBits) (h : moveTo p s = .ok t) : TapeKept s t :=
  ⟨cursorOnly_datapath (moveTo_frame h).1, fun hm => memInv_moveTo hm h,
   fun hm ht hl => by
     obtain ⟨u, hu, -, -, hti, -⟩ := moveTo_spec hm ht hl (hp ht hl)
     rw [h] at hu
     cases hu
     exact hti,
   fun hm _ ha => moveTo_header hm h ha⟩

theorem tapeKept_stepForward {s t : State} {r : CursorResult} (h : stepForward s = .ok (r, t)) : TapeKept s t := by
  obtain ⟨-, -, rfl⟩ | ⟨hlt, -, h⟩ := stepForward_cases h
  · exact tapeKept_refl _
  · exact tapeKept_moveTo (fun _ _ => hlt) h

theorem tapeKept_stepBackward {s t : State} {r : CursorResult}
    (h : stepBackward s = .ok (r, t)) : TapeKept s t := by
  obtain ⟨-, -, rfl⟩ | ⟨hne, -, h⟩ := stepBackward_cases h
  · exact tapeKept_refl _
  · exact tapeKept_moveTo (fun ht hl => by have := ht.posLe hl; omega) h

theorem tapeKept_writeSample {v : Bit} {s t : State} (h : writeSample v s = .ok t) : TapeKept s t := by
  obtain ⟨hlt, rfl⟩ := writeSample_cases h
  refine ⟨rfl, fun hm => ⟨hm.canonical, hm.inside⟩, fun _ ht hl => ?_, fun _ _ _ => rfl⟩
  exact ⟨ht.rate, ht.header, ht.size, ht.bound, ht.posLe, ht.cached,
    fun _ hd => (by cases hd), fun _ => ⟨hl, hlt⟩, ht.legacy⟩

/-! ### What a step, a read and a flush answer on an open tape -/

/-- A forward step before the end of an open tape (R160). -/
theorem stepForward_spec {s : State} (hm : MemInv s) (ht : TapeInv s) (hl : s.loaded = true) (hp : s.pos < s.totalBits) :
    ∃ t, stepForward s = .ok (.ok, t) ∧ t.pos = s.pos + 1 ∧ MemInv t ∧ TapeInv t ∧ CursorOnly s t ∧ SameSamples s t := by
  obtain ⟨t, h, hpos, hmt, htt, hs⟩ := moveTo_spec (p := s.pos + 1) hm ht hl hp
  refine ⟨t, ?_, hpos, hmt, htt, (moveTo_frame h).1, hs⟩
  unfold stepForward
  rw [if_neg (by omega), h]
  rfl

/-- A backward step after the start of an open tape (R161). -/
theorem stepBackward_spec {s : State} (hm : MemInv s) (ht : TapeInv s) (hl : s.loaded = true) (hp : 0 < s.pos) :
    ∃ t, stepBackward s = .ok (.ok, t) ∧ t.pos = s.pos - 1 ∧ MemInv t ∧ TapeInv t ∧ CursorOnly s t ∧
      SameSamples s t := by
  have hle := ht.posLe hl
  obtain ⟨t, h, hpos, hmt, htt, hs⟩ := moveTo_spec (p := s.pos - 1) hm ht hl (by omega)
  refine ⟨t, ?_, hpos, hmt, htt, (moveTo_frame h).1, hs⟩
  unfold stepBackward
  rw [if_neg (by omega), h]
  rfl

/-- A read of an open tape gives the cursor's view of the sample at the position (R157). -/
theorem readSample_spec {s : State} (ht : TapeInv s) (hl : s.loaded = true) (hp : s.pos < s.totalBits) :
    readSample s = .ok (tapeSample s s.pos) := by
  unfold readSample tapeSample
  rw [if_pos hp, ht.cached hl, cacheIdxAt, if_pos hp, if_pos rfl]

/-- Bit by bit, a byte after one of its samples has been replaced (R159). -/
theorem byteBit_setByteBit (b : Byte) (j k : Fin 8) (v : Bool) :
    byteBit (setByteBit b j v) k = if k = j then v else byteBit b k := by
  have one : ((1 : Byte) <<< (7 - (j : Nat))).getLsbD (7 - (k : Nat)) = decide (k = j) := by revert j k; decide
  have inside : decide (7 - (k : Nat) < 8) = true := decide_eq_true (by omega)
  unfold setByteBit byteBit
  cases v
  · rw [if_neg (by decide), BitVec.getLsbD_and, BitVec.getLsbD_not, one, inside]
    by_cases h : k = j <;> simp [h]
  · rw [if_pos rfl, BitVec.getLsbD_or, one]
    by_cases h : k = j <;> simp [h]

/-- A write on an open tape (R159, R164): the sample at the position is the one written, and no other changes. -/
theorem writeSample_spec {s : State} (v : Bit) (ht : TapeInv s) (hl : s.loaded = true) (hp : s.pos < s.totalBits) :
    ∃ t, writeSample v s = .ok t ∧ CursorOnly s t ∧ t.img = s.img ∧ t.pos = s.pos ∧ t.dirty = true ∧ TapeInv t ∧
      ∀ i, tapeSample t i = if i = s.pos then v else tapeSample s i := by
  have hc : s.cacheIdx = some (s.pos / 8) := by rw [ht.cached hl, cacheIdxAt, if_pos hp]
  refine ⟨{ s with cacheByte := setByteBit s.cacheByte (s.pos % 8) v, dirty := true },
    by unfold writeSample; rw [if_pos hp], rfl, rfl, rfl, rfl, ?_, fun i => ?_⟩
  · exact ⟨ht.rate, ht.header, ht.size, ht.bound, ht.posLe, ht.cached,
      fun _ hd => (by cases hd), fun _ => ⟨hl, hp⟩, ht.legacy⟩
  · unfold tapeSample
    simp only [hc, Option.some.injEq]
    have h := byteBit_setByteBit s.cacheByte ⟨s.pos % 8, by omega⟩ ⟨i % 8, by omega⟩ v
    simp only [Fin.mk.injEq] at h
    by_cases hd : s.pos / 8 = i / 8
    · rw [if_pos hd, if_pos hd, h]
      by_cases hi : i = s.pos
      · rw [if_pos hi, if_pos (by omega)]
      · rw [if_neg hi, if_neg (by omega)]
    · rw [if_neg hd, if_neg hd, if_neg (by omega)]
      rfl

/-- A flush on an open tape (R156): the staged byte, if there is one, stands in the image store, nothing is staged, and every
sample of the tape reads from the store as the cursor sees it. -/
theorem flush_spec {s : State} (hm : MemInv s) (ht : TapeInv s) (hl : s.loaded = true) :
    ∃ t, flush s = .ok t ∧ t = { s with img := t.img, dirty := false } ∧ MemInv t ∧ TapeInv t ∧ SameSamples s t ∧
      ∀ i, i < s.totalBits → byteBit (Memory.get t.img (hdr s + i / 8)) (i % 8) = tapeSample t i := by
  have stored : ∀ u : State, TapeInv u → u.loaded = true → u.dirty = false → ∀ i, i < u.totalBits →
      byteBit (Memory.get u.img (hdr u + i / 8)) (i % 8) = tapeSample u i := by
    intro u htu hlu hdu i hi
    unfold tapeSample
    split
    · rename_i hc
      rw [htu.cached hlu, cacheIdxAt] at hc
      split at hc
      · rename_i hp
        have he : u.pos / 8 = i / 8 := Option.some.inj hc
        rw [htu.clean hlu hdu hp, he]
      · cases hc
    · rfl
  cases hd : s.dirty with
  | false =>
    exact ⟨s, flush_clean_eq hd, by rw [← hd], hm, ht, fun _ => rfl, stored s ht hl hd⟩
  | true =>
    have hlt := (ht.staged hd).2
    have hi : s.cacheIdx = some (s.pos / 8) := by rw [ht.cached hl, cacheIdxAt, if_pos hlt]
    have e := flush_dirty_eq hd hi (tapeInv_inside ht hl hlt)
    have hti : TapeInv { s with img := Memory.set s.img (hdr s + s.pos / 8) s.cacheByte, dirty := false } :=
      ⟨ht.rate, ht.header, ht.size, ht.bound, ht.posLe, ht.cached,
        fun _ _ _ => (get_set_same hm.canonical _ _).symm, fun h => (by cases h), ht.legacy⟩
    refine ⟨_, e, rfl, memInv_flush hm e, hti, fun i => ?_, stored _ hti hl rfl⟩
    unfold tapeSample
    dsimp only
    split
    · rfl
    · rename_i hc
      rw [hi] at hc
      show byteBit (Memory.get (Memory.set s.img _ _) (hdr s + i / 8)) (i % 8) = _
      rw [get_set_other hm.canonical]
      intro h
      exact hc (congrArg some (by omega))

theorem tapeKept_stepDir {d : Dir} {s t : State} {r : CursorResult} (h : stepDir d s = .ok (r, t)) : TapeKept s t := by
  cases d
  · exact tapeKept_stepForward h
  · exact tapeKept_stepBackward h

end Sys2Proof.Laws
end

