-- ==== Sys2Proof/Laws/Playback.lean ====
section
/-! SUPPORT. What the playback rate converter keeps. -/

namespace Sys2Proof.Laws

open Sys2Proof.Machine

theorem tapeKept_startPlay (s : State) : TapeKept s (startPlay s) :=
  tapeKept_of_registers rfl rfl rfl rfl rfl rfl

theorem tapeKept_advanceLoop {fuel : Nat} {s t : State} (h : advanceLoop fuel s = .ok t) : TapeKept s t := by
  induction fuel generalizing s with
  | zero =>
    unfold advanceLoop at h
    split at h
    · cases h
    · cases h; exact tapeKept_refl _
  | succ fuel ih =>
    unfold advanceLoop at h
    split at h
    · obtain ⟨⟨r, s1⟩, h1, h2⟩ := bind_ok_iff.1 h
      exact tapeKept_trans (tapeKept_stepForward h1)
        (tapeKept_trans (t := { s1 with acc := s1.acc + (hostRate s1 : Int) })
          (tapeKept_of_registers rfl rfl rfl rfl rfl rfl) (ih h2))
    · cases h; exact tapeKept_refl _

/-- `emitOne` reads the current sample and then only advances. -/
theorem emitOne_cases {s t : State} {b : Bit} (h : emitOne s = .ok (b, t)) :
    readSample s = .ok b ∧
    advanceLoop (s.acc - (s.t : Int)).natAbs { s with acc := s.acc - (s.t : Int) } = .ok t := by
  unfold emitOne at h
  obtain ⟨b', h1, h⟩ := bind_ok_iff.1 h
  obtain ⟨s2, h2, h⟩ := bind_ok_iff.1 h
  cases h
  exact ⟨h1, h2⟩

theorem tapeKept_emitOne {s t : State} {b : Bit} (h : emitOne s = .ok (b, t)) : TapeKept s t :=
  tapeKept_trans (t := { s with acc := s.acc - (s.t : Int) }) (tapeKept_of_registers rfl rfl rfl rfl rfl rfl)
    (tapeKept_advanceLoop (emitOne_cases h).2)

theorem tapeKept_fillBits {m : Nat} {s t : State} {bits : List Bit} {eot : Bool}
    (h : fillBits m s = .ok (bits, eot, t)) : TapeKept s t := by
  induction m generalizing s bits with
  | zero => cases h; exact tapeKept_refl _
  | succ m ih =>
    unfold fillBits at h
    split at h
    · cases h; exact tapeKept_refl _
    · obtain ⟨⟨b, s1⟩, h1, h⟩ := bind_ok_iff.1 h
      obtain ⟨⟨bs, e, s2⟩, h2, h⟩ := bind_ok_iff.1 h
      cases h
      exact tapeKept_trans (tapeKept_emitOne h1) (ih h2)

/-- `fillBits` gives at most the bits asked for, and exactly those unless the tape ended. -/
theorem fillBits_length {m : Nat} {s t : State} {bits : List Bit} {eot : Bool}
    (h : fillBits m s = .ok (bits, eot, t)) : bits.length ≤ m ∧ (eot = false → bits.length = m) := by
  induction m generalizing s bits with
  | zero => cases h; simp
  | succ m ih =>
    unfold fillBits at h
    split at h
    · cases h; simp
    · obtain ⟨⟨b, s1⟩, h1, h⟩ := bind_ok_iff.1 h
      obtain ⟨⟨bs, e, s2⟩, h2, h⟩ := bind_ok_iff.1 h
      cases h
      have := ih h2
      simp only [List.length_cons]
      exact ⟨by omega, fun he => by have := this.2 he; omega⟩

@[simp] theorem packBits_length (bits : List Bit) : (packBits bits).length = (bits.length + 7) / 8 := by
  simp [packBits]

/-- A byte bit by bit, the most significant first (R84). -/
theorem byteOfBits_spec (f : Nat → Bit) {k : Nat} (hk : k < 8) : (byteOfBits f).getLsbD (7 - k) = f k := by
  have all : ∀ (b0 b1 b2 b3 b4 b5 b6 b7 : Bool) (k : Fin 8),
      (BitVec.ofNat 8 (2 * (2 * (2 * (2 * (2 * (2 * (2 * (2 * 0 + b0.toNat) + b1.toNat) + b2.toNat) + b3.toNat) + b4.toNat) +
        b5.toNat) + b6.toNat) + b7.toNat)).getLsbD (7 - (k : Nat)) = [b0, b1, b2, b3, b4, b5, b6, b7].getD k false := by decide
  refine (all (f 0) (f 1) (f 2) (f 3) (f 4) (f 5) (f 6) (f 7) ⟨k, hk⟩).trans ?_
  rcases k with _ | _ | _ | _ | _ | _ | _ | _ | k <;> first | rfl | omega

/-- Bit by bit, the bytes that host bits are packed into (R192). -/
theorem packBits_getElem? (bits : List Bit) {j k : Nat} (hj : j < (packBits bits).length) (hk : k < 8) :
    ((packBits bits)[j]?).map (fun b => b.getLsbD (7 - k)) = some (bits.getD (8 * j + k) false) := by
  rw [packBits_length] at hj
  unfold packBits
  rw [List.getElem?_map, List.getElem?_range hj]
  exact congrArg some (byteOfBits_spec _ hk)

theorem fillOutput_cases {r : Nat} {s t : State} {out : List Byte} {eot : Bool}
    (h : fillOutput r s = .ok (out, eot, t)) :
    ∃ bits, fillBits (8 * r) s = .ok (bits, eot, t) ∧ out = packBits bits := by
  unfold fillOutput at h
  obtain ⟨⟨bits, e, s1⟩, h1, h⟩ := bind_ok_iff.1 h
  cases h
  exact ⟨bits, h1, rfl⟩

/-- `fillOutput` gives at most the bytes asked for. -/
theorem fillOutput_length {r : Nat} {s t : State} {out : List Byte} {eot : Bool}
    (h : fillOutput r s = .ok (out, eot, t)) : out.length ≤ r := by
  obtain ⟨bits, h1, rfl⟩ := fillOutput_cases h
  have := (fillBits_length h1).1
  rw [packBits_length]
  omega

/-- A PLAY iteration converts, and then goes on, exits at the end of the tape, or offers a chunk and holds. -/
theorem iteratePlay_cases {s t : State} (h : iteratePlay s = .ok t) :
    ∃ u out eot, fillOutput s.params.chunkBytes s = .ok (out, eot, u) ∧ TapeKept s u ∧
      ((out = [] ∧ t = if eot then workerExit true u else u) ∨
       (out ≠ [] ∧ t = { u with outChunk := out, outValid := true, workerAt := .takeHold eot })) := by
  unfold iteratePlay at h
  obtain ⟨⟨out, eot, u⟩, h1, h⟩ := bind_ok_iff.1 h
  obtain ⟨bits, h2, -⟩ := fillOutput_cases h1
  refine ⟨u, out, eot, h1, tapeKept_fillBits h2, ?_⟩
  dsimp only at h
  split at h
  · rename_i hl
    cases h
    exact .inl ⟨List.eq_nil_of_length_eq_zero hl, rfl⟩
  · rename_i hl
    cases h
    exact .inr ⟨fun he => hl (by rw [he]; rfl), rfl⟩

end Sys2Proof.Laws
end

