-- ==== Sys2Proof/Laws/Record.lean ====
section
/-! SUPPORT. What the record decoders and the record writer keep. -/

namespace Sys2Proof.Laws

open Sys2Proof.Machine

theorem tapeKept_passSample {s t : State} (h : passSample s = .ok t) : TapeKept s t := by
  unfold passSample at h
  obtain ⟨⟨r, s1⟩, h1, h⟩ := bind_ok_iff.1 h
  cases h
  exact tapeKept_stepForward h1

/-- `tapeWrite`: nothing in an ended session, the end of the session at the tape end, a bare step when inhibited, and else one
sample written and a step. -/
theorem tapeWrite_cases {v : Bit} {s t : State} (h : tapeWrite v s = .ok t) :
    (s.ended = true ∧ t = s) ∨
    (s.ended = false ∧ s.totalBits ≤ s.pos ∧ t = { s with ended := true }) ∨
    (s.ended = false ∧ s.pos < s.totalBits ∧ inhibited s = true ∧ passSample s = .ok t) ∨
    (s.ended = false ∧ s.pos < s.totalBits ∧ inhibited s = false ∧
      ∃ u, writeSample v s = .ok u ∧ passSample u = .ok t) := by
  unfold tapeWrite at h
  split at h
  · cases h; exact .inl ⟨‹_›, rfl⟩
  · rename_i he
    have he : s.ended = false := by simpa using he
    split at h
    · cases h; exact .inr (.inl ⟨he, ‹_›, rfl⟩)
    · rename_i hp
      have hp : s.pos < s.totalBits := by omega
      split at h
      · exact .inr (.inr (.inl ⟨he, hp, ‹_›, h⟩))
      · rename_i hi
        obtain ⟨u, h1, h2⟩ := bind_ok_iff.1 h
        exact .inr (.inr (.inr ⟨he, hp, by simpa using hi, u, h1, h2⟩))

theorem tapeKept_tapeWrite {v : Bit} {s t : State} (h : tapeWrite v s = .ok t) : TapeKept s t := by
  obtain ⟨-, rfl⟩ | ⟨-, -, rfl⟩ | ⟨-, -, -, h⟩ | ⟨-, -, -, u, h1, h2⟩ := tapeWrite_cases h
  · exact tapeKept_refl _
  · exact tapeKept_of_registers rfl rfl rfl rfl rfl rfl
  · exact tapeKept_passSample h
  · exact tapeKept_trans (tapeKept_writeSample h1) (tapeKept_passSample h2)

theorem tapeKept_tapeRun {v : Bit} {m : Nat} {s t : State} (h : tapeRun v m s = .ok t) : TapeKept s t := by
  induction m generalizing s with
  | zero => cases h; exact tapeKept_refl _
  | succ m ih =>
    obtain ⟨s1, h1, h2⟩ := bind_ok_iff.1 h
    exact tapeKept_trans (tapeKept_tapeWrite h1) (ih h2)

/-- `tapeWrite` on an open tape (R213, R231): past the end it ends the session; otherwise the cursor moves by one, and unless the
session is inhibited the sample is written. -/
theorem tapeWrite_spec {s : State} (v : Bit) (hm : MemInv s) (ht : TapeInv s) (hl : s.loaded = true)
    (he : s.ended = false) :
    ∃ t, tapeWrite v s = .ok t ∧ MemInv t ∧ TapeInv t ∧
      t = { s with
        img := t.img, cacheIdx := t.cacheIdx, cacheByte := t.cacheByte, dirty := t.dirty
        pos := min s.totalBits (s.pos + 1)
        ended := decide (s.totalBits < s.pos + 1) } ∧
      ∀ i, tapeSample t i =
        if inhibited s = false ∧ s.pos ≤ i ∧ i < min s.totalBits (s.pos + 1) then v else tapeSample s i := by
  have hle := ht.posLe hl
  unfold tapeWrite
  rw [if_neg (by simp [he])]
  by_cases hp : s.totalBits ≤ s.pos
  · rw [if_pos hp]
    refine ⟨_, rfl, memInv_congr hm, tapeInv_congr ht, ?_, fun i => ?_⟩
    · rw [show min s.totalBits (s.pos + 1) = s.pos by omega, decide_eq_true (by omega)]
    · rw [if_neg (by omega)]; rfl
  · rw [if_neg hp]
    have hmin : min s.totalBits (s.pos + 1) = s.pos + 1 := by omega
    have hdec : decide (s.totalBits < s.pos + 1) = s.ended := by rw [he, decide_eq_false (by omega)]
    rw [hmin, hdec]
    have close : ∀ u : State, MemInv u → TapeInv u → CursorOnly s u → u.pos = s.pos →
        (∀ i, tapeSample u i = if inhibited s = false ∧ s.pos ≤ i ∧ i < s.pos + 1 then v else tapeSample s i) →
        ∃ t, passSample u = .ok t ∧ MemInv t ∧ TapeInv t ∧
          t = { s with
            img := t.img, cacheIdx := t.cacheIdx, cacheByte := t.cacheByte, dirty := t.dirty
            pos := s.pos + 1
            ended := s.ended } ∧
          ∀ i, tapeSample t i = if inhibited s = false ∧ s.pos ≤ i ∧ i < s.pos + 1 then v else tapeSample s i := by
      intro u hmu htu hc hpos hsamples
      obtain ⟨t, h1, h2, h3, h4, h5, h6⟩ := stepForward_spec hmu htu (by rw [hc]; exact hl)
        (by rw [hpos, show u.totalBits = s.totalBits by rw [hc]]; omega)
      refine ⟨t, by unfold passSample; rw [h1]; rfl, h3, h4, ?_, fun i => (h6 i).trans (hsamples i)⟩
      have h := cursorOnly_trans hc h5
      unfold CursorOnly at h
      rw [h2, hpos] at h
      exact h
    by_cases hi : inhibited s = true
    · rw [if_pos hi]
      exact close s hm ht rfl rfl fun i => by rw [if_neg (by simp [hi])]
    · rw [if_neg hi]
      obtain ⟨u, h1, h2, h3, h4, -, h5, h6⟩ := writeSample_spec v ht hl (by omega)
      rw [h1]
      refine close u (memInv_congr hm h3 (by rw [h2])) h5 h2 h4 fun i => ?_
      rw [h6]
      by_cases hx : i = s.pos
      · rw [if_pos hx, if_pos ⟨by simpa using hi, by omega⟩]
      · rw [if_neg hx, if_neg (by omega)]

/-- A run of writes in a session that has ended changes nothing (R213). -/
theorem tapeRun_ended {v : Bit} {m : Nat} {s : State} (he : s.ended = true) : tapeRun v m s = .ok s := by
  induction m with
  | zero => rfl
  | succ m ih => unfold tapeRun; rw [show tapeWrite v s = .ok s by unfold tapeWrite; rw [if_pos he]]; exact ih

/-- `m` writes of `v` on an open tape: as many samples as the tape has room for, and the session ends if that is fewer (R213, R214). -/
theorem tapeRun_spec {s : State} (v : Bit) (m : Nat) (hm : MemInv s) (ht : TapeInv s) (hl : s.loaded = true)
    (he : s.ended = false) :
    ∃ t, tapeRun v m s = .ok t ∧ MemInv t ∧ TapeInv t ∧
      t = { s with
        img := t.img, cacheIdx := t.cacheIdx, cacheByte := t.cacheByte, dirty := t.dirty
        pos := min s.totalBits (s.pos + m)
        ended := decide (s.totalBits < s.pos + m) } ∧
      ∀ i, tapeSample t i =
        if inhibited s = false ∧ s.pos ≤ i ∧ i < min s.totalBits (s.pos + m) then v else tapeSample s i := by
  induction m generalizing s with
  | zero =>
    have hle := ht.posLe hl
    refine ⟨s, rfl, hm, ht, ?_, fun i => by rw [if_neg (by omega)]⟩
    rw [show min s.totalBits (s.pos + 0) = s.pos by omega, decide_eq_false (by omega), ← he]
  | succ m ih =>
    obtain ⟨u, h1, hmu, htu, h2, h3⟩ := tapeWrite_spec v hm ht hl he
    have hle := ht.posLe hl
    have hpos : u.pos = min s.totalBits (s.pos + 1) := by rw [h2]
    have htot : u.totalBits = s.totalBits := by rw [h2]
    have hinh : inhibited u = inhibited s := by rw [h2]; rfl
    by_cases hp : s.totalBits < s.pos + 1
    · have heu : u.ended = true := by rw [h2]; exact decide_eq_true hp
      refine ⟨u, by unfold tapeRun; rw [h1]; exact tapeRun_ended heu, hmu, htu, ?_, fun i => ?_⟩
      · rw [decide_eq_true (by omega : s.totalBits < s.pos + (m + 1)),
          show min s.totalBits (s.pos + (m + 1)) = min s.totalBits (s.pos + 1) by omega,
          ← decide_eq_true hp]
        exact h2
      · rw [h3]
        by_cases hc : inhibited s = false ∧ s.pos ≤ i ∧ i < min s.totalBits (s.pos + 1)
        · rw [if_pos hc, if_pos ⟨hc.1, hc.2.1, by omega⟩]
        · rw [if_neg hc, if_neg (fun h => hc ⟨h.1, h.2.1, by omega⟩)]
    · have heu : u.ended = false := by rw [h2]; exact decide_eq_false hp
      obtain ⟨t, h4, hmt, htt, h5, h6⟩ := ih hmu htu (by rw [h2]; exact hl) heu
      refine ⟨t, by unfold tapeRun; rw [h1]; exact h4, hmt, htt, ?_, fun i => ?_⟩
      · rw [htot, show min s.totalBits (u.pos + m) = min s.totalBits (s.pos + (m + 1)) by omega,
          decide_eq_decide.2 (show s.totalBits < u.pos + m ↔ s.totalBits < s.pos + (m + 1) by omega)] at h5
        generalize t.img = a, t.cacheIdx = b, t.cacheByte = c, t.dirty = d at h5
        rw [h5, h2]
      · rw [h6, h3, hinh, htot]
        by_cases hf : inhibited s = false
        · by_cases h7 : u.pos ≤ i ∧ i < min s.totalBits (u.pos + m)
          · rw [if_pos ⟨hf, h7⟩, if_pos ⟨hf, by omega⟩]
          · rw [if_neg (fun h => h7 h.2)]
            by_cases h8 : s.pos ≤ i ∧ i < min s.totalBits (s.pos + 1)
            · rw [if_pos ⟨hf, h8⟩, if_pos ⟨hf, by omega⟩]
            · rw [if_neg (fun h => h8 h.2), if_neg (fun h => by omega)]
        · rw [if_neg (fun h => hf h.1), if_neg (fun h => hf h.1), if_neg (fun h => hf h.1)]

/-- A session on a writable tape, or under another policy than INHIBIT, is not inhibited (R231). -/
theorem inhibited_eq_false {s : State}
    (h : (s.protect = false ∧ s.readOnly = false) ∨ s.params.recProtectPolicy ≠ .inhibit) : inhibited s = false := by
  unfold inhibited tapeProtected
  rcases h with ⟨hp, hr⟩ | hi
  · rw [hp, hr]; rfl
  · rw [beq_false_of_ne hi, Bool.and_false]

/-- `cancel_end` on an open tape (R220, R228): EDGE writes the pending host bits, rescaled, as low samples, and RAW writes none;
the session ends. -/
theorem cancelEnd_spec {s : State} (hm : MemInv s) (ht : TapeInv s) (hl : s.loaded = true) (he : s.ended = false) :
    let padded := if s.recStrategy = .edge then rescale (pendingScan s) s else 0
    ∃ t, cancelEnd s = .ok t ∧ MemInv t ∧ TapeInv t ∧
      t = { s with
        img := t.img, cacheIdx := t.cacheIdx, cacheByte := t.cacheByte, dirty := t.dirty
        pos := min s.totalBits (s.pos + padded)
        ended := true } ∧
      ∀ i, tapeSample t i =
        if inhibited s = false ∧ s.pos ≤ i ∧ i < min s.totalBits (s.pos + padded) then false else tapeSample s i := by
  intro padded
  obtain ⟨t, h1, hmt, htt, h2, h3⟩ := tapeRun_spec false padded hm ht hl he
  refine ⟨{ t with ended := true }, ?_, memInv_congr hmt, tapeInv_congr htt, ?_, h3⟩
  · unfold cancelEnd
    split
    · rename_i hs
      have hp : padded = rescale (pendingScan s) s := if_pos hs
      rw [hp] at h1
      unfold pad
      rw [h1]; rfl
    · rename_i hs
      have hp : padded = 0 := if_neg (by rw [hs]; decide)
      rw [hp] at h1
      cases h1; rfl
  · dsimp only
    generalize t.img = a, t.cacheIdx = b, t.cacheByte = c, t.dirty = d at h2
    rw [h2]

theorem tapeKept_writeSymbol {b : Bit} {s t : State} (h : writeSymbol b s = .ok t) : TapeKept s t := by
  obtain ⟨s1, h1, h2⟩ := bind_ok_iff.1 h
  exact tapeKept_trans (tapeKept_tapeRun h1) (tapeKept_tapeRun h2)

theorem tapeKept_scanGap {s t : State} (h : scanGap s = .ok t) : TapeKept s t := by
  unfold scanGap at h
  split at h
  · exact tapeKept_tapeRun h
  · cases h; exact tapeKept_refl _

theorem tapeKept_edgeStep {v : Bit} {s t : State} (h : edgeStep v s = .ok t) : TapeKept s t := by
  unfold edgeStep at h
  split at h
  · unfold edgeScan at h
    split at h
    · obtain ⟨s1, h1, h⟩ := bind_ok_iff.1 h
      cases h
      exact tapeKept_trans (t := s1) (tapeKept_scanGap h1) (tapeKept_of_registers rfl rfl rfl rfl rfl rfl)
    · cases h; exact tapeKept_of_registers rfl rfl rfl rfl rfl rfl
  · unfold edgeAdvance at h
    split at h
    · obtain ⟨s1, h1, h⟩ := bind_ok_iff.1 h
      cases h
      exact tapeKept_trans (t := s1)
        (tapeKept_trans (t := { s with k := s.k + 1 }) (tapeKept_of_registers rfl rfl rfl rfl rfl rfl)
          (tapeKept_writeSymbol h1))
        (tapeKept_of_registers rfl rfl rfl rfl rfl rfl)
    · cases h; exact tapeKept_of_registers rfl rfl rfl rfl rfl rfl

theorem tapeKept_rawCommit {s t : State} (h : rawCommit s = .ok t) : TapeKept s t := by
  unfold rawCommit at h
  split at h
  · obtain ⟨s1, h1, h⟩ := bind_ok_iff.1 h
    cases h
    exact tapeKept_trans (t := s1) (tapeKept_tapeWrite h1) (tapeKept_of_registers rfl rfl rfl rfl rfl rfl)
  · split at h
    · obtain ⟨s1, h1, h⟩ := bind_ok_iff.1 h
      cases h
      exact tapeKept_trans (t := s1) (tapeKept_tapeWrite h1) (tapeKept_of_registers rfl rfl rfl rfl rfl rfl)
    · split at h
      · exact tapeKept_tapeWrite h
      · unfold keepTapeTie at h
        split at h
        · cases h; exact tapeKept_of_registers rfl rfl rfl rfl rfl rfl
        · exact tapeKept_passSample h

/-- `tapeWrite` leaves the window accumulator alone. -/
theorem tapeWrite_w {b : Bit} {s t : State} (h : tapeWrite b s = .ok t) : t.w = s.w := by
  have pass : ∀ {s t : State}, passSample s = .ok t → t.w = s.w := by
    intro s t h
    obtain ⟨⟨r, x⟩, h1, h⟩ := bind_ok_iff.1 h
    cases h
    rw [stepForward_frame h1]
  obtain ⟨-, rfl⟩ | ⟨-, -, rfl⟩ | ⟨-, -, -, h⟩ | ⟨-, -, -, u, h1, h2⟩ := tapeWrite_cases h
  · rfl
  · rfl
  · exact pass h
  · obtain ⟨-, rfl⟩ := writeSample_cases h1
    exact (pass h2 :)

/-- The commit of a window leaves the window accumulator and the host rate alone (R225). -/
theorem rawCommit_frame {u v : State} (h : rawCommit u = .ok v) : v.w = u.w ∧ hostRate v = hostRate u := by
  have e : v.params = u.params ∧ v.rateClass = u.rateClass := by
    rw [(tapeKept_rawCommit h).frame]; exact ⟨rfl, rfl⟩
  refine ⟨?_, by simp [hostRate, e.1, e.2]⟩
  unfold rawCommit at h
  split at h
  · obtain ⟨x, h1, h⟩ := bind_ok_iff.1 h
    cases h
    exact (tapeWrite_w h1 :)
  · split at h
    · obtain ⟨x, h1, h⟩ := bind_ok_iff.1 h
      cases h
      exact (tapeWrite_w h1 :)
    · split at h
      · exact tapeWrite_w h
      · unfold keepTapeTie at h
        split at h
        · cases h; rfl
        · obtain ⟨⟨r, x⟩, h1, h⟩ := bind_ok_iff.1 h
          cases h
          rw [stepForward_frame h1]

theorem tapeKept_rawLoop {fuel : Nat} {s t : State} (h : rawLoop fuel s = .ok t) : TapeKept s t := by
  induction fuel generalizing s with
  | zero =>
    unfold rawLoop at h
    split at h
    · cases h
    · cases h; exact tapeKept_refl _
  | succ fuel ih =>
    unfold rawLoop at h
    split at h
    · obtain ⟨s1, h1, h2⟩ := bind_ok_iff.1 h
      exact tapeKept_trans (tapeKept_rawCommit h1)
        (tapeKept_trans (t := { s1 with vote := 0, w := s1.w + (hostRate s1 : Int) })
          (tapeKept_of_registers rfl rfl rfl rfl rfl rfl) (ih h2))
    · cases h; exact tapeKept_refl _

theorem tapeKept_recStep {v : Bit} {s t : State} (h : recStep v s = .ok t) : TapeKept s t := by
  unfold recStep at h
  split at h
  · exact tapeKept_edgeStep h
  · exact tapeKept_trans (t := { s with vote := s.vote + (if v then 1 else -1), w := s.w - (s.t : Int) })
      (tapeKept_of_registers rfl rfl rfl rfl rfl rfl) (tapeKept_rawLoop h)

theorem tapeKept_cancelEnd {s t : State} (h : cancelEnd s = .ok t) : TapeKept s t := by
  unfold cancelEnd at h
  split at h
  · obtain ⟨s1, h1, h⟩ := bind_ok_iff.1 h
    cases h
    exact tapeKept_trans (t := s1) (tapeKept_tapeRun h1) (tapeKept_of_registers rfl rfl rfl rfl rfl rfl)
  · cases h; exact tapeKept_of_registers rfl rfl rfl rfl rfl rfl

/-- `flush` keeps the tape. -/
theorem tapeKept_flush {s t : State} (h : flush s = .ok t) : TapeKept s t := by
  refine ⟨cursorOnly_datapath (flush_frame h).1, fun hm => memInv_flush hm h, fun hm ht hl => ?_,
    fun hm _ ha => flush_header hm h ha⟩
  obtain ⟨-, rfl⟩ | ⟨hd, i, hi, -, rfl⟩ := flush_cases h
  · exact ht
  · have hlt := (ht.staged hd).2
    have hi' : i = s.pos / 8 := by
      rw [ht.cached hl, cacheIdxAt, if_pos hlt] at hi
      exact (Option.some.inj hi).symm
    subst hi'
    exact ⟨ht.rate, ht.header, ht.size, ht.bound, ht.posLe, ht.cached,
      fun _ _ _ => (get_set_same hm.canonical _ _).symm, fun hd => (by cases hd), ht.legacy⟩

theorem scratchTake_frame {s t : State} {v : Bit} (h : scratchTake s = .ok (v, t)) :
    t = { s with spos := s.spos + 1 } := by
  unfold scratchTake at h
  split at h
  · cases h; rfl
  · cases h

/-- One host bit of the writer: the session goes on, or it has ended and the writer flushes and is gone. -/
theorem writerBit_cases {v : Bit} {s t : State} (h : writerBit v s = .ok t) :
    ∃ u, recStep v s = .ok u ∧
      ((u.ended = false ∧ t = u) ∨
       (u.ended = true ∧ ∃ u', flush u = .ok u' ∧ t = { u' with sValid := false, writerAlive := false })) := by
  unfold writerBit at h
  obtain ⟨u, h1, h⟩ := bind_ok_iff.1 h
  refine ⟨u, h1, ?_⟩
  cases he : u.ended with
  | false =>
    rw [he] at h
    exact .inl ⟨rfl, (ok_inj.1 h).symm⟩
  | true =>
    rw [he] at h
    obtain ⟨u', h2, h⟩ := bind_ok_iff.1 (show writerExit u = .ok t from h)
    exact .inr ⟨rfl, u', h2, (ok_inj.1 h).symm⟩

/-- One step of the writer: a host bit decoded (and the exit if the session ended), a chunk taken, the scratch cursor given up,
or the cancelled end. In the first and the last case the tape is kept by everything before the final field updates. -/
theorem writerTurn_cases {s t : State} (h : writerTurn s = .ok t) :
    (∃ v u, scratchReady s = true ∧ recStep v { s with spos := s.spos + 1 } = .ok u ∧ u.ended = false ∧ t = u) ∨
    (∃ v u u', scratchReady s = true ∧ recStep v { s with spos := s.spos + 1 } = .ok u ∧ u.ended = true ∧
      flush u = .ok u' ∧ t = { u' with sValid := false, writerAlive := false }) ∨
    (scratchReady s = false ∧ s.slotFull = true ∧
      t = { s with scr := s.slotData, spos := 0, sValid := true, slotFull := false }) ∨
    (scratchReady s = false ∧ s.slotFull = false ∧ s.runFlag = true ∧ t = { s with sValid := false }) ∨
    (∃ u u', scratchReady s = false ∧ s.slotFull = false ∧ s.runFlag = false ∧
      cancelEnd { s with sValid := false } = .ok u ∧ flush u = .ok u' ∧
      t = { u' with sValid := false, writerAlive := false }) := by
  unfold writerTurn at h
  split at h
  · rename_i hr
    obtain ⟨⟨v, s1⟩, h1, h⟩ := bind_ok_iff.1 h
    obtain rfl := scratchTake_frame h1
    obtain ⟨u, h2, ⟨he, rfl⟩ | ⟨he, u', h3, rfl⟩⟩ := writerBit_cases h
    · exact .inl ⟨_, _, hr, h2, he, rfl⟩
    · exact .inr (.inl ⟨_, u, u', hr, h2, he, h3, rfl⟩)
  · rename_i hr
    have hr : scratchReady s = false := by simpa using hr
    split at h
    · cases h
      exact .inr (.inr (.inl ⟨hr, ‹_›, rfl⟩))
    · rename_i hs
      have hs : s.slotFull = false := by simpa using hs
      split at h
      · cases h
        exact .inr (.inr (.inr (.inl ⟨hr, hs, ‹_›, rfl⟩)))
      · rename_i hf
        obtain ⟨u, h1, h⟩ := bind_ok_iff.1 h
        unfold writerExit at h
        obtain ⟨u', h2, h⟩ := bind_ok_iff.1 h
        cases h
        exact .inr (.inr (.inr (.inr ⟨u, u', hr, hs, by simpa using hf, h1, h2, rfl⟩)))

/-! ### What one host bit does, by strategy -/

/-- `writeSymbol` on an open tape (R216): the high half and the low half, as many samples as the tape has room for. -/
theorem writeSymbol_spec {s : State} (b : Bit) (hm : MemInv s) (ht : TapeInv s) (hl : s.loaded = true)
    (he : s.ended = false) :
    let half := symbolHalf s.t b
    ∃ t, writeSymbol b s = .ok t ∧ MemInv t ∧ TapeInv t ∧
      t = { s with
        img := t.img, cacheIdx := t.cacheIdx, cacheByte := t.cacheByte, dirty := t.dirty
        pos := min s.totalBits (s.pos + 2 * half)
        ended := decide (s.totalBits < s.pos + 2 * half) } ∧
      ∀ i, tapeSample t i =
        if inhibited s = false ∧ s.pos ≤ i ∧ i < min s.totalBits (s.pos + 2 * half) then decide (i < s.pos + half)
        else tapeSample s i := by
  intro half
  have hle := ht.posLe hl
  obtain ⟨u, h1, hmu, htu, h2, h3⟩ := tapeRun_spec true half hm ht hl he
  have hw : writeSymbol b s = tapeRun false half u := by
    unfold writeSymbol; rw [h1]; rfl
  have hpos : u.pos = min s.totalBits (s.pos + half) := by rw [h2]
  have htot : u.totalBits = s.totalBits := by rw [h2]
  have hinh : inhibited u = inhibited s := by rw [h2]; rfl
  by_cases hp : s.totalBits < s.pos + half
  · have heu : u.ended = true := by rw [h2]; exact decide_eq_true hp
    refine ⟨u, hw.trans (tapeRun_ended heu), hmu, htu, ?_, fun i => ?_⟩
    · rw [show min s.totalBits (s.pos + 2 * half) = min s.totalBits (s.pos + half) by omega,
        decide_eq_true (by omega : s.totalBits < s.pos + 2 * half), ← decide_eq_true hp]
      exact h2
    · rw [h3, show min s.totalBits (s.pos + 2 * half) = min s.totalBits (s.pos + half) by omega]
      split
      · exact (decide_eq_true (by omega)).symm
      · rfl
  · have heu : u.ended = false := by rw [h2]; exact decide_eq_false hp
    obtain ⟨t, h4, hmt, htt, h5, h6⟩ := tapeRun_spec false half hmu htu (by rw [h2]; exact hl) heu
    refine ⟨t, hw.trans h4, hmt, htt, ?_, fun i => ?_⟩
    · rw [hpos, htot, show min s.totalBits (min s.totalBits (s.pos + half) + half) = min s.totalBits (s.pos + 2 * half) by omega,
        decide_eq_decide.2 (show s.totalBits < min s.totalBits (s.pos + half) + half ↔ s.totalBits < s.pos + 2 * half by omega)] at h5
      generalize t.img = a, t.cacheIdx = b, t.cacheByte = c, t.dirty = d at h5
      rw [h5, h2]
    · rw [h6, h3, hinh, htot, hpos]
      by_cases hin : inhibited s = false
      · simp only [hin, true_and]
        split_ifs <;> first | rfl | omega | (symm; exact decide_eq_false (by omega)) | (symm; exact decide_eq_true (by omega))
      · rw [if_neg (fun h => hin h.1), if_neg (fun h => hin h.1), if_neg (fun h => hin h.1)]

/-- The sample point of the edge decoder on an open tape (R218). -/
theorem edgeAdvance_spec {s : State} (v : Bit) (hm : MemInv s) (ht : TapeInv s) (hl : s.loaded = true)
    (he : s.ended = false) (hk : s.k + 1 = sampleOffset (hostRate s)) :
    let half := symbolHalf s.t v
    ∃ t, edgeAdvance v s = .ok t ∧ MemInv t ∧ TapeInv t ∧
      t = { s with
        img := t.img, cacheIdx := t.cacheIdx, cacheByte := t.cacheByte, dirty := t.dirty
        pos := min s.totalBits (s.pos + 2 * half)
        ended := decide (s.totalBits < s.pos + 2 * half)
        phase := .scan
        k := s.k + 1
        n := 0
        prev := v } ∧
      ∀ i, tapeSample t i =
        if inhibited s = false ∧ s.pos ≤ i ∧ i < min s.totalBits (s.pos + 2 * half) then decide (i < s.pos + half)
        else tapeSample s i := by
  intro half
  obtain ⟨t, h1, hmt, htt, h2, h3⟩ := writeSymbol_spec (s := { s with k := s.k + 1 }) v (memInv_congr hm) (tapeInv_congr ht) hl he
  refine ⟨{ t with prev := v, n := 0, phase := .scan }, ?_, memInv_congr hmt, tapeInv_congr htt, ?_, h3⟩
  · unfold edgeAdvance; rw [if_pos hk, h1]; rfl
  · dsimp only at h2 ⊢
    generalize t.img = a, t.cacheIdx = b, t.cacheByte = c, t.dirty = d at h2
    rw [h2]

/-- The gap before a rising edge (R219). -/
theorem scanGap_spec {s : State} (hm : MemInv s) (ht : TapeInv s) (hl : s.loaded = true) (he : s.ended = false) :
    let padded := if longGap (hostRate s) < s.n then rescale s.n s else 0
    ∃ t, scanGap s = .ok t ∧ MemInv t ∧ TapeInv t ∧
      t = { s with
        img := t.img, cacheIdx := t.cacheIdx, cacheByte := t.cacheByte, dirty := t.dirty
        pos := min s.totalBits (s.pos + padded)
        ended := decide (s.totalBits < s.pos + padded) } ∧
      ∀ i, tapeSample t i =
        if inhibited s = false ∧ s.pos ≤ i ∧ i < min s.totalBits (s.pos + padded) then false else tapeSample s i := by
  intro padded
  obtain ⟨t, h1, h2⟩ := tapeRun_spec false padded hm ht hl he
  refine ⟨t, ?_, h2⟩
  rw [← h1]
  unfold scanGap
  split
  · rename_i hn
    rw [show padded = rescale s.n s from if_pos hn]; rfl
  · rename_i hn
    rw [show padded = 0 from if_neg hn]; rfl

/-- The sample a closed window commits (R224, R225): the majority, and `last` on a tie. -/
def windowBit (s : State) : Bit := if s.vote = 0 then s.last else decide (0 < s.vote)

/-- The commit of a window on an open tape (R224, R225): the cursor moves by one sample, or the session ends at the tape end; the
sample is written unless it is a tie under keepTape or the session is inhibited. -/
theorem rawCommit_spec {s : State} (hm : MemInv s) (ht : TapeInv s) (hl : s.loaded = true) (he : s.ended = false) :
    ∃ t, rawCommit s = .ok t ∧ MemInv t ∧ TapeInv t ∧
      t = { s with
        img := t.img, cacheIdx := t.cacheIdx, cacheByte := t.cacheByte, dirty := t.dirty
        pos := min s.totalBits (s.pos + 1)
        ended := decide (s.totalBits < s.pos + 1)
        last := windowBit s } ∧
      ∀ i, tapeSample t i =
        if inhibited s = false ∧ (s.params.tieRule = .repeatLast ∨ s.vote ≠ 0) ∧ s.pos ≤ i ∧ i < min s.totalBits (s.pos + 1)
        then windowBit s else tapeSample s i := by
  have written : ∀ v : Bit, windowBit s = v → (s.params.tieRule = .repeatLast ∨ s.vote ≠ 0) →
      ∃ t, tapeWrite v s = .ok t ∧ MemInv t ∧ TapeInv t ∧
      t = { s with
        img := t.img, cacheIdx := t.cacheIdx, cacheByte := t.cacheByte, dirty := t.dirty
        pos := min s.totalBits (s.pos + 1)
        ended := decide (s.totalBits < s.pos + 1) } ∧
      ∀ i, tapeSample t i =
        if inhibited s = false ∧ (s.params.tieRule = .repeatLast ∨ s.vote ≠ 0) ∧ s.pos ≤ i ∧ i < min s.totalBits (s.pos + 1)
        then windowBit s else tapeSample s i := by
    intro v hv hw
    obtain ⟨t, h1, h2, h3, h4, h5⟩ := tapeWrite_spec v hm ht hl he
    exact ⟨t, h1, h2, h3, h4, fun i => by rw [h5, hv]; simp only [hw, true_and]⟩
  have majority : ∀ v : Bit, windowBit s = v → s.vote ≠ 0 → rawCommit s = (do
      let s1 ← tapeWrite v s
      .ok { s1 with last := v }) →
      ∃ t, rawCommit s = .ok t ∧ MemInv t ∧ TapeInv t ∧
      t = { s with
        img := t.img, cacheIdx := t.cacheIdx, cacheByte := t.cacheByte, dirty := t.dirty
        pos := min s.totalBits (s.pos + 1)
        ended := decide (s.totalBits < s.pos + 1)
        last := windowBit s } ∧
      ∀ i, tapeSample t i =
        if inhibited s = false ∧ (s.params.tieRule = .repeatLast ∨ s.vote ≠ 0) ∧ s.pos ≤ i ∧ i < min s.totalBits (s.pos + 1)
        then windowBit s else tapeSample s i := by
    intro v hv hn hc
    obtain ⟨t, h1, h2, h3, h4, h5⟩ := written v hv (.inr hn)
    refine ⟨{ t with last := v }, by rw [hc, h1]; rfl, memInv_congr h2, tapeInv_congr h3, ?_, h5⟩
    dsimp only
    generalize t.img = a, t.cacheIdx = b, t.cacheByte = c, t.dirty = d at h4
    rw [h4, hv]
  by_cases hpos : 0 < s.vote
  · exact majority true (by unfold windowBit; rw [if_neg (by omega), decide_eq_true hpos]) (by omega)
      (by unfold rawCommit; rw [if_pos hpos])
  by_cases hneg : s.vote < 0
  · exact majority false (by unfold windowBit; rw [if_neg (by omega), decide_eq_false hpos]) (by omega)
      (by unfold rawCommit; rw [if_neg hpos, if_pos hneg])
  have h0 : s.vote = 0 := by omega
  have hb : windowBit s = s.last := if_pos h0
  cases htie : s.params.tieRule with
  | repeatLast =>
    obtain ⟨t, h1, h2, h3, h4, h5⟩ := written s.last hb (.inl htie)
    refine ⟨t, by unfold rawCommit; rw [if_neg hpos, if_neg hneg, htie]; exact h1, h2, h3, ?_, by rw [htie] at h5; exact h5⟩
    rw [hb]; exact h4
  | keepTape =>
    have hk : rawCommit s = keepTapeTie s := by unfold rawCommit; rw [if_neg hpos, if_neg hneg, htie]
    have hle := ht.posLe hl
    have none : ∀ i, ¬ (inhibited s = false ∧ (TieRule.keepTape = .repeatLast ∨ s.vote ≠ 0) ∧ s.pos ≤ i ∧
        i < min s.totalBits (s.pos + 1)) := by
      rintro i ⟨-, h | h, -⟩
      · cases h
      · exact h h0
    unfold keepTapeTie at hk
    by_cases hp : s.totalBits ≤ s.pos
    · rw [if_pos hp] at hk
      refine ⟨_, hk, memInv_congr hm, tapeInv_congr ht, ?_, fun i => (if_neg (none i)).symm⟩
      rw [hb, show min s.totalBits (s.pos + 1) = s.pos by omega, decide_eq_true (by omega)]
    · rw [if_neg hp] at hk
      obtain ⟨t, h1, h2, h3, h4, h5, h6⟩ := stepForward_spec hm ht hl (by omega)
      refine ⟨t, by rw [hk]; unfold passSample; rw [h1]; rfl, h3, h4, ?_, fun i => by rw [if_neg (none i)]; exact h6 i⟩
      unfold CursorOnly at h5
      rw [hb, show min s.totalBits (s.pos + 1) = s.pos + 1 by omega, decide_eq_false (by omega), ← he, ← h2]
      exact h5

/-- The loop of R225 closes `c` windows, or as many as the tape has room for and the one that finds its end: the first commits the
majority, and the others are ties. -/
theorem rawLoop_spec {c : Nat} : ∀ {fuel : Nat} {s : State}, MemInv s → TapeInv s → s.loaded = true → s.ended = false →
    c ≤ fuel →
    (0 < c → s.w + ((c : Int) - 1) * (hostRate s : Int) < 0) → 0 ≤ s.w + (c : Int) * (hostRate s : Int) →
    ∃ t, rawLoop fuel s = .ok t ∧ MemInv t ∧ TapeInv t ∧
      t = { s with
        img := t.img, cacheIdx := t.cacheIdx, cacheByte := t.cacheByte, dirty := t.dirty
        pos := min s.totalBits (s.pos + c)
        ended := decide (s.totalBits < s.pos + c)
        w := s.w + (min c (s.totalBits - s.pos + 1) : Nat) * (hostRate s : Int)
        vote := if c = 0 then s.vote else 0
        last := if c = 0 then s.last else windowBit s } ∧
      ∀ i, tapeSample t i =
        if inhibited s = false ∧ s.pos ≤ i ∧ i < min s.totalBits (s.pos + c) ∧
          (s.params.tieRule = .repeatLast ∨ (s.vote ≠ 0 ∧ i = s.pos))
        then windowBit s else tapeSample s i := by
  induction c with
  | zero =>
    intro fuel s hm ht hl he _ _ hw
    have hle := ht.posLe hl
    have hw : ¬ (s.w < 0 ∧ s.ended = false) := by simp at hw; omega
    refine ⟨s, by cases fuel <;> (unfold rawLoop; rw [if_neg hw]), hm, ht, ?_, fun i => by rw [if_neg (by omega)]⟩
    rw [show min s.totalBits (s.pos + 0) = s.pos by omega, decide_eq_false (by omega), ← he]
    simp
  | succ c ih =>
    intro fuel s hm ht hl he hf hlow hhigh
    obtain ⟨fuel, rfl⟩ : ∃ k, fuel = k + 1 := ⟨fuel - 1, by omega⟩
    have hle := ht.posLe hl
    have hw : s.w < 0 := by
      have h1 := hlow (by omega)
      have h2 : (0 : Int) ≤ (((c + 1 : Nat) : Int) - 1) * (hostRate s : Int) := by
        rw [show ((c + 1 : Nat) : Int) - 1 = (c : Int) by omega]
        exact Int.mul_nonneg (by omega) (by omega)
      omega
    obtain ⟨u, h1, hmu, htu, h2, h3⟩ := rawCommit_spec hm ht hl he
    have hwu : u.w = s.w := by rw [h2]
    have hhu : hostRate u = hostRate s := by rw [h2]; rfl
    have hloop : rawLoop (fuel + 1) s = rawLoop fuel { u with vote := 0, w := s.w + (hostRate s : Int) } := by
      conv => lhs; unfold rawLoop
      rw [if_pos ⟨hw, he⟩, h1, ← hwu, ← hhu]
      rfl
    rw [hloop]
    by_cases hp : s.totalBits < s.pos + 1
    · have heu : u.ended = true := by rw [h2]; exact decide_eq_true hp
      refine ⟨{ u with vote := 0, w := s.w + (hostRate s : Int) }, ?_, memInv_congr hmu, tapeInv_congr htu, ?_, fun i => ?_⟩
      · cases fuel <;> (unfold rawLoop; rw [if_neg (by simp [heu])])
      · dsimp only
        generalize u.img = a, u.cacheIdx = b, u.cacheByte = c', u.dirty = d at h2
        rw [h2]
        dsimp only
        rw [decide_eq_true hp, decide_eq_true (by omega : s.totalBits < s.pos + (c + 1)), if_neg (by omega), if_neg (by omega),
          show min s.totalBits (s.pos + (c + 1)) = min s.totalBits (s.pos + 1) by omega,
          show min (c + 1) (s.totalBits - s.pos + 1) = 1 by omega]
        simp
      · show tapeSample u i = _
        rw [h3, if_neg (by omega), if_neg (by omega)]
    · have heu : u.ended = false := by rw [h2]; exact decide_eq_false hp
      have hposu : u.pos = s.pos + 1 := by rw [h2]; show min _ _ = _; omega
      have htot : u.totalBits = s.totalBits := by rw [h2]
      have hinh : inhibited u = inhibited s := by rw [h2]; rfl
      have htie : u.params = s.params := by rw [h2]
      have hlast : u.last = windowBit s := by rw [h2]
      have e1 : s.w + (hostRate s : Int) + ((c : Int) - 1) * hostRate s = s.w + (((c + 1 : Nat) : Int) - 1) * hostRate s := by
        push_cast; ring
      have e2 : s.w + (hostRate s : Int) + (c : Int) * hostRate s = s.w + ((c + 1 : Nat) : Int) * hostRate s := by
        push_cast; ring
      have hh : hostRate { u with vote := 0, w := s.w + (hostRate s : Int) } = hostRate s := hhu
      obtain ⟨t, h4, hmt, htt, h5, h6⟩ := ih (fuel := fuel) (s := { u with vote := 0, w := s.w + (hostRate s : Int) })
        (memInv_congr hmu) (tapeInv_congr htu) (by show u.loaded = true; rw [h2]; exact hl) heu (by omega)
        (fun _ => by rw [hh]; dsimp only; rw [e1]; exact hlow (by omega))
        (by rw [hh]; dsimp only; rw [e2]; exact hhigh)
      have hbit : windowBit { u with vote := 0, w := s.w + (hostRate s : Int) } = windowBit s := hlast
      refine ⟨t, h4, hmt, htt, ?_, fun i => ?_⟩
      · rw [hbit, hh] at h5
        dsimp only at h5
        rw [hposu, htot, hlast] at h5
        generalize t.img = a, t.cacheIdx = b, t.cacheByte = c', t.dirty = d at h5
        have e3 : ((min (c + 1) (s.totalBits - s.pos + 1) : Nat) : Int) * (hostRate s : Int) =
            (hostRate s : Int) + ((min c (s.totalBits - (s.pos + 1) + 1) : Nat) : Int) * hostRate s := by
          rw [show min (c + 1) (s.totalBits - s.pos + 1) = min c (s.totalBits - (s.pos + 1) + 1) + 1 by omega]
          push_cast; ring
        rw [h5, h2, e3, if_neg (by omega : ¬ c + 1 = 0), if_neg (by omega : ¬ c + 1 = 0)]
        dsimp only
        rw [show s.pos + 1 + c = s.pos + (c + 1) by omega]
        simp [Int.add_assoc]
      · rw [h6, hbit]
        have hs : tapeSample { u with vote := 0, w := s.w + (hostRate s : Int) } i = tapeSample u i := rfl
        have hi : inhibited { u with vote := 0, w := s.w + (hostRate s : Int) } = inhibited s := hinh
        rw [hs, h3, hi]
        dsimp only
        rw [hposu, htot, htie]
        by_cases hinhib : inhibited s = false
        · by_cases hrep : s.params.tieRule = .repeatLast
          · simp only [hinhib, hrep, true_or, true_and, and_true]
            split_ifs <;> first | rfl | omega
          · simp only [hinhib, hrep, false_or, true_and, ne_eq, not_true, false_and, and_false, if_false]
            split_ifs <;> first | rfl | omega
        · rw [if_neg (fun h => hinhib h.1), if_neg (fun h => hinhib h.1), if_neg (fun h => hinhib h.1)]

/-- With legal parameters the host rate is not 0 (R9). -/
theorem hostRate_pos {s : State} (h : s.params.wf = true) : 0 < hostRate s := by
  simp [Params.wf] at h
  unfold hostRate hostRateOf
  cases s.rateClass <;> simp
  omega

/-- The number of windows a host bit closes (R225): the least that brings the accumulator to 0 or more. -/
theorem windows_exist (x : Int) {h : Nat} (hpos : 0 < h) :
    ∃ c : Nat, c ≤ x.natAbs ∧ (0 < c → x + ((c : Int) - 1) * (h : Int) < 0) ∧ 0 ≤ x + (c : Int) * (h : Int) := by
  by_cases hx : 0 ≤ x
  · exact ⟨0, by omega, by omega, by simpa using hx⟩
  · obtain ⟨a, rfl⟩ : ∃ a : Nat, x = -((a : Int) + 1) := ⟨x.natAbs - 1, by omega⟩
    have hle : h * (a / h) ≤ a := Nat.mul_div_le a h
    have hlt : a < h * (a / h + 1) := Nat.lt_mul_div_succ a hpos
    refine ⟨a / h + 1, ?_, fun _ => ?_, ?_⟩
    · have := Nat.div_le_self a h; omega
    · rw [show (((a / h + 1 : Nat) : Int) - 1) * (h : Int) = ((h * (a / h) : Nat) : Int) by push_cast; ring]
      omega
    · rw [show ((a / h + 1 : Nat) : Int) * (h : Int) = ((h * (a / h + 1) : Nat) : Int) by push_cast; ring]
      omega

/-- One host bit on an open tape answers (R211). -/
theorem recStep_total {s : State} (v : Bit) (hw : s.params.wf = true) (hm : MemInv s) (ht : TapeInv s) (hl : s.loaded = true)
    (he : s.ended = false) : ∃ t, recStep v s = .ok t := by
  unfold recStep
  split
  · unfold edgeStep
    split
    · unfold edgeScan
      split
      · obtain ⟨t, h, -⟩ := scanGap_spec hm ht hl he
        rw [h]; exact ⟨_, rfl⟩
      · exact ⟨_, rfl⟩
    · by_cases hk : s.k + 1 = sampleOffset (hostRate s)
      · obtain ⟨t, h, -⟩ := edgeAdvance_spec v hm ht hl he hk
        exact ⟨t, h⟩
      · exact ⟨_, by unfold edgeAdvance; rw [if_neg hk]⟩
  · have hpos : 0 < hostRate s := hostRate_pos hw
    obtain ⟨c, h1, h2, h3⟩ := windows_exist (s.w - (s.t : Int)) hpos
    obtain ⟨t, h, -⟩ := rawLoop_spec (s := { s with vote := s.vote + (if v then 1 else -1), w := s.w - (s.t : Int) })
      (memInv_congr hm) (tapeInv_congr ht) hl he h1 h2 h3
    exact ⟨t, h⟩

end Sys2Proof.Laws
end

