-- ==== Sys2Proof/Laws/State.lean ====
section
/-! SUPPORT. What `send`, `notify` and the publications write: one equation for each, and one lemma for each field that the
other operations read. -/

namespace Sys2Proof.Laws

open Sys2Proof.Machine

variable (s : State) (kind value : Byte) (e : Event)

/-! ### `send` writes `rspQ` alone -/

@[simp] theorem send_params : (send kind value s).params = s.params := rfl
@[simp] theorem send_img : (send kind value s).img = s.img := rfl
@[simp] theorem send_fileSize : (send kind value s).fileSize = s.fileSize := rfl
@[simp] theorem send_loaded : (send kind value s).loaded = s.loaded := rfl
@[simp] theorem send_variant : (send kind value s).variant = s.variant := rfl
@[simp] theorem send_t : (send kind value s).t = s.t := rfl
@[simp] theorem send_totalBits : (send kind value s).totalBits = s.totalBits := rfl
@[simp] theorem send_pos : (send kind value s).pos = s.pos := rfl
@[simp] theorem send_protect : (send kind value s).protect = s.protect := rfl
@[simp] theorem send_readOnly : (send kind value s).readOnly = s.readOnly := rfl
@[simp] theorem send_cacheIdx : (send kind value s).cacheIdx = s.cacheIdx := rfl
@[simp] theorem send_cacheByte : (send kind value s).cacheByte = s.cacheByte := rfl
@[simp] theorem send_dirty : (send kind value s).dirty = s.dirty := rfl
@[simp] theorem send_mode : (send kind value s).mode = s.mode := rfl
@[simp] theorem send_running : (send kind value s).running = s.running := rfl
@[simp] theorem send_workerAlive : (send kind value s).workerAlive = s.workerAlive := rfl
@[simp] theorem send_workerMode : (send kind value s).workerMode = s.workerMode := rfl
@[simp] theorem send_runFlag : (send kind value s).runFlag = s.runFlag := rfl
@[simp] theorem send_writerAlive : (send kind value s).writerAlive = s.writerAlive := rfl
@[simp] theorem send_rateClass : (send kind value s).rateClass = s.rateClass := rfl
@[simp] theorem send_devError : (send kind value s).devError = s.devError := rfl
@[simp] theorem send_disconnected : (send kind value s).disconnected = s.disconnected := rfl
@[simp] theorem send_cmdQ : (send kind value s).cmdQ = s.cmdQ := rfl
@[simp] theorem send_evtQ : (send kind value s).evtQ = s.evtQ := rfl
@[simp] theorem send_recEntered : (send kind value s).recEntered = s.recEntered := rfl
@[simp] theorem send_outValid : (send kind value s).outValid = s.outValid := rfl
@[simp] theorem send_dispatcherAt : (send kind value s).dispatcherAt = s.dispatcherAt := rfl
@[simp] theorem send_workerAt : (send kind value s).workerAt = s.workerAt := rfl
@[simp] theorem send_sensor : sensor (send kind value s) = sensor s := rfl
@[simp] theorem send_gated : gated (send kind value s) = gated s := rfl

/-- The whole effect of `send`. -/
theorem send_eq :
    send kind value s = { s with rspQ := if gated s then s.rspQ else s.rspQ ++ [⟨kind, value⟩] } := rfl

theorem send_gated_eq (h : gated s = true) : send kind value s = s := by
  rw [send_eq, if_pos h]

theorem send_open_rspQ (h : gated s = false) : (send kind value s).rspQ = s.rspQ ++ [⟨kind, value⟩] := by
  rw [send_eq]; simp [h]

/-! ### The publications are `send` with the byte of R123 -/

theorem publishSensor_eq :
    publishSensor s = { s with
      rspQ := if gated s then s.rspQ else s.rspQ ++ [⟨s.params.kindSensorChange, sensor s⟩] } := rfl

theorem stopAck_eq :
    stopAck s = { s with
      rspQ := if gated s then s.rspQ else s.rspQ ++ [⟨s.params.kindRequestAck, 0x01⟩] } := rfl

theorem publishMode_eq :
    publishMode s = { s with
      rspQ := if gated s then s.rspQ else s.rspQ ++ [⟨s.params.kindStatusChange, modeCode s.params s.mode⟩] } := rfl

theorem publishRateClass_eq :
    publishRateClass s = { s with
      rspQ := if gated s then s.rspQ
              else s.rspQ ++ [⟨s.params.kindSampleRateChange, rateClassCode s.params s.rateClass⟩] } := rfl

/-! ### `notify` writes `evtQ` alone -/

theorem notify_eq : notify e s = { s with evtQ := s.evtQ ++ [e] } := rfl

theorem drawUpdate_eq :
    drawUpdate s = { s with
      evtQ := if Config.freeUpdate s.draws then s.evtQ ++ [.update] else s.evtQ
      draws := s.draws + 1 } := rfl

end Sys2Proof.Laws
end

