-- ==== Sys2Proof/Laws/Wind.lean ====
section
/-! SUPPORT. What fast wind and the APSS detector keep. -/

namespace Sys2Proof.Laws

open Sys2Proof.Machine

theorem tapeKept_seekLoop {d : Dir} {m : Nat} {s t : State} {r : CursorResult}
    (h : seekLoop d m s = .ok (r, t)) : TapeKept s t := by
  induction m generalizing s with
  | zero => cases h; exact tapeKept_refl _
  | succ m ih =>
    unfold seekLoop at h
    obtain ⟨⟨r1, s1⟩, h1, h⟩ := bind_ok_iff.1 h
    dsimp only at h
    split at h
    · cases h; exact tapeKept_stepDir h1
    · exact tapeKept_trans (tapeKept_stepDir h1) (ih h)

theorem tapeKept_startApss (s : State) : TapeKept s (startApss s) :=
  tapeKept_of_registers rfl rfl rfl rfl rfl rfl

/-- `apss_eval` writes the APSS registers alone. -/
theorem apssEval_frame (b : Bit) (s : State) :
    apssEval b s = { s with
      ign := (apssEval b s).ign, maj := (apssEval b s).maj, mis := (apssEval b s).mis, mat := (apssEval b s).mat,
      seen := (apssEval b s).seen, found := (apssEval b s).found } := by
  unfold apssEval
  split
  · rfl
  · split
    · rfl
    · unfold apssCompare
      split
      · split <;> rfl
      · split <;> rfl

/-- The detector reads its own registers alone: on two states that differ in the cursor it does the same. -/
theorem apssEval_cursorOnly (b : Bit) {s c : State} (h : CursorOnly s c) : CursorOnly (apssEval b s) (apssEval b c) := by

  unfold CursorOnly at h
  generalize c.img = i, c.pos = p, c.cacheIdx = x, c.cacheByte = y, c.dirty = z at h
  subst h
  have ht : ∀ s : State, tolerance { s with img := i, pos := p, cacheIdx := x, cacheByte := y, dirty := z } = tolerance s := fun _ => rfl
  unfold apssEval
  by_cases hi : 0 < s.ign
  · rw [if_pos hi, if_pos (show 0 < s.ign from hi)]; rfl
  · rw [if_neg hi, if_neg (show ¬ 0 < s.ign from hi)]
    cases hm : s.maj with
    | none => rfl
    | some m =>
      dsimp only
      unfold apssCompare
      by_cases h1 : b = m
      · rw [if_pos h1, if_pos h1]
        by_cases h3 : s.seen = true
        · rw [if_pos h3, if_pos (show s.seen = true from h3)]; (cases s; cases hm; rfl)
        · rw [if_neg h3, if_neg (show ¬ s.seen = true from h3)]; (cases s; cases hm; rfl)
      · rw [if_neg h1, if_neg h1]
        by_cases h2 : tolerance s < s.mis + 1
        · rw [if_pos h2, if_pos (by exact h2)]; (cases s; cases hm; rfl)
        · rw [if_neg h2, if_neg (by exact h2)]; (cases s; cases hm; rfl)

theorem apssFold_cursorOnly (samples : List Bit) {s c : State} (h : CursorOnly s c) :
    CursorOnly (apssFold samples s) (apssFold samples c) := by
  induction samples generalizing s c with
  | nil => exact h
  | cons b samples ih => exact ih (apssEval_cursorOnly b h)

theorem tapeKept_apssEval (b : Bit) (s : State) : TapeKept s (apssEval b s) := by
  have e := apssEval_frame b s
  exact tapeKept_of_registers (by rw [e]; rfl) (by rw [e]) (by rw [e]) (by rw [e]) (by rw [e]) (by rw [e])

/-- One call of the detector: BOUNDARY with nothing evaluated, or one sample evaluated and the result of `found`. -/
theorem tapeKept_apssBit {d : Dir} {s t : State} {r : ApssResult} (h : apssBit d s = .ok (r, t)) : TapeKept s t := by
  cases d with
  | fwd =>
    simp only [apssBit] at h
    split at h
    · cases h; exact tapeKept_refl _
    · obtain ⟨b, -, h⟩ := bind_ok_iff.1 h
      obtain ⟨⟨r1, s1⟩, h1, h⟩ := bind_ok_iff.1 h
      cases h
      exact tapeKept_trans (tapeKept_apssEval b s) (tapeKept_stepForward h1)
  | bwd =>
    simp only [apssBit] at h
    split at h
    · cases h; exact tapeKept_refl _
    · obtain ⟨⟨r1, s1⟩, h1, h⟩ := bind_ok_iff.1 h
      obtain ⟨b, -, h⟩ := bind_ok_iff.1 h
      cases h
      exact tapeKept_trans (tapeKept_stepBackward h1) (tapeKept_apssEval b s1)

/-- A call that answers OK leaves `found` clear. -/
theorem apssBit_ok_found {d : Dir} {s t : State} (h : apssBit d s = .ok (.ok, t)) : t.found = false := by
  cases d with
  | fwd =>
    simp only [apssBit] at h
    split at h
    · cases h
    · obtain ⟨b, -, h⟩ := bind_ok_iff.1 h
      obtain ⟨⟨r1, s1⟩, h1, h⟩ := bind_ok_iff.1 h
      simp only [apssResult, ok_inj, Prod.mk.injEq] at h
      obtain ⟨hr, rfl⟩ := h
      split at hr
      · cases hr
      · rename_i hf; simpa using hf
  | bwd =>
    simp only [apssBit] at h
    split at h
    · cases h
    · obtain ⟨⟨r1, s1⟩, h1, h⟩ := bind_ok_iff.1 h
      obtain ⟨b, -, h⟩ := bind_ok_iff.1 h
      simp only [apssResult, ok_inj, Prod.mk.injEq] at h
      obtain ⟨hr, rfl⟩ := h
      split at hr
      · cases hr
      · rename_i hf; simpa using hf

theorem tapeKept_apssLoop {d : Dir} {m : Nat} {s t : State} {r : ApssResult}
    (h : apssLoop d m s = .ok (r, t)) : TapeKept s t := by
  induction m generalizing s with
  | zero => cases h; exact tapeKept_refl _
  | succ m ih =>
    unfold apssLoop at h
    obtain ⟨⟨r1, s1⟩, h1, h⟩ := bind_ok_iff.1 h
    dsimp only at h
    split at h
    · exact tapeKept_trans (tapeKept_apssBit h1) (ih h)
    · cases h; exact tapeKept_apssBit h1

/-- Passing `m + 1` samples is passing the next one, and then `m` from where the cursor stands after it. -/
theorem passedSamples_succ {dir : Dir} {m : Nat} {s t : State} (hf : dir = .fwd → t.pos = s.pos + 1)
    (hb : dir = .bwd → t.pos + 1 = s.pos) (hs : SameSamples s t) :
    passedSamples dir (m + 1) s = passedSamples dir 1 s ++ passedSamples dir m t := by
  unfold passedSamples
  rw [List.range_succ_eq_map, List.map_cons, List.map_map]
  refine congrArg (List.cons _) (List.map_congr_left fun i _ => ?_)
  cases dir with
  | fwd => simp only [Function.comp]; rw [hs, hf rfl]; congr 1; omega
  | bwd => simp only [Function.comp]; rw [hs]; congr 1; have := hb rfl; omega

/-- A fast-wind iteration moves the cursor, and exits if it passed an end. -/
theorem iterateSeek_cases {d : Dir} {s t : State} (h : iterateSeek d s = .ok t) :
    ∃ r u, seekTick s.params.seekTickMs d s = .ok (r, u) ∧ TapeKept s u ∧
      t = if r = .boundary then workerExit true u else u := by
  unfold iterateSeek at h
  obtain ⟨⟨r, u⟩, h1, h⟩ := bind_ok_iff.1 h
  cases h
  exact ⟨r, u, h1, tapeKept_seekLoop h1, rfl⟩

/-- An APSS iteration evaluates samples, and exits at FOUND or BOUNDARY. -/
theorem iterateApss_cases {d : Dir} {s t : State} (h : iterateApss d s = .ok t) :
    ∃ r u, apssTick s.params.seekTickMs d s = .ok (r, u) ∧ TapeKept s u ∧
      t = if r = .ok then u else workerExit true u := by
  unfold iterateApss at h
  obtain ⟨⟨r, u⟩, h1, h⟩ := bind_ok_iff.1 h
  cases h
  exact ⟨r, u, h1, tapeKept_apssLoop h1, rfl⟩

end Sys2Proof.Laws
end

