-- ==== Sys2Proof/Laws/Agents.lean ====
section
/-! SUPPORT. What each agent's turn can do: one inversion lemma for each operation of the worker, the writer, the dispatcher,
the host and the step. -/

namespace Sys2Proof.Laws

open Sys2Proof.Machine

/-! ### The trap entry -/

theorem finishExit_eq (self : Bool) (s : State) :
    finishExit self s = { s with
      outValid := false
      running := false
      mode := if self then .stop else s.mode
      recEntered := if self then false else s.recEntered
      workerAlive := false
      workerAt := .top
      rspQ := (finishExit self s).rspQ } := rfl

/-- `worker_exit` either holds for the writer, or ends the worker; in RECORD it has cleared `runFlag`. -/
theorem workerExit_cases (self : Bool) (s : State) :
    (s.workerMode = .record ∧ s.writerAlive = true ∧
      workerExit self s = { s with runFlag := false, workerAt := .exitHold self }) ∨
    ((s.workerMode = .record → s.writerAlive = false) ∧ ∃ f,
      workerExit self s = finishExit self { s with runFlag := f }) := by
  unfold workerExit
  split
  · rename_i hm
    split
    · rename_i hw; exact .inl ⟨hm, hw, rfl⟩
    · rename_i hw; exact .inr ⟨fun _ => by simpa using hw, false, rfl⟩
  · rename_i hm
    exact .inr ⟨fun h => absurd h hm, s.runFlag, rfl⟩

/-! ### The worker -/

theorem acceptChunk_cases {s : State} (h : canAccept s = true) :
    ∃ chunk, s.offer = some chunk ∧ s.slotFull = false ∧
      acceptChunk s = { s with slotData := chunk, slotFull := true, offer := none, workerAt := .top } := by
  unfold canAccept at h
  unfold acceptChunk
  cases ho : s.offer with
  | none => simp [ho] at h
  | some chunk => exact ⟨chunk, rfl, by simp [ho] at h; exact h.1, rfl⟩

/-- A RECORD worker past its hold leaves, exits, accepts a chunk, or holds. -/
theorem iterateRec_cases (s : State) :
    (s.runFlag = false ∧ iterateRec s = workerExit false s) ∨
    (s.runFlag = true ∧ s.writerAlive = false ∧ iterateRec s = workerExit true s) ∨
    (s.runFlag = true ∧ s.writerAlive = true ∧ ∃ chunk, s.offer = some chunk ∧ s.slotFull = false ∧
      iterateRec s = { s with slotData := chunk, slotFull := true, offer := none, workerAt := .top }) ∨
    (s.runFlag = true ∧ s.writerAlive = true ∧ iterateRec s = { s with workerAt := .offerHold }) := by
  unfold iterateRec
  split
  · exact .inl ⟨‹_›, rfl⟩
  · rename_i hf
    have hf : s.runFlag = true := by simpa using hf
    split
    · exact .inr (.inl ⟨hf, ‹_›, rfl⟩)
    · rename_i hw
      have hw : s.writerAlive = true := by simpa using hw
      split
      · rename_i hc
        obtain ⟨chunk, h1, h2, h3⟩ := acceptChunk_cases hc
        exact .inr (.inr (.inl ⟨hf, hw, chunk, h1, h2, h3⟩))
      · exact .inr (.inr (.inr ⟨hf, hw, rfl⟩))

/-- An iteration: the datapath moves, and then the worker goes on, exits by itself, or (PLAY) offers a chunk and holds;
a RECORD worker does as `iterateRec`. -/
theorem iterate_cases {s t : State} (h : iterate s = .ok t) :
    (s.workerMode = .record ∧ t = iterateRec s) ∨
    (s.workerMode ≠ .record ∧ ∃ u, TapeKept s u ∧
      (t = u ∨ t = workerExit true u ∨
       (s.workerMode = .play ∧ ∃ out eot, out ≠ [] ∧ out.length ≤ s.params.chunkBytes ∧
         t = { u with outChunk := out, outValid := true, workerAt := .takeHold eot }))) := by
  unfold iterate at h
  have seek : ∀ {d}, iterateSeek d s = .ok t → ∃ u, TapeKept s u ∧ (t = u ∨ t = workerExit true u) := by
    intro d h
    obtain ⟨r, u, -, hk, rfl⟩ := iterateSeek_cases h
    exact ⟨u, hk, by split <;> simp⟩
  have apss : ∀ {d}, iterateApss d s = .ok t → ∃ u, TapeKept s u ∧ (t = u ∨ t = workerExit true u) := by
    intro d h
    obtain ⟨r, u, -, hk, rfl⟩ := iterateApss_cases h
    exact ⟨u, hk, by split <;> simp⟩
  split at h
  · rename_i hm
    obtain ⟨u, out, eot, h1, hk, ⟨-, ht⟩ | ⟨hne, ht⟩⟩ := iteratePlay_cases h
    · refine .inr ⟨by rw [hm]; decide, u, hk, ?_⟩
      cases eot
      · exact .inl ht
      · exact .inr (.inl ht)
    · exact .inr ⟨by rw [hm]; decide, u, hk, .inr (.inr ⟨hm, out, eot, hne, fillOutput_length h1, ht⟩)⟩
  · exact .inl ⟨‹_›, (ok_inj.1 h).symm⟩
  · rename_i hm
    obtain ⟨u, hk, h⟩ := seek h
    exact .inr ⟨by rw [hm]; decide, u, hk, h.elim .inl (fun h => .inr (.inl h))⟩
  · rename_i hm
    obtain ⟨u, hk, h⟩ := seek h
    exact .inr ⟨by rw [hm]; decide, u, hk, h.elim .inl (fun h => .inr (.inl h))⟩
  · rename_i hm
    obtain ⟨u, hk, h⟩ := apss h
    exact .inr ⟨by rw [hm]; decide, u, hk, h.elim .inl (fun h => .inr (.inl h))⟩
  · rename_i hm
    obtain ⟨u, hk, h⟩ := apss h
    exact .inr ⟨by rw [hm]; decide, u, hk, h.elim .inl (fun h => .inr (.inl h))⟩
  · cases h
  · cases h
  · cases h

/-- The end of the hold on the outbound chunk. -/
theorem afterTake_cases (eot : Bool) (s : State) :
    (s.runFlag = false ∧ afterTake eot s = workerExit false s) ∨
    (s.runFlag = true ∧ eot = true ∧ afterTake eot s = workerExit true s) ∨
    (s.runFlag = true ∧ eot = false ∧ afterTake eot s = { s with workerAt := .top }) := by
  unfold afterTake
  cases s.runFlag <;> cases eot <;> simp

theorem workerTurn_cases {s t : State} (h : workerTurn s = .ok t) :
    (s.workerAt = .top ∧ s.runFlag = false ∧ t = workerExit false s) ∨
    (s.workerAt = .top ∧ s.runFlag = true ∧ iterate (drawUpdate s) = .ok t) ∨
    (∃ eot, s.workerAt = .takeHold eot ∧ t = afterTake eot s) ∨
    (s.workerAt = .offerHold ∧ t = iterateRec s) ∨
    (∃ self, s.workerAt = .exitHold self ∧ t = finishExit self s) := by
  unfold workerTurn at h
  split at h
  · rename_i hw
    unfold workerLoop at h
    split at h
    · exact .inl ⟨hw, ‹_›, (ok_inj.1 h).symm⟩
    · rename_i hf
      exact .inr (.inl ⟨hw, by simpa using hf, h⟩)
  · exact .inr (.inr (.inl ⟨_, ‹_›, (ok_inj.1 h).symm⟩))
  · exact .inr (.inr (.inr (.inl ⟨‹_›, (ok_inj.1 h).symm⟩)))
  · exact .inr (.inr (.inr (.inr ⟨_, ‹_›, (ok_inj.1 h).symm⟩)))

/-- The worker's turn: nothing while it holds, and else one step with a tape loaded. -/
theorem workerStep_cases {s t : State} (h : workerStep s = .next t) :
    (workerHolds s = true ∧ t = s) ∨
    (workerHolds s = false ∧ s.workerAlive = true ∧ s.loaded = true ∧ workerTurn s = .ok t) := by
  unfold workerStep at h
  split at h
  · exact .inl ⟨‹_›, (next_inj.1 h).symm⟩
  · rename_i hh
    obtain ⟨hl, h⟩ := withTape_next_iff.1 h
    obtain ⟨u, hu, h⟩ := andThen_next_iff.1 h
    cases h
    refine .inr ⟨by simpa using hh, ?_, hl, hu⟩
    cases ha : s.workerAlive with
    | true => rfl
    | false => exact absurd (by simp [workerHolds, ha]) hh

/-- A worker at the top of its loop that is not cancelled draws and iterates (R301). -/
theorem workerStep_top {s : State} (hl : s.loaded = true) (ha : s.workerAlive = true) (hw : s.workerAt = .top)
    (hf : s.runFlag = true) : workerStep s = andThen (iterate (drawUpdate s)) .next := by
  simp [workerStep, workerHolds, hl, ha, hw, hf, withTape, workerTurn, workerLoop]

/-- The writer's turn: nothing while it holds, and else one step with a tape loaded. -/
theorem writerStep_cases {s t : State} (h : writerStep s = .next t) :
    (writerHolds s = true ∧ t = s) ∨
    (writerHolds s = false ∧ s.writerAlive = true ∧ s.loaded = true ∧ writerTurn s = .ok t) := by
  unfold writerStep at h
  split at h
  · exact .inl ⟨‹_›, (next_inj.1 h).symm⟩
  · rename_i hh
    obtain ⟨hl, h⟩ := withTape_next_iff.1 h
    obtain ⟨u, hu, h⟩ := andThen_next_iff.1 h
    cases h
    refine .inr ⟨by simpa using hh, ?_, hl, hu⟩
    cases ha : s.writerAlive with
    | true => rfl
    | false => exact absurd (by simp [writerHolds, ha]) hh

/-! ### The dispatcher -/

theorem dispatcherStep_cases {s t : State} (h : dispatcherStep s = .next t) :
    (∃ k, s.dispatcherAt = .joining k ∧ s.workerAlive = true ∧ t = s) ∨
    (∃ k, s.dispatcherAt = .joining k ∧ s.workerAlive = false ∧ resume k { s with dispatcherAt := .idle } = .next t) ∨
    (s.dispatcherAt = .idle ∧ s.cmdQ = [] ∧ t = s) ∨
    (∃ x q, s.dispatcherAt = .idle ∧ s.cmdQ = x :: q ∧ runItem x { s with cmdQ := q } = .next t) := by
  unfold dispatcherStep at h
  split at h
  · rename_i k hk
    split at h
    · exact .inl ⟨k, hk, ‹_›, (next_inj.1 h).symm⟩
    · rename_i ha
      exact .inr (.inl ⟨k, hk, by simpa using ha, h⟩)
  · rename_i hk
    split at h
    · exact .inr (.inr (.inl ⟨hk, ‹_›, (next_inj.1 h).symm⟩))
    · exact .inr (.inr (.inr ⟨_, _, hk, ‹_›, h⟩))

/-- A command byte: an unlisted byte changes nothing, and a listed one is its command. -/
theorem runByte_cases {b : Byte} {s t : State} (h : runByte b s = .next t) :
    t = s ∨ ∃ i, exec i s = .next t := by
  unfold runByte at h
  split at h
  · exact .inr ⟨_, h⟩
  · split at h
    · exact .inl (next_inj.1 h).symm
    · cases h

theorem startOperation_some {m : Mode} {s t : State} (h : startOperation m s = some t) :
    isRunningMode m = true := by
  cases m <;> simp_all [startOperation, isRunningMode]

/-- A running mode that starts, with no worker alive. -/
theorem finishStart_cases {m : Mode} {s t : State} (h : finishStart m s = .next t) :
    s.loaded = true ∧ ∃ s1,
      startOperation m { s with mode := m, running := true, recEntered := s.recEntered && m == .record } = some s1 ∧
      t = publishSensor (spawnWorker m s1) := by
  unfold finishStart at h
  obtain ⟨hl, h⟩ := withTape_next_iff.1 h
  split at h
  · cases h
  · split at h
    · rename_i s1 h1
      exact ⟨hl, s1, h1, (next_inj.1 h).symm⟩
    · cases h

/-- The end of a start command's join: mode STOP if a device flag is set, and else the running mode starts. -/
theorem resumeStart_cases {m : Mode} {s t : State} (h : resumeStart m s = .next t) :
    (gated s = true ∧ t = finishStop s) ∨ (gated s = false ∧ finishStart m s = .next t) := by
  unfold resumeStart at h
  split at h
  · exact .inl ⟨‹_›, (next_inj.1 h).symm⟩
  · rename_i hg
    exact .inr ⟨by simpa using hg, h⟩

theorem startMode_cases {m : Mode} {s t : State} (h : startMode m s = .next t) :
    t = s ∨
    (s.loaded = true ∧ s.mode ≠ m ∧
      ((s.workerAlive = true ∧ t = { s with runFlag := false, dispatcherAt := .joining (.start m) }) ∨
       (s.workerAlive = false ∧ finishStart m s = .next t))) := by
  unfold startMode at h
  split at h
  · exact .inl (next_inj.1 h).symm
  · rename_i hc
    simp only [not_or, Bool.not_eq_false, Bool.not_eq_true] at hc
    exact .inr ⟨hc.1, hc.2.2, stopWorker_next_iff.1 h⟩

/-- What a command can do: nothing, start a running mode, EJECT, STOP, or send a frame. -/
theorem exec_cases {i : Instr} {s t : State} (h : exec i s = .next t) :
    (∃ m, isRunningMode m = true ∧ startMode m s = .next t) ∨
    (i = .eject ∧ execEject s = .next t) ∨ (i = .stop ∧ execStop s = .next t) ∨
    (∃ kind value, t = send kind value s) := by
  cases i with
  | eject => exact .inr (.inl ⟨rfl, h⟩)
  | stop => exact .inr (.inr (.inl ⟨rfl, h⟩))
  | play => exact .inl ⟨_, rfl, h⟩
  | ff => exact .inl ⟨_, rfl, h⟩
  | rew => exact .inl ⟨_, rfl, h⟩
  | aff => exact .inl ⟨_, rfl, h⟩
  | arew => exact .inl ⟨_, rfl, h⟩
  | record => exact .inl ⟨_, rfl, h⟩
  | status => exact .inr (.inr (.inr ⟨_, _, (next_inj.1 h).symm⟩))
  | sensor => exact .inr (.inr (.inr ⟨_, _, (next_inj.1 h).symm⟩))

/-- Closing the image: the staged byte and, for a writable MODERN image, the position bytes are written, and no tape is
loaded. -/
theorem ejectTape_cases {s t : State} (h : ejectTape s = .ok t) :
    ∃ u v, flush s = .ok u ∧ persistPosition u = .ok v ∧
      t = { v with
        loaded := false, cacheIdx := none, mode := .eject, running := false, recEntered := false
        rspQ := t.rspQ, evtQ := v.evtQ ++ [.eject] } := by
  unfold ejectTape closeImage at h
  obtain ⟨c, hc, h⟩ := bind_ok_iff.1 h
  obtain ⟨u, hu, hc⟩ := bind_ok_iff.1 hc
  obtain ⟨v, hv, hc⟩ := bind_ok_iff.1 hc
  cases hc
  cases h
  exact ⟨u, v, hu, hv, rfl⟩

theorem persistPosition_frame {s t : State} (h : persistPosition s = .ok t) : t = { s with img := t.img } := by
  unfold persistPosition at h
  split at h
  · exact imgWriteBytes_frame h
  · cases h; rfl

/-- An image that opens or not, with no tape loaded. -/
theorem openAndEnter_cases {bytes : List Byte} {ro : Bool} {s t : State} (h : openAndEnter bytes ro s = .next t) :
    (∃ code, parseHeader s.params bytes ro = .error code ∧
      t = { s with hostLog := s.hostLog ++ [.inserted (some code)] }) ∨
    (∃ hd s1 c, parseHeader s.params bytes ro = .ok hd ∧ load (setTape bytes ro hd s) = .ok s1 ∧
      rateClassOf s1.params s1.t s1.altRate = some c ∧
      t = { s1 with
        mode := .stop, running := false, rateClass := c, rspQ := t.rspQ
        hostLog := s1.hostLog ++ [.inserted none] }) := by
  unfold openAndEnter at h
  split at h
  · rename_i code hp
    cases h
    exact .inl ⟨code, hp, rfl⟩
  · rename_i hd hp
    obtain ⟨s1, h1, h⟩ := andThen_next_iff.1 h
    split at h
    · cases h
    · rename_i c hc
      cases h
      exact .inr ⟨hd, s1, c, hp, h1, hc, rfl⟩

/-! ### The host and the step -/

theorem observe_eq (s : State) : observe s = { s with statusRead := (observe s).statusRead } := by
  unfold observe
  split
  · rfl
  · split <;> rfl

theorem hostStep_cases {s t : State} (h : hostStep s = .next t) :
    (s.host = [] ∧ t = s) ∨ ∃ act rest, s.host = act :: rest ∧ hostAct act rest s = .next t := by
  unfold hostStep at h
  split at h
  · exact .inl ⟨‹_›, (next_inj.1 h).symm⟩
  · exact .inr ⟨_, _, ‹_›, h⟩

theorem receiverStep_cases {s t : State} (h : receiverStep s = .next t) :
    t = s ∨ ∃ b rest, s.cmdPort = b :: rest ∧ gated s = false ∧
      t = { s with cmdPort := rest, cmdQ := s.cmdQ ++ [.byte b] } := by
  unfold receiverStep at h
  split at h
  · exact .inl (next_inj.1 h).symm
  · rename_i hg
    split at h
    · exact .inl (next_inj.1 h).symm
    · exact .inr ⟨_, _, ‹_›, by simpa using hg, (next_inj.1 h).symm⟩

theorem hostWrite_cases {a : Nat} {v : Byte} {s t : State} (h : hostWrite a v s = .next t) :
    s.loaded = false ∧ a < s.fileSize ∧ t = { s with img := Memory.set s.img a v } := by
  unfold hostWrite at h
  split at h
  · cases h
  · rename_i hl
    obtain ⟨u, hu, h⟩ := andThen_next_iff.1 h
    cases h
    obtain ⟨h1, h2⟩ := imgWrite_ok_iff.1 hu
    exact ⟨by simpa using hl, h1, h2⟩

/-- A host action that is neither reset nor a write of the image store changes the ports, the surface and the model's own
fields alone. -/
theorem hostAct_frame {act : HostAction} {rest : List HostAction} {s t : State} (h : hostAct act rest s = .next t) :
    act = .reset ∨ (∃ a v, act = .writeImage a v) ∨
    t = { s with
      host := t.host, hostLog := t.hostLog, cmdPort := t.cmdPort, cmdQ := t.cmdQ, outValid := t.outValid,
      offer := t.offer, altRate := t.altRate, recConv := t.recConv, statusRead := t.statusRead, draws := t.draws,
      rspQ := t.rspQ, evtQ := t.evtQ, listener := t.listener, devError := t.devError,
      disconnected := t.disconnected } := by
  cases act with
  | reset => exact .inl rfl
  | writeImage a v => exact .inr (.inl ⟨a, v, rfl⟩)
  | readImage a =>
    simp only [hostAct, hostRead] at h
    split at h
    · cases h
    · obtain ⟨b, -, h⟩ := andThen_next_iff.1 h
      cases h
      exact .inr (.inr rfl)
  | offerChunk b =>
    simp only [hostAct, offerChunk] at h
    split at h
    · split at h <;> cases h <;> exact .inr (.inr rfl)
    · cases h
  | takeChunk => cases h; split <;> exact .inr (.inr rfl)
  | readStatus a =>
    simp only [hostAct, readStatus] at h
    split at h
    · split at h
      · cases h
      · cases h; exact .inr (.inr rfl)
    · split at h
      · cases h
      · cases h; exact .inr (.inr rfl)
  | takeFrame => cases h; unfold takeFrame; split <;> exact .inr (.inr rfl)
  | takeEvent =>
    cases h
    unfold takeEvent
    split
    · exact .inr (.inr rfl)
    · split <;> exact .inr (.inr rfl)
  | deviceError => cases h; unfold deviceError; split <;> exact .inr (.inr rfl)
  | deviceDisconnected => cases h; unfold deviceDisconnected; split <;> exact .inr (.inr rfl)
  | pushPort b => cases h; exact .inr (.inr rfl)
  | issue b => cases h; exact .inr (.inr rfl)
  | insert b ro => cases h; exact .inr (.inr rfl)
  | setAltRate v => cases h; exact .inr (.inr rfl)
  | setRecConv v => cases h; exact .inr (.inr rfl)
  | listen => cases h; exact .inr (.inr rfl)

/-- A step is one agent's turn, after which a pending status read has seen the new value. -/
theorem step_next_iff {s t : State} :
    step s = .next t ↔
      ∃ u, agentStep (nextAgent s) { s with sched := s.sched.tail } = .next u ∧ t = observe u :=
  mapNext_next_iff

end Sys2Proof.Laws
end

