-- ==== Sys2Proof/Laws/PerInstr.lean ====
section
/-! SUPPORT. What holds of every command as syntax, one lemma for each constructor. -/

namespace Sys2Proof.Laws.OneByte

/-- A command is one byte of the opcode table (R120): its encoding is one byte, a byte of the table, and the row of the table
that holds that byte is the command's own. -/
def Statement (i : Instr) : Prop :=
  encode i = [encodeByte i] ∧ encodeByte i ∈ commandBytes ∧
    opcodeTable.filter (fun r => r.hit (encodeByte i)) = [⟨0xff, encodeByte i, i⟩]

theorem eject : Statement .eject := ⟨rfl, by decide, by decide⟩
theorem stop : Statement .stop := ⟨rfl, by decide, by decide⟩
theorem play : Statement .play := ⟨rfl, by decide, by decide⟩
theorem ff : Statement .ff := ⟨rfl, by decide, by decide⟩
theorem rew : Statement .rew := ⟨rfl, by decide, by decide⟩
theorem aff : Statement .aff := ⟨rfl, by decide, by decide⟩
theorem arew : Statement .arew := ⟨rfl, by decide, by decide⟩
theorem record : Statement .record := ⟨rfl, by decide, by decide⟩
theorem status : Statement .status := ⟨rfl, by decide, by decide⟩
theorem sensor : Statement .sensor := ⟨rfl, by decide, by decide⟩

end Sys2Proof.Laws.OneByte
end

