-- ==== Sys2Proof/Tests/Slice0.lean ====
section
/-! SUPPORT. Tests whose expected values come from the spec (its tables, its worked examples, its test vectors), the smoke
tests of the well-formedness checks, and a witness for the hypotheses of every statement that has hypotheses. -/

namespace Sys2Proof.Tests

open Sys2Proof.Machine Sys2Proof.Laws

/-! ### States -/

/-- Parameters of the test programs: CHUNK_BYTES = 2 (P1 of 95_test_vectors.md). -/
def params : Params := { chunkBytes := 2 }

/-- Reset with known parameters. -/
def idle (p : Params) : State := { State.reset with params := p }

/-- A LEGACY image `80 BB 00 00` and three data bytes (t = 48000, 24 samples), open at `pos`, in mode STOP. -/
def tape (p : Params) (ro : Bool) (pos : Nat) : State :=
  { idle p with
    img := [(0, 0x80), (1, 0xbb), (4, 0xa5), (5, 0x3c), (6, 0xf0)]
    fileSize := 7
    loaded := true
    t := 48000
    totalBits := 24
    pos := pos
    protect := ro
    readOnly := ro
    cacheIdx := if pos < 24 then some (pos / 8) else none
    cacheByte := Memory.get [(0, 0x80), (1, 0xbb), (4, 0xa5), (5, 0x3c), (6, 0xf0)] (4 + pos / 8)
    mode := .stop }

/-- The writable tape at its start. -/
def start : State := tape params false 0

/-- A worker of mode `m` on a state. -/
def running (m : Mode) (s : State) : State :=
  { s with mode := m, running := true, workerAlive := true, workerMode := m, runFlag := true }

/-- A writable MODERN image of one data byte, with sample 0 staged as 0 and position 0. -/
def staged : State :=
  { idle params with
    img := [(28, 0x80), (29, 0xbb), (40, 0xff)]
    fileSize := 41
    loaded := true
    variant := .modern
    t := 48000
    totalBits := 8
    cacheIdx := some 0
    cacheByte := 0x7f
    dirty := true
    mode := .stop }

theorem tape_memInv (p : Params) (ro : Bool) (pos : Nat) : MemInv (tape p ro pos) :=
  ⟨by show Memory.wf [(0, 0x80), (1, 0xbb), (4, 0xa5), (5, 0x3c), (6, 0xf0)]; decide,
   by show ∀ c ∈ [((0 : Nat), (0x80 : Byte)), (1, 0xbb), (4, 0xa5), (5, 0x3c), (6, 0xf0)], c.1 < 7; decide⟩

theorem tape_tapeInv {p : Params} {ro : Bool} {pos : Nat} (hp : 24 ≤ p.posMax) (h : pos ≤ 24) : TapeInv (tape p ro pos) where
  rate _ := ⟨by show 8000 ≤ 48000; decide, by show 48000 ≤ 48000; decide⟩
  header _ := by show 4 ≤ 7; decide
  size _ := rfl
  bound _ := hp
  posLe _ := h
  cached _ := rfl
  clean _ _ _ := rfl
  staged h := by cases h
  legacy _ _ := rfl

theorem start_memInv : MemInv start := tape_memInv _ _ _
theorem start_tapeInv : TapeInv start := tape_tapeInv (by decide) (by decide)

theorem start_ctrlInv : CtrlInv start := by
  constructor <;> simp [start, tape, idle, State.reset, isRunningMode]

theorem staged_memInv : MemInv staged := ⟨by decide, by decide⟩

theorem staged_tapeInv : TapeInv staged := by
  constructor <;> simp [staged, idle, State.reset, params, hdr, headerSize, maxPosition, cacheIdxAt]

/-! ### Well-formedness: every check refuses something -/

theorem test_command_wf :
    wellFormedCommand [0x0a] = true ∧ wellFormedCommand [] = false ∧ wellFormedCommand [0x07] = false ∧
      wellFormedCommand [0x02, 0x02] = false := by decide

theorem test_chunk_wf : wellFormedChunk params [1, 2] = true ∧ wellFormedChunk params [1] = false := by decide

theorem test_params_wf : params.wf = true := by decide
theorem test_params_chunk : ({ params with chunkBytes := 0 } : Params).wf = false := by decide
theorem test_params_magic : ({ params with modernMagic := [1, 2, 3] } : Params).wf = false := by decide
theorem test_params_tick : ({ params with seekTickMs := 0 } : Params).wf = false := by decide
theorem test_params_kinds : ({ params with kindRequestAck := 0 } : Params).wf = false := by decide
theorem test_params_sensor : ({ params with sensorBitNotwp := 0 } : Params).wf = false := by decide
theorem test_params_modes : ({ params with modeCode := { stop := 8 } } : Params).wf = false := by decide
theorem test_params_classes : ({ params with rateClassCode := { c32k := 0 } } : Params).wf = false := by decide
theorem test_params_alt : ({ params with hostRateAlt := 0 } : Params).wf = false := by decide
theorem test_params_alt_max : ({ params with hostRateAlt := 48001 } : Params).wf = false := by decide
theorem test_params_posMax : ({ params with posMax := 4294967294 } : Params).wf = false := by decide

/-! ### Decoding: the words of R120, bit by bit -/

theorem test_decode_eject : decodeTableWord 8 0b00000000 = some .eject := by decide
theorem test_decode_stop : decodeTableWord 8 0b00000001 = some .stop := by decide
theorem test_decode_play : decodeTableWord 8 0b00000010 = some .play := by decide
theorem test_decode_ff : decodeTableWord 8 0b00000011 = some .ff := by decide
theorem test_decode_rew : decodeTableWord 8 0b00000100 = some .rew := by decide
theorem test_decode_aff : decodeTableWord 8 0b00000101 = some .aff := by decide
theorem test_decode_arew : decodeTableWord 8 0b00000110 = some .arew := by decide
theorem test_decode_record : decodeTableWord 8 0b00001010 = some .record := by decide
theorem test_decode_status : decodeTableWord 8 0b10000000 = some .status := by decide
theorem test_decode_sensor : decodeTableWord 8 0b10000001 = some .sensor := by decide
theorem test_decode_unlisted :
    ([0x07, 0x08, 0x09, 0x0b, 0x7f, 0x82, 0xff].all fun w => (decodeTableWord 8 w).isNone) = true := by decide
theorem test_rows_disjoint :
    opcodeTable.Pairwise (fun r q => r.pattern &&& q.mask ≠ q.pattern &&& r.mask) := by decide

/-! ### Data forms: 95_test_vectors.md section 2.1 -/

theorem test_halfCycle :
    [8000, 11025, 12000, 16000, 22050, 24000, 32000, 44100, 48000].map halfCycle = [1, 1, 2, 2, 3, 3, 4, 6, 6] := by
  decide

theorem test_window :
    [8000, 11025, 22050, 48000].map apssWindow = [28000, 38587, 77175, 168000] ∧
      [8000, 32000, 44100, 48000].map (apssTolerance 44100) = [0, 0, 1, 2] ∧
      [8000, 11025, 44100].map (fun t => seekSteps t 1) = [144, 198, 792] := by decide

theorem test_edge_constants :
    [32000, 44100, 48000].map sampleOffset = [6, 8, 9] ∧ [32000, 44100, 48000].map longGap = [16, 22, 24] := by decide

/-! ### Operations: the vectors of 95_test_vectors.md sections 2.2 to 2.8 -/

/-- One byte of a tape of `total` samples at `pos`, for the cursor vectors. -/
def oneByte (b : Byte) (pos : Nat) : State :=
  { idle params with img := Memory.ofBytes 0 [0, 0x7d, 0, 0, b], fileSize := 5, loaded := true, t := 32000, totalBits := 8,
                     pos := pos, cacheIdx := some 0, cacheByte := b, mode := .stop }

/-- CU6: byte `00`, pos 3, write(1) then flush(): cacheByte `10`, store `10`, dirty 0. -/
theorem test_write_then_flush :
    ((writeSample true (oneByte 0x00 3) >>= flush).toOption.map fun s =>
      (s.cacheByte, Memory.get s.img 4, s.dirty)) = some (0x10, 0x10, false) := by decide

/-- CU3: total 8, pos 7: a step is OK at pos 8, the next BOUNDARY. -/
theorem test_step_forward :
    ((stepForward (oneByte 0xff 7)).toOption.map fun r => (r.1, r.2.pos, r.2.cacheIdx)) = some (.ok, 8, none) := by decide

/-- IM4: MODERN, 42 bytes, rate `44 AC 00 00`, pos `10 00 00 00`. -/
theorem test_parse_modern :
    (parseHeader { modernMagic := [1, 2, 3, 4] }
      ([1, 2, 3, 4] ++ List.replicate 24 0 ++ [0x44, 0xac, 0, 0] ++ [0, 0, 0, 0] ++ [0x10, 0, 0, 0] ++ [0, 0])
      false).toOption = some ⟨.modern, 44100, 16, 16, false⟩ := by decide

/-- IM3b: rate 7999 is BAD_RATE. -/
theorem test_parse_badRate : (parseHeader params [0x3f, 0x1f, 0, 0] false).toOption = none := by decide

/-- PB1: t = h = 48000, `A5 3C`: fillOutput(2) gives `A5 3C`, no end, pos 16, acc 24000. -/
theorem test_fillOutput :
    ((fillOutput 2 (startPlay start)).toOption.map fun r => (r.1, r.2.1, r.2.2.pos, r.2.2.acc)) =
      some ([0xa5, 0x3c], false, 16, 24000) := by decide

/-- PB6: t = 32000, h = 48000, `A5`: fillOutput(2) gives `91 B0` at the end of the tape. -/
theorem test_fillOutput_end :
    ((fillOutput 2 (startPlay (oneByte 0xa5 0))).toOption.map fun r => (r.1, r.2.1, r.2.2.pos, r.2.2.acc)) =
      some ([0x91, 0xb0], true, 8, 24000) := by decide

/-- RR6: RAW at equal rates: the ninth commit finds the end of an 8-sample tape and ends the session. -/
theorem test_raw_end :
    ((recordBits (List.replicate 9 false)
        (startWrite { oneByte 0x00 0 with t := 48000 })).toOption.map fun s => (s.ended, s.pos, s.cacheByte)) =
      some (true, 8, 0xff) := by decide

/-- ER6: the first five samples of the symbol of 1 at 48000: no symbol, ADVANCE with k = 4; the cancel pads 5. -/
theorem test_edge_partial :
    ((recordBits (List.replicate 5 false) (startWrite { start with recConv := true }) >>= fun s =>
      cancelEnd s >>= fun u => Except.ok (s.phase, s.k, s.pos, u.pos)).toOption) = some (.advance, 4, 0, 5) := by decide

/-- As FW6 (t = 8000, one tick of 1 ms is 144 samples), on a tape of 24 samples: BOUNDARY at the end. -/
theorem test_seek_boundary :
    ((seekTick 1 .fwd { start with t := 8000 }).toOption.map fun r => (r.1, r.2.pos)) = some (.boundary, 24) := by decide

/-- AP8: at position 0 a backward APSS tick is BOUNDARY at once. -/
theorem test_apss_boundary :
    ((apssTick 1 .bwd start).toOption.map fun r => (r.1, r.2.pos)) = some (.boundary, 0) := by decide

/-! ### Commands: 95_test_vectors.md section 2.9. `SNS{R,T,W}` is 7 with the default sensor bits -/

/-- What a test looks at: the frames, the mode and RUNNING. -/
def seen (r : Result) : Option (List (Byte × Byte) × Mode × Bool) :=
  match r with
  | .next s => some (s.rspQ.map (fun f => (f.kind, f.value)), s.mode, s.running)
  | .fault _ => none
  | .refused _ => none

/-- CM1: SENSOR at reset sends `SC(SNS{})`. -/
theorem test_sensor_reset : seen (exec .sensor (idle params)) = some ([(0, 0x00)], .eject, false) := by decide
/-- CM10: SENSOR on a protected tape sends `SC(SNS{T})`. -/
theorem test_sensor_protected :
    seen (exec .sensor (tape params true 0)) = some ([(0, 0x02)], .stop, false) := by decide
/-- CM2: STATUS at reset sends `ST(EJECT)`; EJECT has code 8 here. -/
theorem test_status_reset : seen (exec .status (idle params)) = some ([(1, 0x08)], .eject, false) := by decide
/-- CM3: PLAY at reset is ignored. -/
theorem test_play_reset : seen (exec .play (idle params)) = some ([], .eject, false) := by decide
/-- PLAY on an open tape: `SC(SNS{R,T,W})`. -/
theorem test_play : seen (exec .play start) = some ([(0, 0x07)], .play, true) := by decide
/-- CM4: STOP at reset: `SC(SNS{})`, `ACK`, mode EJECT. -/
theorem test_stop_reset : seen (exec .stop (idle params)) = some ([(0, 0x00), (2, 0x01)], .eject, false) := by decide
/-- CM5: EJECT at reset: nothing. -/
theorem test_eject_reset : seen (exec .eject (idle params)) = some ([], .eject, false) := by decide
/-- CM9: EJECT from STOP: `SC(SNS{})`. -/
theorem test_eject : seen (exec .eject start) = some ([(0, 0x00)], .eject, false) := by decide
/-- CM6: FF: `SC(SNS{R,T,W})`. -/
theorem test_ff : seen (exec .ff start) = some ([(0, 0x07)], .fastForward, true) := by decide
/-- CM8: REW while PLAY runs holds for the worker and sends nothing yet. -/
theorem test_rew_while_play : seen (exec .rew (running .play start)) = some ([], .play, true) := by decide
theorem test_aff : seen (exec .aff start) = some ([(0, 0x07)], .autoFastForward, true) := by decide
theorem test_arew : seen (exec .arew start) = some ([(0, 0x07)], .autoRewind, true) := by decide
theorem test_record : seen (exec .record start) = some ([(0, 0x07)], .record, true) := by decide
/-- CM7: REC while RECORD runs changes nothing. -/
theorem test_record_again :
    seen (exec .record (running .record start)) = some ([], .record, true) := by decide
/-- The step fetches the placed command and runs it first. -/
theorem test_step_fetches :
    seen (step (State.withFetchWord (idle params) 8 0x81)) = some ([(0, 0x00)], .eject, false) := by decide

/-! ### Witnesses: for every statement with hypotheses, states and operands that meet them, each clause at a boundary -/

/-- A command byte at the head of `cmdQ`. -/
def withByte (b : Byte) (s : State) : State := { s with cmdQ := [.byte b] }

/-- The parameters under other policies. -/
def ignoring : Params := { params with unlistedCmdPolicy := .ignore }
def inhibiting : Params := { params with recProtectPolicy := .inhibit }
def writing : Params := { params with recProtectPolicy := .write }
def keeping : Params := { params with tieRule := .keepTape }

theorem witness_CommandBytesDecode :
    (0x07 : Byte) ∉ commandBytes ∧ (0x09 : Byte) ∉ commandBytes ∧ (0x0b : Byte) ∉ commandBytes ∧
      (0x7f : Byte) ∉ commandBytes ∧ (0x82 : Byte) ∉ commandBytes ∧ (0xff : Byte) ∉ commandBytes := by decide

theorem witness_DecodeEncodeAgree :
    Instr.record.wellFormed = true ∧ decode [0x0a, 0x07] = .ok (.record, [0x07]) := ⟨rfl, rfl⟩

theorem witness_UnlistedByteFollowsPolicy :
    ((withByte 0x07 (idle ignoring)).dispatcherAt = .idle ∧ (withByte 0x07 (idle ignoring)).cmdQ = .byte 0x07 :: [] ∧
      (0x07 : Byte) ∉ commandBytes ∧ (withByte 0x07 (idle ignoring)).params.unlistedCmdPolicy = .ignore) ∧
    ((withByte 0x82 (idle params)).dispatcherAt = .idle ∧ (withByte 0x82 (idle params)).cmdQ = .byte 0x82 :: [] ∧
      (0x82 : Byte) ∉ commandBytes ∧ (withByte 0x82 (idle params)).params.unlistedCmdPolicy = .refuse) := by decide

theorem witness_StepRunsDecodedCommand :
    (nextAgent (withByte 0x0a start) = .dispatcher ∧ (withByte 0x0a start).dispatcherAt = .idle ∧
      (withByte 0x0a start).cmdQ = .byte 0x0a :: [] ∧ decode [0x0a] = .ok (.record, []) ∧
      Instr.record.wellFormed = true) ∧
    decodeTableWord 8 0x81 = some .sensor ∧
    ({ start with cmdPort := [0x00] }.cmdPort = 0x00 :: [] ∧ start.devError = false ∧ start.disconnected = false) :=
  ⟨⟨by decide, rfl, rfl, rfl, rfl⟩, by decide, rfl, rfl, rfl⟩

theorem witness_HoldingAgentTakesNoStep :
    ([Agent.receiver, .dispatcher, .worker, .writer, .host].all fun a => holds a (idle params)) = true ∧
      { start with sched := [Agent.writer] }.sched = .writer :: [] := by decide

theorem witness_SensorByteBits :
    (idle params).loaded = false ∧ (idle params).params.wf = true ∧ (2 : Fin 8) = (idle params).params.sensorBitNotwp := by
  decide

theorem witness_StopWithNoWorker : start.workerAlive = false ∧ (idle params).workerAlive = false := by decide

theorem witness_ModeCommandJoinsWorker :
    let s := running .play start
    s.workerAlive = true ∧ s.mode ≠ .eject ∧ startTarget .ff = some .fastForward ∧ s.loaded = true ∧
      s.devError = false ∧ s.disconnected = false ∧ s.mode ≠ .fastForward ∧
      ({ s with dispatcherAt := .joining .stop } : State).dispatcherAt = .joining .stop := by decide

theorem witness_JoinEndsThenCommandCompletes :
    ({ start with dispatcherAt := .joining .stop } : State).workerAlive = false ∧
    ({ start with dispatcherAt := .joining .stop } : State).dispatcherAt = .joining .stop ∧
    (({ start with dispatcherAt := .joining .eject } : State).dispatcherAt = .joining .eject ∧ start.mode ≠ .eject) ∧
    (startTarget .rew = some .rewind ∧
      ({ start with dispatcherAt := .joining (.start .rewind) } : State).dispatcherAt = .joining (.start .rewind) ∧
      start.loaded = true ∧ start.devError = false ∧ start.disconnected = false ∧ start.mode ≠ .rewind) ∧
    (startTarget .record = some .record ∧
      (let s : State := { start with dispatcherAt := .joining (.start .record), devError := true }
       s.dispatcherAt = .joining (.start .record) ∧ s.loaded = true ∧ (s.devError = true ∨ s.disconnected = true) ∧
         s.mode ≠ .record)) := by decide

theorem witness_EjectClosesTheTape :
    (idle params).mode = .eject ∧
    (MemInv start ∧ TapeInv start ∧ start.loaded = true ∧ start.mode ≠ .eject ∧ start.workerAlive = false) ∧
    (MemInv staged ∧ TapeInv staged ∧ staged.loaded = true ∧ staged.mode ≠ .eject ∧ staged.workerAlive = false ∧
      staged.dirty = true ∧ staged.variant = .modern ∧ staged.readOnly = false) :=
  ⟨rfl, ⟨start_memInv, start_tapeInv, rfl, by decide, rfl⟩,
   staged_memInv, staged_tapeInv, rfl, by decide, rfl, rfl, rfl, rfl⟩

theorem witness_StartIgnoredWithoutEffect :
    (startTarget .play = some .play ∧ (idle params).loaded = false) ∧
    (startTarget .record = some .record ∧ ({ start with devError := true } : State).devError = true) ∧
    (startTarget .aff = some .autoFastForward ∧ ({ start with disconnected := true } : State).disconnected = true) ∧
    (startTarget .arew = some .autoRewind ∧ (running .autoRewind start).mode = .autoRewind) := by decide

theorem witness_PlayStarts :
    start.loaded = true ∧ start.devError = false ∧ start.disconnected = false ∧ start.mode ≠ .play ∧
      start.workerAlive = false := by decide

theorem witness_WindStarts :
    (Instr.rew = .ff ∧ Mode.rewind = .fastForward ∨ Instr.rew = .rew ∧ Mode.rewind = .rewind) ∧ start.loaded = true ∧
      start.devError = false ∧ start.disconnected = false ∧ start.mode ≠ .rewind ∧ start.workerAlive = false := by decide

theorem witness_WindStarts_apss :
    (Instr.aff = .aff ∧ Mode.autoFastForward = .autoFastForward ∨
      Instr.aff = .arew ∧ Mode.autoFastForward = .autoRewind) ∧ start.loaded = true ∧
      start.devError = false ∧ start.disconnected = false ∧ start.mode ≠ .autoFastForward ∧
      start.workerAlive = false := by decide

theorem witness_RecordStarts :
    (start.loaded = true ∧ start.devError = false ∧ start.disconnected = false ∧ start.mode ≠ .record ∧
      start.workerAlive = false ∧ start.recEntered = false ∧
      (start.protect = false ∧ start.readOnly = false ∨ start.params.recProtectPolicy ≠ .refuse)) ∧
    ((tape writing true 0).protect = true ∧ (tape writing true 0).params.recProtectPolicy ≠ .refuse) := by decide

theorem witness_ProtectedTapeFollowsPolicy :
    ((tape params true 0).loaded = true ∧ (tape params true 0).protect = true ∧
      (tape params true 0).params.recProtectPolicy = .refuse ∧ (tape params true 0).devError = false ∧
      (tape params true 0).disconnected = false ∧ (tape params true 0).mode ≠ .record ∧
      (tape params true 0).workerAlive = false) ∧
    (MemInv (tape inhibiting true 23) ∧ TapeInv (tape inhibiting true 23) ∧ (tape inhibiting true 23).ended = false ∧
      (tape inhibiting true 23).pos < (tape inhibiting true 23).totalBits ∧
      (tape inhibiting true 23).params.recProtectPolicy = .inhibit) ∧
    (MemInv (tape writing true 0) ∧ TapeInv (tape writing true 0) ∧ (tape writing true 0).ended = false ∧
      (tape writing true 0).pos < (tape writing true 0).totalBits ∧
      (tape writing true 0).params.recProtectPolicy = .write) :=
  ⟨by decide, ⟨tape_memInv _ _ _, tape_tapeInv (by decide) (by decide), rfl, by decide, rfl⟩,
   tape_memInv _ _ _, tape_tapeInv (by decide) (by decide), rfl, by decide, rfl⟩

/-- A RECORD worker and its writer. -/
def recording : State := { running .record start with writerAlive := true, recEntered := true }

theorem witness_WorkerExitIsTheTrapEntry :
    ((running .play start).workerMode ≠ .record ∨ (running .play start).writerAlive = false) ∧
    (recording.workerMode = .record ∧ recording.writerAlive = true) ∧
    (let s : State := { recording with workerAt := .exitHold false, writerAlive := false, runFlag := false }
     s.workerAlive = true ∧ s.loaded = true ∧ s.workerAt = .exitHold false ∧ s.writerAlive = false ∧
       s.workerMode = .record ∧ s.runFlag = false) := by decide

theorem witness_DeviceErrorStopsTheMode :
    (start.devError = false ∧ start.disconnected = false) ∧
    (({ start with devError := true } : State).devError = true ∨
      ({ start with devError := true } : State).disconnected = true) ∧
    (({ running .play start with cmdQ := [.devErr] } : State).dispatcherAt = .idle ∧
      ({ running .play start with cmdQ := [.devErr] } : State).cmdQ = .devErr :: [] ∧
      (running .play start).workerAlive = true ∧ start.workerAlive = false) ∧
    (({ start with dispatcherAt := .joining .devErr } : State).dispatcherAt = .joining .devErr) := by decide

theorem witness_DeviceErrorStopsTheMode_disconnect :
    start.disconnected = false ∧ ({ start with disconnected := true } : State).disconnected = true ∧
    (({ running .play start with cmdQ := [.disconn] } : State).dispatcherAt = .idle ∧
      ({ running .play start with cmdQ := [.disconn] } : State).cmdQ = .disconn :: [] ∧
      (running .play start).workerAlive = true ∧ start.workerAlive = false) ∧
    (({ start with dispatcherAt := .joining .disconn } : State).dispatcherAt = .joining .disconn) := by decide

theorem witness_DeviceGateClosesThePorts :
    let s : State := { recording with devError := true, workerAt := .offerHold, host := [.takeChunk] }
    (s.devError = true ∨ s.disconnected = true) ∧ s.host = .takeChunk :: [] ∧ s.workerAlive = true ∧
      s.workerAt = .offerHold ∧ s.writerAlive = true ∧ s.runFlag = true ∧ startTarget .play = some .play ∧
      ({ start with devError := true } : State).workerAlive = false := by decide

/-- REW in the join of a PLAY worker that has stopped, with the device gated by then. -/
def gatedJoin : State := { start with mode := .play, dispatcherAt := .joining (.start .rewind), devError := true }

theorem witness_DeviceGateClosesThePorts_join :
    (gatedJoin.devError = true ∨ gatedJoin.disconnected = true) ∧ gatedJoin.workerAlive = false ∧
      ∃ t, agentStep .dispatcher gatedJoin = .next t ∧ t.mode ≠ gatedJoin.mode := ⟨.inl rfl, rfl, _, rfl, by decide⟩

/-- R309, D36: no mode starts, and nothing is sent. -/
theorem test_gated_join : seen (agentStep .dispatcher gatedJoin) = some ([], .stop, false) := by decide

/-- A RECORD worker at the top of its loop, with a chunk offered and the device gated. -/
theorem witness_DeviceGateClosesThePorts_top :
    let s : State := { recording with disconnected := true, offer := some [1, 2] }
    (s.devError = true ∨ s.disconnected = true) ∧ s.workerAlive = true ∧ s.loaded = true ∧ s.workerMode = .record ∧
      s.workerAt = .top ∧ s.writerAlive = true ∧ s.runFlag = true := by decide

/-- A dispatcher step with a SENSOR command waiting. -/
def stepping (s : State) : State := s.withFetchWord 8 0x81

theorem witness_OnlyResetClearsDeviceFlags :
    (∃ t, step (stepping { start with devError := true, disconnected := true }) = .next t) ∧
      ¬ isResetTurn (stepping { start with devError := true, disconnected := true }) :=
  ⟨⟨_, rfl⟩, fun h => by cases h.1⟩

/-- A MODERN image of 40 header bytes with magic 0, rate `r0 r1` and data of `n` zero bytes. -/
def modernBytes (r0 r1 : Byte) (n : Nat) : List Byte :=
  List.replicate 28 0 ++ [r0, r1, 0, 0] ++ List.replicate 8 0 ++ List.replicate n 0

/-- A LEGACY image with rate `r0 r1` and `n` zero bytes of data. -/
def legacyBytes (r0 r1 : Byte) (n : Nat) : List Byte := [r0, r1, 0, 0] ++ List.replicate n 0

theorem witness_HeaderParsesAsSpecified_short : ([0x80, 0xbb, 0] : List Byte).length < 4 := by decide

theorem witness_HeaderParsesAsSpecified_modern :
    (40 ≤ (modernBytes 0x40 0x1f 0).length ∧ (modernBytes 0x40 0x1f 0).take 4 = params.modernMagic ∧
      8000 ≤ imageField (modernBytes 0x40 0x1f 0) 28 ∧ imageField (modernBytes 0x40 0x1f 0) 28 ≤ 48000 ∧
      ((modernBytes 0x40 0x1f 0).length - 40) * 8 ≤ 2 ^ 32 - 1) ∧
    imageField (modernBytes 0x3f 0x1f 0) 28 < 8000 ∧ 48000 < imageField (modernBytes 0x81 0xbb 0) 28 := by decide

theorem witness_HeaderParsesAsSpecified_legacy :
    (4 ≤ (legacyBytes 0x80 0xbb 0).length ∧ (legacyBytes 0x80 0xbb 0).length < 40 ∧
      8000 ≤ imageField (legacyBytes 0x80 0xbb 0) 0 ∧ imageField (legacyBytes 0x80 0xbb 0) 0 ≤ 48000 ∧
      ((legacyBytes 0x80 0xbb 0).length - 4) * 8 ≤ params.posMax) ∧
    (40 ≤ (legacyBytes 0x80 0xbb 36).length ∧ (legacyBytes 0x80 0xbb 36).take 4 ≠ params.modernMagic) ∧
    imageField (legacyBytes 0x3f 0x1f 0) 0 < 8000 ∧ 48000 < imageField (legacyBytes 0x81 0xbb 0) 0 := by decide

theorem modernBytes_length (n : Nat) : (modernBytes 0x80 0xbb n).length = 40 + n := by
  simp [modernBytes]; omega

theorem legacyBytes_length (n : Nat) : (legacyBytes 0x80 0xbb n).length = 4 + n := by
  simp [legacyBytes]; omega

theorem modernBytes_rate (n : Nat) : imageField (modernBytes 0x80 0xbb n) 28 = 48000 := by
  have h : ∀ i, i < 40 → imageByte (modernBytes 0x80 0xbb n) i = imageByte (modernBytes 0x80 0xbb 0) i := by
    intro i hi
    have e : ∀ k, imageByte (modernBytes 0x80 0xbb k) i =
        (List.replicate 28 0 ++ [0x80, 0xbb, 0, 0] ++ List.replicate 8 0 : List Byte).getD i 0 :=
      fun k => List.getD_append _ _ _ _ (by simpa using hi)
    rw [e, e]
  unfold imageField
  rw [h 28 (by omega), h 29 (by omega), h 30 (by omega), h 31 (by omega)]
  decide

theorem legacyBytes_rate (n : Nat) : imageField (legacyBytes 0x80 0xbb n) 0 = 48000 := by
  have h : ∀ i, i < 4 → imageByte (legacyBytes 0x80 0xbb n) i = imageByte (legacyBytes 0x80 0xbb 0) i := by
    intro i hi
    have e : ∀ k, imageByte (legacyBytes 0x80 0xbb k) i = ([0x80, 0xbb, 0, 0] : List Byte).getD i 0 :=
      fun k => List.getD_append _ _ _ _ (by simpa using hi)
    rw [e, e]
  unfold imageField
  rw [h 0 (by omega), h 1 (by omega), h 2 (by omega), h 3 (by omega)]
  decide

/-- 2^29 data bytes are one sample too many for both variants. -/
theorem witness_HeaderParsesAsSpecified_tooLarge :
    ∃ n, (40 ≤ (modernBytes 0x80 0xbb n).length ∧ 2 ^ 32 - 1 < ((modernBytes 0x80 0xbb n).length - 40) * 8 ∧
        imageField (modernBytes 0x80 0xbb n) 28 = 48000) ∧
      (4 ≤ (legacyBytes 0x80 0xbb n).length ∧ params.posMax < ((legacyBytes 0x80 0xbb n).length - 4) * 8 ∧
        imageField (legacyBytes 0x80 0xbb n) 0 = 48000) := by
  have hp : params.posMax = 4294967295 := rfl
  refine ⟨536870912, ⟨?_, ?_, modernBytes_rate _⟩, ?_, ?_, legacyBytes_rate _⟩
  · rw [modernBytes_length]; omega
  · rw [modernBytes_length]; omega
  · rw [legacyBytes_length]; omega
  · rw [legacyBytes_length, hp]; omega

theorem witness_InsertionEntersStop :
    let s : State := { idle params with cmdQ := [.insert [0x80, 0xbb, 0, 0, 0xa5] false] }
    s.dispatcherAt = .idle ∧ s.cmdQ = .insert [0x80, 0xbb, 0, 0, 0xa5] false :: [] ∧ s.loaded = false ∧
      (parseHeader s.params [0x80, 0xbb, 0, 0, 0xa5] false).toOption = some ⟨.legacy, 48000, 8, 0, false⟩ ∧
      rateClassOf s.params 48000 s.altRate = some .c48k := by decide

theorem witness_InsertionEntersStop_loaded :
    let s : State := { start with cmdQ := [.insert [0x80, 0xbb, 0, 0] false] }
    s.dispatcherAt = .idle ∧ s.cmdQ = .insert [0x80, 0xbb, 0, 0] false :: [] ∧ s.loaded = true ∧ s.mode ≠ .eject ∧
      s.workerAlive = false ∧ (∃ u, exec .eject { s with cmdQ := [] } = .next u) ∧
      (running .play start).workerAlive = true ∧ (running .play start).mode ≠ .eject :=
  ⟨rfl, rfl, rfl, by decide, rfl, ⟨_, rfl⟩, rfl, by decide⟩

/-- The end of the join, and a rate (22050 is `22 56 00 00`) whose class is left open. -/
theorem witness_InsertionEntersStop_join_and_refusal :
    (let s : State := { start with dispatcherAt := .joining (.insert [0x80, 0xbb, 0, 0] false) }
     s.dispatcherAt = .joining (.insert [0x80, 0xbb, 0, 0] false) ∧ s.workerAlive = false) ∧
    (let s : State := { idle { params with rateClassRest := none } with cmdQ := [.insert [0x22, 0x56, 0, 0] false] }
     s.dispatcherAt = .idle ∧ s.cmdQ = .insert [0x22, 0x56, 0, 0] false :: [] ∧ s.loaded = false ∧
       (parseHeader s.params [0x22, 0x56, 0, 0] false).toOption = some ⟨.legacy, 22050, 0, 0, false⟩ ∧
       rateClassOf s.params 22050 s.altRate = none) := by decide

/-- Each read of the surface, the fault, a flag write, an issue, a registration and a waiting event. -/
theorem witness_SurfaceReadsAndWrites :
    (start.loaded = true ∧ (idle params).loaded = false) ∧
    (let s : State := { start with host := [.readStatus .position] }
     s.host = .readStatus .position :: [] ∧ s.statusRead = none ∧ statusValue .position s = some (.number 0)) ∧
    statusValue .sampleRate { idle params with host := [.readStatus .sampleRate] } = none ∧
    (let s : State := { start with host := [.readStatus .mode], statusRead := some ⟨.mode, [.mode .play, .mode .stop]⟩ }
     s.statusRead = some ⟨.mode, [.mode .play, .mode .stop]⟩ ∧ [StatusValue.mode .play, .mode .stop] ≠ []) ∧
    ({ start with host := [.setAltRate true] } : State).host = .setAltRate true :: [] ∧
    ({ start with host := [.setRecConv true] } : State).host = .setRecConv true :: [] ∧
    ({ start with host := [.issue 0x80] } : State).host = .issue 0x80 :: [] ∧
    ({ start with host := [.listen] } : State).host = .listen :: [] ∧
    (let s : State := { start with host := [.takeEvent], evtQ := [.update] }
     s.host = .takeEvent :: [] ∧ s.evtQ = .update :: []) := by decide

/-- The other actions of the host: each that runs, each that waits, and each that is turned away, at the ends of the file. -/
theorem witness_SurfaceReadsAndWrites_ports :
    ({ start with host := [.pushPort 0x02] } : State).host = .pushPort 0x02 :: [] ∧
    ({ idle params with host := [.insert [0x80, 0xbb, 0, 0] true] } : State).host = .insert [0x80, 0xbb, 0, 0] true :: [] ∧
    (let s : State := { start with host := [.takeFrame], rspQ := [⟨0, 7⟩] }
     s.host = .takeFrame :: [] ∧ s.rspQ = ⟨0, 7⟩ :: []) ∧
    (let s : State := { start with host := [.takeFrame] }
     s.host = .takeFrame :: [] ∧ s.rspQ = []) ∧
    (let s : State := { start with host := [.takeEvent] }
     s.host = .takeEvent :: [] ∧ s.evtQ = []) ∧
    (let s : State := { running .play start with host := [.takeChunk] }
     s.host = .takeChunk :: [] ∧ s.outValid = false) ∧
    (let s : State := { start with host := [.takeChunk], outValid := true }
     s.host = .takeChunk :: [] ∧ s.mode ≠ .play) ∧
    (let s : State := { recording with host := [.offerChunk [1, 2]] }
     s.host = .offerChunk [1, 2] :: [] ∧ ([1, 2] : List Byte).length = s.params.chunkBytes ∧ s.offer = none ∧
       ({ s with offer := some [3, 4] } : State).offer ≠ none ∧ ([1] : List Byte).length ≠ s.params.chunkBytes) ∧
    ({ start with host := [.deviceError] } : State).host = .deviceError :: [] ∧
    ({ start with host := [.deviceDisconnected] } : State).host = .deviceDisconnected :: [] := by decide

theorem witness_SurfaceReadsAndWrites_image :
    ({ start with host := [.readImage 6] } : State).host = .readImage 6 :: [] ∧ start.loaded = true ∧
    (let s : State := { start with loaded := false, host := [.readImage 6] }
     s.host = .readImage 6 :: [] ∧ s.loaded = false ∧ 6 < s.fileSize ∧ s.fileSize ≤ 7) ∧
    (let s : State := { start with loaded := false, host := [.writeImage 6 0xff] }
     s.host = .writeImage 6 0xff :: [] ∧ MemInv s ∧ s.loaded = false ∧ 6 < s.fileSize ∧ s.fileSize ≤ 7) :=
  ⟨rfl, rfl, by decide, rfl, memInv_congr start_memInv, rfl, by decide, by decide⟩

theorem witness_FailedOpenChangesNothing :
    let s : State := { idle params with cmdQ := [.insert [0x80, 0xbb, 0] false] }
    s.dispatcherAt = .idle ∧ s.cmdQ = .insert [0x80, 0xbb, 0] false :: [] ∧ s.loaded = false ∧
      parseHeader s.params [0x80, 0xbb, 0] false = .error .badHeader := ⟨rfl, rfl, rfl, rfl⟩

theorem witness_RateClassMap : (22050 : Nat) ≠ 48000 ∧ (22050 : Nat) ≠ 44100 ∧ (22050 : Nat) ≠ 32000 := by decide

theorem witness_ForwardThenBackwardReturns :
    MemInv start ∧ TapeInv start ∧ start.loaded = true ∧ ∃ s1, forwardSteps 9 start = .ok (true, s1) :=
  ⟨start_memInv, start_tapeInv, rfl, _, rfl⟩

theorem witness_StagedWriteIsSeenAtOnce :
    TapeInv (tape params false 23) ∧ (tape params false 23).loaded = true ∧
      (tape params false 23).pos < (tape params false 23).totalBits :=
  ⟨tape_tapeInv (by decide) (by decide), rfl, by decide⟩

theorem witness_CursorMoveFlushesOnByteChange :
    (MemInv start ∧ TapeInv start ∧ start.loaded = true ∧ 24 ≤ start.totalBits ∧ cacheIdxAt 24 start ≠ start.cacheIdx) ∧
      cacheIdxAt 7 start = start.cacheIdx :=
  ⟨⟨start_memInv, start_tapeInv, rfl, by decide, by decide⟩, by decide⟩

theorem witness_CursorEndsClamp :
    (MemInv start ∧ TapeInv start ∧ start.loaded = true ∧ start.pos = 0 ∧ start.pos < start.totalBits ∧
      start.totalBits < 25 ∧ 24 ≤ start.totalBits) ∧
    (MemInv (tape params false 24) ∧ TapeInv (tape params false 24) ∧ (tape params false 24).loaded = true ∧
      (tape params false 24).pos = (tape params false 24).totalBits ∧ 0 < (tape params false 24).pos) :=
  ⟨⟨start_memInv, start_tapeInv, rfl, rfl, by decide, by decide, by decide⟩,
   tape_memInv _ _ _, tape_tapeInv (by decide) (by decide), rfl, rfl, by decide⟩

theorem witness_PlaybackSelectsSamples :
    start.params.wf = true ∧ MemInv start ∧ TapeInv start ∧ start.loaded = true :=
  ⟨by decide, start_memInv, start_tapeInv, rfl⟩

theorem witness_FillOutputSplits :
    ∃ s1 s2, fillOutput 1 (startPlay start) = .ok ([0xa5], false, s1) ∧
      fillOutput 2 s1 = .ok ([0x3c, 0xf0], false, s2) := ⟨_, _, rfl, rfl⟩

theorem witness_PassthroughReproducesBytes :
    start.params.wf = true ∧ MemInv start ∧ TapeInv start ∧ start.loaded = true ∧ start.dirty = false ∧
      start.t = hostRate start ∧ start.pos % 8 = 0 ∧ start.pos + 8 * 3 ≤ start.totalBits :=
  ⟨by decide, start_memInv, start_tapeInv, rfl, rfl, rfl, rfl, by decide⟩

theorem witness_PlaybackEndsAtTapeEnd :
    let s := running .play (tape params false 24)
    s.pos = s.totalBits ∧ 0 < s.params.chunkBytes ∧ s.loaded = true ∧ s.workerAlive = true ∧ s.workerMode = .play ∧
      s.workerAt = .top ∧ s.runFlag = true := by decide

/-- One sample before the end: one host bit, in a byte of its own. -/
theorem witness_OutboundChunkHandshake_bits :
    ∃ b u, fillBits (8 * 1) (startPlay (tape params false 23)) = .ok ([b], true, u) ∧ 0 < ([b].length + 7) / 8 ∧ 7 < 8 :=
  ⟨_, _, rfl, by decide, by decide⟩

/-- One sample before the end: the shortest chunk. -/
theorem witness_OutboundChunkHandshake_offer :
    let s := running .play (tape params false 23)
    s.params.wf = true ∧ MemInv s ∧ TapeInv s ∧ s.loaded = true ∧ s.workerAlive = true ∧ s.workerMode = .play ∧
      s.workerAt = .top ∧ s.runFlag = true ∧ s.pos < s.totalBits :=
  ⟨by decide, memInv_congr (tape_memInv params false 23),
   tapeInv_congr (tape_tapeInv (p := params) (ro := false) (pos := 23) (by decide) (by decide)), rfl, rfl, rfl, rfl, rfl,
   by decide⟩

theorem witness_OutboundChunkHandshake :
    let s : State := { running .play start with
      outValid := true, outChunk := [0xa5], workerAt := .takeHold true, host := [.takeChunk] }
    s.mode = .play ∧ s.outValid = true ∧ s.devError = false ∧ s.disconnected = false ∧ s.host = .takeChunk :: [] ∧
      s.workerAlive = true ∧ s.loaded = true ∧ s.workerAt = .takeHold true ∧ s.runFlag = true := by decide

theorem witness_TapeWriteStoresOneSample :
    ({ start with ended := true } : State).ended = true ∧
    ((tape params false 24).ended = false ∧ (tape params false 24).totalBits ≤ (tape params false 24).pos) ∧
    (MemInv (tape params false 23) ∧ TapeInv (tape params false 23) ∧ (tape params false 23).loaded = true ∧
      (tape params false 23).ended = false ∧ (tape params false 23).pos < (tape params false 23).totalBits ∧
      ((tape params false 23).protect = false ∧ (tape params false 23).readOnly = false ∨
        (tape params false 23).params.recProtectPolicy ≠ .inhibit)) :=
  ⟨rfl, by decide, tape_memInv _ _ _, tape_tapeInv (by decide) (by decide), rfl, rfl, by decide, by decide⟩

/-- At 48000 the symbol of 1 is 24 samples: it fills the tape of 24 samples exactly. -/
theorem witness_WriteSymbolIsTheCanonicalWaveform :
    MemInv start ∧ TapeInv start ∧ start.loaded = true ∧ start.ended = false ∧
      (start.protect = false ∧ start.readOnly = false ∨ start.params.recProtectPolicy ≠ .inhibit) ∧
      start.pos + 2 * ((start.t + 4000) / 8000 * ((true : Bool).toNat + 1)) ≤ start.totalBits :=
  ⟨start_memInv, start_tapeInv, rfl, rfl, by decide, by decide⟩

theorem witness_RawAtEqualRatesInverts :
    start.params.wf = true ∧ MemInv start ∧ TapeInv start ∧ start.loaded = true ∧
      (start.protect = false ∧ start.readOnly = false ∨ start.params.recProtectPolicy ≠ .inhibit) ∧
      start.t = hostRate start ∧ start.recConv = false ∧ 32000 ≤ start.t ∧
      start.pos + (List.replicate 24 true).length ≤ start.totalBits :=
  ⟨by decide, start_memInv, start_tapeInv, rfl, by decide, rfl, rfl, by decide, by decide⟩

theorem witness_EdgeDecoderRoundTrip :
    let s : State := { start with recConv := true }
    MemInv s ∧ TapeInv s ∧ s.loaded = true ∧
      (s.protect = false ∧ s.readOnly = false ∨ s.params.recProtectPolicy ≠ .inhibit) ∧
      s.t = hostRate s ∧ (s.recConv = true ∨ s.t < 32000) ∧ halfCycle s.t ≤ sampleOffset s.t ∧
      sampleOffset s.t ≤ 2 * halfCycle s.t - 1 ∧ 4 * halfCycle s.t - 1 - sampleOffset s.t ≤ longGap s.t ∧
      s.pos + (fmEncode s.t [false, false]).length ≤ s.totalBits :=
  ⟨memInv_congr start_memInv, tapeInv_congr start_tapeInv, rfl, by decide, rfl, by decide, by decide, by decide,
   by decide, by decide⟩

/-- The decoder in SCAN: a bit that makes no rising edge, and edges after G = 24 host bits and after one more. -/
theorem witness_EdgeDecoderRoundTrip_scan :
    (let s : State := { start with prev := true }
     s.phase = .scan ∧ s.prev = true) ∧
    (let s : State := { start with n := 24 }
     s.phase = .scan ∧ s.prev = false ∧ s.n ≤ hostRate s / 2000) ∧
    (let s : State := { start with n := 25 }
     MemInv s ∧ TapeInv s ∧ s.loaded = true ∧ s.ended = false ∧ s.phase = .scan ∧ s.prev = false ∧
       hostRate s / 2000 < s.n ∧ s.totalBits < s.pos + s.n * s.t / hostRate s ∧
       (s.protect = false ∧ s.readOnly = false ∨ s.params.recProtectPolicy ≠ .inhibit)) :=
  ⟨by decide, by decide, memInv_congr start_memInv, tapeInv_congr start_tapeInv, rfl, rfl, rfl, rfl, by decide, by decide,
   by decide⟩

/-- The decoder in ADVANCE at h = 48000, where S = 9: the bit before the sample point, and the sample point with a symbol of 1 that
fills the tape. -/
theorem witness_EdgeDecoderRoundTrip_advance :
    (let s : State := { start with phase := .advance, k := 7 }
     s.phase = .advance ∧ s.k + 1 ≠ 3 * hostRate s / 16000) ∧
    (let s : State := { start with phase := .advance, k := 8 }
     MemInv s ∧ TapeInv s ∧ s.loaded = true ∧ s.ended = false ∧ s.phase = .advance ∧
       s.k + 1 = 3 * hostRate s / 16000 ∧ s.pos + 2 * ((s.t + 4000) / 8000 * ((true : Bool).toNat + 1)) = s.totalBits ∧
       (s.protect = false ∧ s.readOnly = false ∨ s.params.recProtectPolicy ≠ .inhibit)) :=
  ⟨by decide, memInv_congr start_memInv, tapeInv_congr start_tapeInv, rfl, rfl, rfl, by decide, by decide, by decide⟩

theorem witness_TieFollowsTheTieRule :
    (start.vote = 0 ∧ start.params.tieRule = .repeatLast) ∧
    ((tape keeping false 24).vote = 0 ∧ (tape keeping false 24).params.tieRule = .keepTape ∧
      (tape keeping false 24).totalBits ≤ (tape keeping false 24).pos) ∧
    (MemInv (tape keeping false 23) ∧ TapeInv (tape keeping false 23) ∧ (tape keeping false 23).loaded = true ∧
      (tape keeping false 23).pos < (tape keeping false 23).totalBits) :=
  ⟨by decide, by decide, tape_memInv _ _ _, tape_tapeInv (by decide) (by decide), rfl, by decide⟩

/-- A window that is closed with `w < 0`, and whose commit answers. -/
theorem witness_TieFollowsTheTieRule_next :
    let u : State := { start with vote := 1, w := -1 }
    u.w < 0 ∧ u.ended = false ∧ ∃ v, rawCommit u = .ok v := ⟨by decide, rfl, _, rfl⟩

/-- A host bit that closes no window, one in an ended session, and one that closes c = 2 windows at t = 48000 and h = 32000, with one
sample of tape left. -/
theorem witness_TieFollowsTheTieRule_window :
    (let s : State := { start with w := 48000 }
     (s.t : Int) ≤ s.w) ∧
    ({ start with ended := true } : State).ended = true ∧
    (let s : State := { tape params false 23 with rateClass := .c32k, w := 15999 }
     MemInv s ∧ TapeInv s ∧ s.loaded = true ∧ s.ended = false ∧ 0 < 2 ∧
       s.w - (s.t : Int) + (((2 : Nat) : Int) - 1) * (hostRate s : Int) < 0 ∧
       0 ≤ s.w - (s.t : Int) + ((2 : Nat) : Int) * (hostRate s : Int) ∧
       (s.protect = false ∧ s.readOnly = false ∨ s.params.recProtectPolicy ≠ .inhibit)) :=
  ⟨by decide, rfl, memInv_congr (tape_memInv params false 23),
   tapeInv_congr (tape_tapeInv (p := params) (ro := false) (pos := 23) (by decide) (by decide)), rfl, rfl, by decide, by decide,
   by decide, by decide⟩

/-- Two host bits at t = 48000 and h = 32000 close the windows 0, 1 and 2. -/
theorem witness_TieFollowsTheTieRule_law :
    let s : State := { start with rateClass := .c32k }
    s.params.wf = true ∧ MemInv s ∧ TapeInv s ∧ s.loaded = true ∧ s.recConv = false ∧ 32000 ≤ s.t ∧ s.pos + 3 ≤ s.totalBits ∧
      ∀ k, k < 3 ↔ (hostRate s / 2 + k * hostRate s) / s.t + 1 ≤ [true, false].length := by
  refine ⟨by decide, memInv_congr start_memInv, tapeInv_congr start_tapeInv, rfl, rfl, by decide, by decide, fun k => ?_⟩
  show k < 3 ↔ (32000 / 2 + k * 32000) / 48000 + 1 ≤ 2
  omega

/-- The RECORD worker at the top and in its hold: cancelled, with its writer ended, with a chunk to accept, and with none. -/
theorem witness_RecordWorkerIteration :
    (recording.loaded = true ∧ recording.workerAlive = true ∧ recording.workerMode = .record ∧
      recording.workerAt = .top ∧ recording.runFlag = true ∧ recording.writerAlive = true ∧
      recording.slotFull = false ∧ recording.devError = false ∧ recording.disconnected = false ∧
      ({ recording with offer := some [1, 2] } : State).offer = some [1, 2] ∧ recording.offer = none) ∧
    ({ recording with workerAt := .offerHold } : State).workerAt = .offerHold ∧
    ({ recording with runFlag := false } : State).runFlag = false ∧
    ({ recording with writerAlive := false } : State).writerAlive = false ∧
    ({ recording with slotFull := true } : State).slotFull = true := by decide

theorem witness_BufferedChunkGoesBeforeCancellation :
    (recording.writerAlive = true ∧ recording.loaded = true ∧ recording.sValid = false ∧ recording.slotFull = false ∧
      recording.runFlag = true) ∧
    (let s : State := { recording with slotFull := true, slotData := [1, 2], sValid := true, spos := 16, runFlag := false }
     s.writerAlive = true ∧ s.loaded = true ∧ 8 * s.params.chunkBytes ≤ s.spos ∧ s.slotFull = true) := by decide

/-- The last host bit of a chunk: a step that goes on, one that ends the session at the tape end, and one that faults on a file
that is too short for the tape. -/
theorem witness_BufferedChunkGoesBeforeCancellation_bit :
    (let s : State := { recording with sValid := true, scr := [0x80, 0x01], spos := 15 }
     s.writerAlive = true ∧ s.loaded = true ∧ s.sValid = true ∧ s.spos < 8 * s.params.chunkBytes ∧
       s.scr.length = s.params.chunkBytes ∧ s.params.wf = true ∧ MemInv s ∧ TapeInv s ∧ s.ended = false ∧
       ∃ u, recStep (!true) { s with spos := s.spos + 1 } = .ok u ∧ u.ended = false) ∧
    (let s : State := { running .record (tape params false 24) with
       writerAlive := true, recStrategy := .raw, w := 47999, sValid := true, scr := [0x80, 0x01], spos := 15 }
     ∃ u x, recStep (!true) { s with spos := s.spos + 1 } = .ok u ∧ u.ended = true ∧ flush u = .ok x) ∧
    (let s : State := { running .record (tape params false 7) with
       writerAlive := true, recStrategy := .raw, w := 47999, sValid := true, scr := [0x80, 0x01], spos := 15, fileSize := 4 }
     ∃ e, recStep (!true) { s with spos := s.spos + 1 } = .error e) :=
  ⟨⟨rfl, rfl, rfl, by decide, rfl, by decide, memInv_congr start_memInv, tapeInv_congr start_tapeInv, rfl, _, rfl, rfl⟩,
   ⟨_, _, rfl, rfl, rfl⟩, _, rfl⟩

/-- The cancelled end: EDGE in SCAN with 24 host bits pending, which fill the tape, EDGE in ADVANCE with one more, RAW, and an
inhibited session. -/
theorem witness_BufferedChunkGoesBeforeCancellation_cancelled :
    (let s : State := { recording with runFlag := false, n := 24 }
     s.writerAlive = true ∧ s.loaded = true ∧ s.sValid = false ∧ s.slotFull = false ∧ s.runFlag = false ∧
       MemInv s ∧ TapeInv s ∧ s.ended = false ∧ s.phase = .scan ∧ s.recStrategy = .edge ∧
       s.pos + s.n * s.t / hostRate s = s.totalBits ∧
       (s.protect = false ∧ s.readOnly = false ∨ s.params.recProtectPolicy ≠ .inhibit)) ∧
    (let s : State := { recording with runFlag := false, phase := .advance, k := 24 }
     MemInv s ∧ TapeInv s ∧ s.phase ≠ .scan ∧ s.totalBits < s.pos + (s.k + 1) * s.t / hostRate s) ∧
    (let s : State := { recording with runFlag := false, recStrategy := .raw }
     MemInv s ∧ TapeInv s ∧ s.recStrategy ≠ .edge) ∧
    (let s : State := { running .record (tape inhibiting true 23) with writerAlive := true, runFlag := false }
     s.writerAlive = true ∧ s.loaded = true ∧ s.sValid = false ∧ s.slotFull = false ∧ s.runFlag = false ∧
       MemInv s ∧ TapeInv s ∧ s.ended = false ∧ s.protect = true ∧ s.params.recProtectPolicy = .inhibit) :=
  ⟨⟨rfl, rfl, rfl, rfl, rfl, memInv_congr start_memInv, tapeInv_congr start_tapeInv, rfl, rfl, rfl, by decide, by decide⟩,
   ⟨memInv_congr start_memInv, tapeInv_congr start_tapeInv, by decide, by decide⟩,
   ⟨memInv_congr start_memInv, tapeInv_congr start_tapeInv, by decide⟩,
   rfl, rfl, rfl, rfl, rfl, memInv_congr (tape_memInv inhibiting true 23),
   tapeInv_congr (tape_tapeInv (p := inhibiting) (ro := true) (pos := 23) (by decide) (by decide)), rfl, rfl, rfl⟩

theorem witness_SlotIsNeverOverwritten :
    (∃ t, step (stepping { recording with slotFull := true, slotData := [1, 2] }) = .next t ∧ t.slotFull = true) ∧
      (stepping { recording with slotFull := true, slotData := [1, 2] }).slotFull = true := ⟨⟨_, rfl, rfl⟩, rfl⟩

theorem witness_WriterExitFlushes : MemInv staged ∧ TapeInv staged ∧ staged.loaded = true :=
  ⟨staged_memInv, staged_tapeInv, rfl⟩

theorem witness_EmptySessionWritesNothing :
    MemInv start ∧ TapeInv start ∧ CtrlInv start ∧ start.loaded = true ∧ start.mode = .stop ∧
      start.dispatcherAt = .idle ∧ start.devError = false ∧ start.disconnected = false ∧
      (start.protect = false ∧ start.readOnly = false ∨ start.params.recProtectPolicy ≠ .refuse) :=
  ⟨start_memInv, start_tapeInv, start_ctrlInv, rfl, rfl, rfl, rfl, rfl, by decide⟩

theorem witness_StopEndsTheRunningMode :
    (running .play start).loaded = true ∧ (running .play start).workerAlive = true ∧
      isRunningMode (running .play start).workerMode = true ∧ (running .play start).workerMode ≠ .record ∧
      (running .play start).workerAt = .top := by decide

/-- A RECORD worker in its hold, with a chunk being consumed and one in the slot. -/
theorem witness_StopEndsTheRunningMode_record :
    let s : State := { recording with
      workerAt := .offerHold, slotFull := true, slotData := [1, 2], sValid := true, scr := [3, 4], spos := 15 }
    s.params.wf = true ∧ MemInv s ∧ TapeInv s ∧ PortInv s ∧ s.loaded = true ∧ s.workerAlive = true ∧
      s.workerMode = .record ∧ s.workerAt = .offerHold ∧ s.writerAlive = true ∧ s.ended = false := by
  refine ⟨by decide, memInv_congr start_memInv, tapeInv_congr start_tapeInv, ?_, rfl, rfl, rfl, rfl, rfl, rfl⟩
  constructor <;> simp [recording, running, start, tape, idle, params, State.reset]

theorem witness_SeekTickMovesAndClamps : MemInv start ∧ TapeInv start ∧ start.loaded = true :=
  ⟨start_memInv, start_tapeInv, rfl⟩

/-- A LEGACY image at 48000 with 108 data bytes of 0, which are 864 samples, open at `pos`. -/
def blank (pos : Nat) : State :=
  { idle params with
    img := [(0, 0x80), (1, 0xbb)]
    fileSize := 112
    loaded := true
    t := 48000
    totalBits := 864
    pos := pos
    cacheIdx := if pos < 864 then some (pos / 8) else none
    cacheByte := Memory.get [(0, 0x80), (1, 0xbb)] (4 + pos / 8)
    mode := .stop }

theorem blank_memInv (pos : Nat) : MemInv (blank pos) :=
  ⟨by show Memory.wf [(0, 0x80), (1, 0xbb)]; decide,
   by show ∀ c ∈ [((0 : Nat), (0x80 : Byte)), (1, 0xbb)], c.1 < 112; decide⟩

theorem blank_tapeInv {pos : Nat} (h : pos ≤ 864) : TapeInv (blank pos) where
  rate _ := ⟨by show 8000 ≤ 48000; decide, by show 48000 ≤ 48000; decide⟩
  header _ := by show 4 ≤ 112; decide
  size _ := rfl
  bound _ := by show 864 ≤ 4294967295; decide
  posLe _ := h
  cached _ := rfl
  clean _ _ _ := rfl
  staged h := by cases h
  legacy _ _ := rfl

/-- One tick of 1 ms at 48000 is 864 samples: it passes both ends of a tape of 24 samples, and on a tape of 864 samples it
lands on the end. -/
theorem witness_WindWorkerStopsAtTheEnd :
    (MemInv (running .fastForward start) ∧ TapeInv (running .fastForward start) ∧
      (running .fastForward start).loaded = true ∧ (running .fastForward start).workerAlive = true ∧
      (running .fastForward start).workerAt = .top ∧ (running .fastForward start).runFlag = true ∧
      (running .fastForward start).workerMode = .fastForward) ∧
    (running .rewind start).workerMode = .rewind ∧
    (MemInv (running .fastForward (blank 0)) ∧ TapeInv (running .fastForward (blank 0)) ∧
      (blank 0).pos + (blank 0).t / 1000 * (blank 0).params.seekTickMs * 18 ≤ (blank 0).totalBits) ∧
    (MemInv (running .rewind (blank 864)) ∧ TapeInv (running .rewind (blank 864)) ∧
      (blank 864).t / 1000 * (blank 864).params.seekTickMs * 18 ≤ (blank 864).pos) :=
  ⟨⟨memInv_congr start_memInv, tapeInv_congr start_tapeInv, rfl, rfl, rfl, rfl, rfl⟩, rfl,
   ⟨memInv_congr (blank_memInv 0), tapeInv_congr (blank_tapeInv (pos := 0) (by decide)), by decide⟩,
   memInv_congr (blank_memInv 864), tapeInv_congr (blank_tapeInv (pos := 864) (by decide)), by decide⟩

theorem witness_WindWorkerStopsAtTheEnd_apss :
    MemInv (running .autoRewind start) ∧ TapeInv (running .autoRewind start) ∧
      (running .autoRewind start).loaded = true ∧ (running .autoRewind start).workerAlive = true ∧
      (running .autoRewind start).workerAt = .top ∧ (running .autoRewind start).runFlag = true ∧
      (Dir.bwd = .bwd ∧ (running .autoRewind start).workerMode = .autoRewind) ∧
      (running .autoFastForward start).workerMode = .autoFastForward ∧ (running .autoRewind start).found = false :=
  ⟨memInv_congr start_memInv, tapeInv_congr start_tapeInv, rfl, rfl, rfl, rfl, ⟨rfl, rfl⟩, rfl, rfl⟩

/-- The first sample of the tape is 1 and is the match past N35: the search stops at FOUND with one sample evaluated. At the end of
the tape it is BOUNDARY with none. -/
theorem witness_WindWorkerStopsAtTheEnd_stops :
    (let s : State := { running .autoFastForward start with maj := some true, seen := true, mat := 168000 }
     s.found = false ∧ ∃ u, apssTick s.params.seekTickMs .fwd (drawUpdate s) = .ok (.found, u) ∧ u.pos = 1) ∧
    (let s : State := running .autoFastForward (tape params false 24)
     ∃ u, apssTick s.params.seekTickMs .fwd (drawUpdate s) = .ok (.boundary, u)) :=
  ⟨⟨rfl, _, rfl, rfl⟩, _, rfl⟩

theorem witness_ApssEvaluatesThePassedSample :
    (MemInv start ∧ TapeInv start ∧ start.loaded = true ∧ start.pos = 0 ∧ start.pos < start.totalBits) ∧
    (MemInv (tape params false 24) ∧ TapeInv (tape params false 24) ∧
      (tape params false 24).pos = (tape params false 24).totalBits ∧ 0 < (tape params false 24).pos) :=
  ⟨⟨start_memInv, start_tapeInv, rfl, rfl, by decide⟩,
   tape_memInv _ _ _, tape_tapeInv (by decide) (by decide), rfl, by decide⟩

theorem witness_ApssFindsTheBoundary :
    (List.replicate (7 * 2 / 2) true).length = 7 * ({ start with t := 2 } : State).t / 2 ∧ 1 ≤ 1 := by decide

theorem witness_ApssToleratesNoise :
    (let s : State := { start with maj := some true }
     s.ign = 0 ∧ s.maj = some true ∧ s.seen = false ∧ s.mis = 0 ∧ 2 ≤ tolerance s) ∧
    tolerance { start with t := 32000 } = 0 := by decide

/-- AP6 (32000, TOL 0) and AP5 (48000, TOL 2): ignored samples, the seed, noise up to TOL with a flip seen, the sample past it, and
agreeing samples, the last of them the match past N35. -/
theorem witness_ApssToleratesNoise_seen :
    (0 < ({ start with ign := 1 } : State).ign) ∧ (start.ign = 0 ∧ start.maj = none) ∧
    (let s : State := { start with maj := some true, seen := true, mat := 5 }
     s.ign = 0 ∧ s.maj = some true ∧ s.seen = true ∧ s.mis + 2 ≤ tolerance s) ∧
    (let s : State := { start with maj := some true, seen := true, mat := 5, mis := 2 }
     s.ign = 0 ∧ s.maj = some true ∧ tolerance s < s.mis + 1) ∧
    (let s : State := { start with t := 32000, maj := some true, seen := true }
     s.ign = 0 ∧ s.maj = some true ∧ tolerance s < s.mis + 1) ∧
    (let s : State := { start with maj := some true, seen := true, mat := 168000 }
     s.seen = true ∧ 7 * s.t / 2 < s.mat + 1) ∧
    ({ start with maj := some true } : State).seen = false := by decide

/-- AP6: at 32000 (TOL 0) the third sample of `0010` flips the majority, and the fourth flips it back with mat 0. -/
theorem test_apss_flips_back :
    ([[false, false, true], [false, false, true, false]].map fun samples =>
        let u := apssFold samples { start with t := 32000 }
        (u.maj, u.seen, u.mat, u.mis)) = [(some true, true, 0, 0), (some false, true, 0, 0)] := by decide

theorem witness_ResetState : ({ recording with host := [.reset] } : State).host = .reset :: [] := rfl

/-- For ImageStoreStaysCanonical, TapeInvariantIsKept, ControlInvariantIsKept, ChunkSizesAreKept, ErrorItemsStayFirst and
RangesAreKept together. -/
theorem witness_InvariantsAreKept :
    MemInv (stepping start) ∧ TapeInv (stepping start) ∧ CtrlInv (stepping start) ∧ PortInv (stepping start) ∧
      QueueInv (stepping start) ∧ (stepping start).params.wf = true ∧ RangeInv (stepping start) ∧
      ∃ t, step (stepping start) = .next t := by
  refine ⟨memInv_congr start_memInv, tapeInv_congr start_tapeInv, ?_, ?_, ?_, by decide, ?_, _, rfl⟩
  · constructor <;> simp [stepping, State.withFetchWord, placeCommand, start, tape, idle, State.reset, isRunningMode]
  · constructor <;> simp [stepping, State.withFetchWord, placeCommand, start, tape, idle, State.reset]
  · exact List.pairwise_singleton _ _
  · constructor <;> simp [stepping, State.withFetchWord, placeCommand, start, tape, idle, State.reset]

/-- The ranges at their bounds: a PLAY worker with `acc = h - 1`, and an APSS worker with `ign = N35`. -/
theorem witness_RangesAreKept :
    (let s : State := { running .play start with acc := 47999 }
     s.workerAlive = true ∧ s.workerMode = .play ∧ 0 ≤ s.acc ∧ s.acc < (hostRate s : Int)) ∧
    (let s : State := { running .autoRewind start with ign := 168000 }
     s.workerAlive = true ∧ s.workerMode = .autoRewind ∧ s.ign ≤ apssWindow s.t ∧ s.mis ≤ tolerance s) ∧
    (let s : State := { recording with recStrategy := .raw, w := 47999 }
     s.writerAlive = true ∧ s.recStrategy = .raw ∧ 0 ≤ s.w ∧
       ((s.vote.natAbs * s.t : Nat) : Int) + s.w < (hostRate s : Int)) := by decide

/-- The second clause at its bounds: h = 48000, and the largest w beside a vote of 5 at t = 8000. -/
theorem witness_RangesAreKept_widths :
    (start.params.wf = true ∧ TapeInv start ∧ start.loaded = true ∧ hostRate start = 48000) ∧
    (let s : State := { start with t := 8000, vote := 5, w := 7999 }
     0 ≤ s.w ∧ ((s.vote.natAbs * s.t : Nat) : Int) + s.w < (hostRate s : Int)) :=
  ⟨⟨by decide, start_tapeInv, rfl, rfl⟩, by decide⟩

theorem witness_HeaderAndSizeAreFixed :
    MemInv (stepping staged) ∧ (∃ t, step (stepping staged) = .next t ∧ t.loaded = true ∧
      ¬ ∃ r, t.hostLog = (stepping staged).hostLog ++ [.inserted r]) ∧ (stepping staged).loaded = true ∧
      39 < hdr (stepping staged) ∧ ¬ (Variant.modern = .modern ∧ 36 ≤ 35 ∧ 35 < 40) :=
  ⟨memInv_congr staged_memInv, ⟨_, rfl, rfl, fun ⟨_, h⟩ => by cases h⟩, rfl, by decide, by decide⟩

/-- PLAY enters a mode and starts a worker by the dispatcher's step. -/
theorem witness_OnlyTheDispatcherEntersModes :
    (∃ t, step (start.withFetchWord 8 0x02) = .next t ∧ t.workerAlive = true ∧ t.mode ≠ start.mode) ∧
      start.workerAlive = false ∧ ¬ isResetTurn (start.withFetchWord 8 0x02) :=
  ⟨⟨_, rfl, rfl, by decide⟩, rfl, fun h => by cases h.1⟩

/-- A worker at the end of the tape leaves its mode by the worker's step. -/
theorem witness_OnlyTheDispatcherEntersModes_exit :
    let s : State := { running .play (tape params false 24) with sched := [.worker] }
    (∃ t, step s = .next t ∧ t.mode ≠ s.mode) ∧ ¬ isResetTurn s :=
  ⟨⟨_, rfl, by decide⟩, fun h => by cases h.1⟩

end Sys2Proof.Tests
end

section
/-! SUPPORT. The statements of the family 10_state.md: the invariants of the open tape and of the chunks, the sensor byte, the
surface with the host's actions, and reset. -/

namespace Sys2Proof.Proofs

open Sys2Proof.Machine Sys2Proof.Laws

/-! ### What the dispatcher's turn and the start operations can do -/

/-- Only the registers of the controller and the queues differ, the fields that neither `TapeInv` nor `PortInv` reads. -/
def ControlOnly (s t : State) : Prop :=
  t = { s with
    mode := t.mode, running := t.running, recEntered := t.recEntered, runFlag := t.runFlag
    dispatcherAt := t.dispatcherAt, cmdQ := t.cmdQ, rspQ := t.rspQ, evtQ := t.evtQ }

/-- What the dispatcher does from a state: it writes controller registers alone, starts a mode, closes the image, or opens one,
with or without closing another first. -/
inductive DispatcherEffect (s : State) : State → Prop
  | control {t : State} : ControlOnly s t → DispatcherEffect s t
  | start {m : Mode} {t : State} : finishStart m s = .next t → DispatcherEffect s t
  | eject {t : State} : ejectTape s = .ok t → DispatcherEffect s t
  | insert {bytes : List Byte} {readOnly : Bool} {t : State} :
      openAndEnter bytes readOnly s = .next t → DispatcherEffect s t
  | replace {bytes : List Byte} {readOnly : Bool} {u t : State} :
      ejectTape s = .ok u → openAndEnter bytes readOnly u = .next t → DispatcherEffect s t

/-- `stop_worker` only cancels the worker, or what follows it happens (R282). -/
theorem stopWorker_effect {k : Join} {after : State → Result} {s t : State}
    (hafter : after s = .next t → DispatcherEffect s t) (h : stopWorker k after s = .next t) : DispatcherEffect s t := by
  obtain ⟨-, rfl⟩ | ⟨-, h⟩ := stopWorker_next_iff.1 h
  · exact .control rfl
  · exact hafter h

/-- `stop_worker` followed by an update of the controller. -/
theorem stopWorker_next_effect {k : Join} {f : State → State} {s t : State} (hf : ControlOnly s (f s))
    (h : stopWorker k (fun s1 => .next (f s1)) s = .next t) : DispatcherEffect s t :=
  stopWorker_effect (fun h => by cases h; exact .control hf) h

theorem finishEject_effect {s t : State} (h : finishEject s = .next t) : DispatcherEffect s t := by
  obtain ⟨-, h⟩ := withTape_next_iff.1 h
  obtain ⟨u, hu, h⟩ := andThen_next_iff.1 h
  cases h
  exact .eject hu

theorem finishInsert_effect {bytes : List Byte} {readOnly : Bool} {s t : State}
    (h : finishInsert bytes readOnly s = .next t) : DispatcherEffect s t := by
  unfold finishInsert at h
  split at h
  · obtain ⟨u, hu, h⟩ := andThen_next_iff.1 h
    exact .replace hu h
  · exact .insert h

theorem startMode_effect {m : Mode} {s t : State} (h : startMode m s = .next t) : DispatcherEffect s t := by
  obtain rfl | ⟨-, -, ⟨-, rfl⟩ | ⟨-, h⟩⟩ := startMode_cases h
  · exact .control rfl
  · exact .control rfl
  · exact .start h

theorem exec_effect {i : Instr} {s t : State} (h : exec i s = .next t) : DispatcherEffect s t := by
  obtain ⟨m, -, h⟩ | ⟨-, h⟩ | ⟨-, h⟩ | ⟨kind, value, rfl⟩ := exec_cases h
  · exact startMode_effect h
  · unfold execEject at h
    split at h
    · cases h; exact .control rfl
    · exact stopWorker_effect finishEject_effect h
  · exact stopWorker_next_effect (f := idleStop) rfl h
  · exact .control rfl

theorem runItem_effect {x : CmdItem} {s t : State} (h : runItem x s = .next t) : DispatcherEffect s t := by
  cases x with
  | byte b =>
    obtain rfl | ⟨i, h⟩ := runByte_cases h
    · exact .control rfl
    · exact exec_effect h
  | insert bytes readOnly =>
    simp only [runItem, insertTape] at h
    split at h
    · exact stopWorker_effect finishInsert_effect h
    · exact .insert h
  | devErr => exact stopWorker_next_effect (f := finishError .deviceError) rfl h
  | disconn => exact stopWorker_next_effect (f := finishError .deviceDisconnected) rfl h

theorem resume_effect {k : Join} {s t : State} (h : resume k s = .next t) : DispatcherEffect s t := by
  cases k with
  | start m =>
    obtain ⟨-, rfl⟩ | ⟨-, h⟩ := resumeStart_cases h
    · exact .control rfl
    · exact .start h
  | eject => exact finishEject_effect h
  | stop => cases h; exact .control rfl
  | insert bytes readOnly => exact finishInsert_effect h
  | devErr => cases h; exact .control rfl
  | disconn => cases h; exact .control rfl

/-- The dispatcher's turn is one effect, after it has taken its item or left its join (R280, R282). -/
theorem dispatcherStep_effect {s t : State} (h : dispatcherStep s = .next t) :
    ∃ u, ControlOnly s u ∧ DispatcherEffect u t := by
  obtain ⟨k, -, -, rfl⟩ | ⟨k, -, -, h⟩ | ⟨-, -, rfl⟩ | ⟨x, q, -, -, h⟩ := dispatcherStep_cases h
  · exact ⟨t, rfl, .control rfl⟩
  · exact ⟨{ s with dispatcherAt := .idle }, rfl, resume_effect h⟩
  · exact ⟨t, rfl, .control rfl⟩
  · exact ⟨{ s with cmdQ := q }, rfl, runItem_effect h⟩

/-- A start operation (R283): PLAY seeds the converter, AFF and AREW the detector, REC on first entry the session, and FF, REW and
a second REC nothing. -/
theorem startOperation_cases {m : Mode} {s t : State} (h : startOperation m s = some t) :
    t = s ∨ t = startPlay s ∨ t = startApss s ∨ t = { startWrite s with recEntered := true } := by
  cases m with
  | play => cases h; exact .inr (.inl rfl)
  | record =>
    cases h
    unfold enterRecord
    split
    · exact .inl rfl
    · exact .inr (.inr (.inr rfl))
  | autoFastForward => cases h; exact .inr (.inr (.inl rfl))
  | autoRewind => cases h; exact .inr (.inr (.inl rfl))
  | fastForward => cases h; exact .inl rfl
  | rewind => cases h; exact .inl rfl
  | none => cases h
  | stop => cases h
  | eject => cases h

/-! ### The invariant of the open tape (R34 to R40) -/

theorem tapeInv_of_unloaded {s : State} (hl : s.loaded = false) (hd : s.dirty = false) : TapeInv s := by
  constructor <;> simp [hl, hd]

/-- Nothing is staged while no tape is loaded. -/
theorem tapeInv_dirty_of_unloaded {s : State} (ht : TapeInv s) (hl : s.loaded = false) : s.dirty = false := by
  cases hd : s.dirty with
  | false => rfl
  | true => exact absurd (ht.staged hd).1 (by simp [hl])

theorem tapeInv_controlOnly {s t : State} (h : ControlOnly s t) (ht : TapeInv s) : TapeInv t := by
  rw [h]; exact tapeInv_congr ht

/-! #### The writer and the worker -/

theorem tapeInv_writerTurn {s t : State} (hm : MemInv s) (ht : TapeInv s) (hl : s.loaded = true)
    (h : writerTurn s = .ok t) : TapeInv t := by
  obtain ⟨v, u, -, h1, -, rfl⟩ | ⟨v, u, u', -, h1, -, h2, rfl⟩ | ⟨-, -, rfl⟩ | ⟨-, -, -, rfl⟩ |
    ⟨u, u', -, -, -, h1, h2, rfl⟩ := writerTurn_cases h
  · exact (tapeKept_recStep h1).tape (memInv_congr hm) (tapeInv_congr ht) hl
  · have hk := tapeKept_trans (tapeKept_recStep h1) (tapeKept_flush h2)
    exact tapeInv_congr (hk.tape (memInv_congr hm) (tapeInv_congr ht) hl)
  · exact tapeInv_congr ht
  · exact tapeInv_congr ht
  · have hk := tapeKept_trans (tapeKept_cancelEnd h1) (tapeKept_flush h2)
    exact tapeInv_congr (hk.tape (memInv_congr hm) (tapeInv_congr ht) hl)

theorem tapeInv_writerStep {s t : State} (hm : MemInv s) (ht : TapeInv s) (h : writerStep s = .next t) : TapeInv t := by
  obtain ⟨-, rfl⟩ | ⟨-, -, hl, h⟩ := writerStep_cases h
  · exact ht
  · exact tapeInv_writerTurn hm ht hl h

theorem tapeInv_workerExit {s : State} (self : Bool) (ht : TapeInv s) : TapeInv (workerExit self s) := by
  obtain ⟨-, -, e⟩ | ⟨-, f, e⟩ := workerExit_cases self s
  · rw [e]; exact tapeInv_congr ht
  · rw [e, finishExit_eq]; exact tapeInv_congr ht

theorem tapeInv_iterateRec {s : State} (ht : TapeInv s) : TapeInv (iterateRec s) := by
  obtain ⟨-, e⟩ | ⟨-, -, e⟩ | ⟨-, -, chunk, -, -, e⟩ | ⟨-, -, e⟩ := iterateRec_cases s
  · rw [e]; exact tapeInv_workerExit false ht
  · rw [e]; exact tapeInv_workerExit true ht
  · rw [e]; exact tapeInv_congr ht
  · rw [e]; exact tapeInv_congr ht

theorem tapeInv_iterate {s t : State} (hm : MemInv s) (ht : TapeInv s) (hl : s.loaded = true)
    (h : iterate s = .ok t) : TapeInv t := by
  obtain ⟨-, rfl⟩ | ⟨-, u, hk, hcase⟩ := iterate_cases h
  · exact tapeInv_iterateRec ht
  · have hu : TapeInv u := hk.tape hm ht hl
    obtain rfl | rfl | ⟨-, out, eot, -, -, rfl⟩ := hcase
    · exact hu
    · exact tapeInv_workerExit true hu
    · exact tapeInv_congr hu

theorem tapeInv_afterTake {s : State} (eot : Bool) (ht : TapeInv s) : TapeInv (afterTake eot s) := by
  obtain ⟨-, e⟩ | ⟨-, -, e⟩ | ⟨-, -, e⟩ := afterTake_cases eot s
  · rw [e]; exact tapeInv_workerExit false ht
  · rw [e]; exact tapeInv_workerExit true ht
  · rw [e]; exact tapeInv_congr ht

theorem tapeInv_workerTurn {s t : State} (hm : MemInv s) (ht : TapeInv s) (hl : s.loaded = true)
    (h : workerTurn s = .ok t) : TapeInv t := by
  obtain ⟨-, -, rfl⟩ | ⟨-, -, h⟩ | ⟨eot, -, rfl⟩ | ⟨-, rfl⟩ | ⟨self, -, rfl⟩ := workerTurn_cases h
  · exact tapeInv_workerExit false ht
  · exact tapeInv_iterate (s := drawUpdate s) (memInv_congr hm) (tapeInv_congr ht) hl h
  · exact tapeInv_afterTake eot ht
  · exact tapeInv_iterateRec ht
  · exact tapeInv_congr ht

theorem tapeInv_workerStep {s t : State} (hm : MemInv s) (ht : TapeInv s) (h : workerStep s = .next t) : TapeInv t := by
  obtain ⟨-, rfl⟩ | ⟨-, -, hl, h⟩ := workerStep_cases h
  · exact ht
  · exact tapeInv_workerTurn hm ht hl h

/-! #### Insertion and EJECT -/

/-- What `open` has checked of a header, and what it computes from it (R170 to R173). -/
structure HeaderFits (p : Params) (bytes : List Byte) (readOnly : Bool) (hd : Header) : Prop where
  rate    : 8000 ≤ hd.rate ∧ hd.rate ≤ 48000
  size    : headerSize hd.variant ≤ bytes.length
  total   : hd.totalBits = (bytes.length - headerSize hd.variant) * 8
  bound   : hd.totalBits ≤ maxPosition p hd.variant
  start   : hd.start ≤ hd.totalBits
  protect : hd.variant = .legacy → hd.protect = readOnly

/-- A MODERN image has at least the 40 bytes of its header (R126), and a LEGACY one the 4 that `open` asks for. -/
theorem headerSize_imageVariant_le {p : Params} {bytes : List Byte} (h : 4 ≤ bytes.length) :
    headerSize (imageVariant p bytes) ≤ bytes.length := by
  unfold imageVariant
  split
  · rename_i hmodern; exact hmodern.1
  · exact h

theorem imageStart_le (v : Variant) (bytes : List Byte) (total : Nat) : imageStart v bytes total ≤ total := by
  cases v with
  | modern => exact Nat.min_le_right _ _
  | legacy => exact Nat.zero_le _

theorem parseHeader_fits {p : Params} {bytes : List Byte} {readOnly : Bool} {hd : Header}
    (h : parseHeader p bytes readOnly = .ok hd) : HeaderFits p bytes readOnly hd := by
  simp only [parseHeader] at h
  split at h
  · cases h
  · rename_i hlen
    split at h
    · cases h
    · rename_i hrate
      split at h
      · cases h
      · rename_i hmax
        cases h
        exact
          { rate := by dsimp only; omega
            size := headerSize_imageVariant_le (by omega)
            total := rfl
            bound := by dsimp only; omega
            start := imageStart_le _ _ _
            protect := fun hv => by dsimp only at hv ⊢; rw [hv]; rfl }

/-- An image that has opened: its registers fit the file, and `load()` has cached the byte of the start position (R170 to R175). -/
theorem tapeInv_opened {bytes : List Byte} {readOnly : Bool} {hd : Header} {s t : State}
    (hf : HeaderFits s.params bytes readOnly hd) (h : load (setTape bytes readOnly hd s) = .ok t) : TapeInv t := by
  have hsize : headerSize hd.variant ≤ bytes.length := hf.size
  have htotal := hf.total
  have hinside : hd.start < hd.totalBits → headerSize hd.variant + hd.start / 8 < bytes.length := by omega
  rw [load_eq hinside] at h
  cases h
  exact
    { rate := fun _ => hf.rate
      header := fun _ => hsize
      size := fun _ => htotal
      bound := fun _ => hf.bound
      posLe := fun _ => hf.start
      cached := fun _ => rfl
      clean := fun _ _ hlt => if_pos hlt
      staged := fun hd => by cases hd
      legacy := fun _ hv => hf.protect hv }

theorem tapeInv_openAndEnter {bytes : List Byte} {readOnly : Bool} {s t : State} (ht : TapeInv s)
    (h : openAndEnter bytes readOnly s = .next t) : TapeInv t := by
  obtain ⟨code, -, rfl⟩ | ⟨hd, s1, c, hp, h1, -, e⟩ := openAndEnter_cases h
  · exact tapeInv_congr ht
  · rw [e]; exact tapeInv_congr (tapeInv_opened (parseHeader_fits hp) h1)

/-- EJECT leaves no tape, and its flush has left nothing staged. -/
theorem tapeInv_ejectTape {s t : State} (h : ejectTape s = .ok t) : TapeInv t := by
  obtain ⟨u, v, hu, hv, e⟩ := ejectTape_cases h
  have hclean : u.dirty = false := (flush_frame hu).2.2.2.2
  have hsame : v.dirty = u.dirty := by rw [persistPosition_frame hv]
  exact tapeInv_of_unloaded (by rw [e]) (by rw [e]; exact hsame.trans hclean)

theorem tapeInv_startOperation {m : Mode} {s t : State} (ht : TapeInv s) (h : startOperation m s = some t) :
    TapeInv t := by
  obtain rfl | rfl | rfl | rfl := startOperation_cases h
  · exact ht
  · exact tapeInv_congr ht
  · exact tapeInv_congr ht
  · exact tapeInv_congr ht

theorem tapeInv_finishStart {m : Mode} {s t : State} (ht : TapeInv s) (h : finishStart m s = .next t) : TapeInv t := by
  obtain ⟨-, s1, h1, rfl⟩ := finishStart_cases h
  have hstarted : TapeInv s1 := tapeInv_startOperation (tapeInv_congr ht) h1
  exact tapeInv_congr hstarted

theorem tapeInv_dispatcherStep {s t : State} (ht : TapeInv s) (h : dispatcherStep s = .next t) : TapeInv t := by
  obtain ⟨u, hu, heffect⟩ := dispatcherStep_effect h
  replace ht : TapeInv u := tapeInv_controlOnly hu ht
  cases heffect with
  | control h => exact tapeInv_controlOnly h ht
  | start h => exact tapeInv_finishStart ht h
  | eject h => exact tapeInv_ejectTape h
  | insert h => exact tapeInv_openAndEnter ht h
  | replace hej h => exact tapeInv_openAndEnter (tapeInv_ejectTape hej) h

/-! #### The receiver, the host and the step -/

theorem tapeInv_receiverStep {s t : State} (ht : TapeInv s) (h : receiverStep s = .next t) : TapeInv t := by
  obtain rfl | ⟨b, rest, -, -, rfl⟩ := receiverStep_cases h
  · exact ht
  · exact tapeInv_congr ht

/-- The host writes the image store only while no tape is loaded (R395), and its reset unloads the tape (R380). -/
theorem tapeInv_hostAct {act : HostAction} {rest : List HostAction} {s t : State} (ht : TapeInv s)
    (h : hostAct act rest s = .next t) : TapeInv t := by
  obtain rfl | ⟨a, v, rfl⟩ | e := hostAct_frame h
  · cases h; exact tapeInv_of_unloaded rfl rfl
  · obtain ⟨hl, -, rfl⟩ := hostWrite_cases h
    exact tapeInv_of_unloaded hl (tapeInv_dirty_of_unloaded (s := s) ht hl)
  · rw [e]; exact tapeInv_congr ht

theorem tapeInv_hostStep {s t : State} (ht : TapeInv s) (h : hostStep s = .next t) : TapeInv t := by
  obtain ⟨-, rfl⟩ | ⟨act, rest, -, h⟩ := hostStep_cases h
  · exact ht
  · exact tapeInv_hostAct ht h

theorem tapeInv_agentStep {a : Agent} {s t : State} (hm : MemInv s) (ht : TapeInv s) (h : agentStep a s = .next t) :
    TapeInv t := by
  cases a with
  | receiver => exact tapeInv_receiverStep ht h
  | dispatcher => exact tapeInv_dispatcherStep ht h
  | worker => exact tapeInv_workerStep hm ht h
  | writer => exact tapeInv_writerStep hm ht h
  | host => exact tapeInv_hostStep ht h

/-- Settles O54: every agent's turn keeps the invariant, by the inversion of each turn and `TapeKept` of the datapath. -/
theorem tapeInvariantIsKept : Obligations.TapeInvariantIsKept := by
  intro s t hm ht h
  obtain ⟨u, hu, rfl⟩ := step_next_iff.1 h
  rw [observe_eq]
  exact tapeInv_congr (tapeInv_agentStep (memInv_congr hm) (tapeInv_congr ht) hu)

/-! ### The chunks (R41, R42, R61, R98) -/

/-- The invariant depends on the chunk registers alone, and clearing a valid flag or the offer keeps it. -/
theorem portInv_mono {s t : State} (h : PortInv s) (hp : t.params = s.params := by rfl)
    (hslot : t.slotFull = true → s.slotFull = true ∧ t.slotData = s.slotData := by exact fun hv => ⟨hv, rfl⟩)
    (hscr : t.sValid = true → s.sValid = true ∧ t.scr = s.scr ∧ t.spos = s.spos := by exact fun hv => ⟨hv, rfl, rfl⟩)
    (hoffer : ∀ chunk, t.offer = some chunk → s.offer = some chunk := by exact fun _ hc => hc)
    (hout : t.outValid = true → s.outValid = true ∧ t.outChunk = s.outChunk := by exact fun hv => ⟨hv, rfl⟩) :
    PortInv t where
  slot hv := by
    obtain ⟨hv, e⟩ := hslot hv
    rw [e, hp]; exact h.slot hv
  scratch hv := by
    obtain ⟨hv, e1, e2⟩ := hscr hv
    rw [e1, e2, hp]; exact h.scratch hv
  offered chunk hc := by rw [hp]; exact h.offered chunk (hoffer chunk hc)
  out hv := by
    obtain ⟨hv, e⟩ := hout hv
    rw [e, hp]; exact h.out hv

theorem portInv_controlOnly {s t : State} (h : ControlOnly s t) (hp : PortInv s) : PortInv t := by
  rw [h]; exact portInv_mono hp

theorem portInv_datapathOnly {s t : State} (h : DatapathOnly s t) (hp : PortInv s) : PortInv t := by
  rw [h]; exact portInv_mono hp

/-! #### The writer and the worker -/

theorem scratchReady_iff {s : State} :
    scratchReady s = true ↔ s.sValid = true ∧ s.spos < 8 * s.params.chunkBytes := by
  simp [scratchReady]

/-- The host bit that a ready scratch cursor reads is inside its chunk. -/
theorem portInv_scratchTaken {s : State} (hp : PortInv s) (hr : scratchReady s = true) :
    PortInv { s with spos := s.spos + 1 } := by
  obtain ⟨hv, hlt⟩ := scratchReady_iff.1 hr
  exact ⟨hp.slot, fun _ => ⟨(hp.scratch hv).1, hlt⟩, hp.offered, hp.out⟩

/-- `writer_exit` gives the scratch cursor up. -/
theorem portInv_writerExited {s : State} (hp : PortInv s) : PortInv { s with sValid := false, writerAlive := false } :=
  portInv_mono hp (hscr := nofun)

theorem portInv_writerTurn {s t : State} (hp : PortInv s) (h : writerTurn s = .ok t) : PortInv t := by
  obtain ⟨v, u, hr, h1, -, rfl⟩ | ⟨v, u, u', hr, h1, -, h2, rfl⟩ | ⟨-, hfull, rfl⟩ | ⟨-, -, -, rfl⟩ |
    ⟨u, u', -, -, -, h1, h2, rfl⟩ := writerTurn_cases h
  · exact portInv_datapathOnly (tapeKept_recStep h1).frame (portInv_scratchTaken hp hr)
  · have hframe := (tapeKept_trans (tapeKept_recStep h1) (tapeKept_flush h2)).frame
    exact portInv_writerExited (portInv_datapathOnly hframe (portInv_scratchTaken hp hr))
  · exact ⟨nofun, fun _ => ⟨hp.slot hfull, Nat.zero_le _⟩, hp.offered, hp.out⟩
  · exact portInv_mono hp (hscr := nofun)
  · have hframe := (tapeKept_trans (tapeKept_cancelEnd h1) (tapeKept_flush h2)).frame
    exact portInv_writerExited (portInv_datapathOnly hframe (portInv_mono hp (hscr := nofun)))

theorem portInv_writerStep {s t : State} (hp : PortInv s) (h : writerStep s = .next t) : PortInv t := by
  obtain ⟨-, rfl⟩ | ⟨-, -, -, h⟩ := writerStep_cases h
  · exact hp
  · exact portInv_writerTurn hp h

/-- `worker_exit` drops the outbound chunk (R305). -/
theorem portInv_finishExit {s : State} (self : Bool) (hp : PortInv s) : PortInv (finishExit self s) := by
  rw [finishExit_eq]; exact portInv_mono hp (hout := nofun)

theorem portInv_workerExit {s : State} (self : Bool) (hp : PortInv s) : PortInv (workerExit self s) := by
  obtain ⟨-, -, e⟩ | ⟨-, f, e⟩ := workerExit_cases self s
  · rw [e]; exact portInv_mono hp
  · rw [e]; exact portInv_finishExit self (portInv_mono hp)

theorem portInv_iterateRec {s : State} (hp : PortInv s) : PortInv (iterateRec s) := by
  obtain ⟨-, e⟩ | ⟨-, -, e⟩ | ⟨-, -, chunk, hoffer, -, e⟩ | ⟨-, -, e⟩ := iterateRec_cases s
  · rw [e]; exact portInv_workerExit false hp
  · rw [e]; exact portInv_workerExit true hp
  · rw [e]; exact ⟨fun _ => hp.offered chunk hoffer, hp.scratch, nofun, hp.out⟩
  · rw [e]; exact portInv_mono hp

theorem portInv_iterate {s t : State} (hp : PortInv s) (h : iterate s = .ok t) : PortInv t := by
  obtain ⟨-, rfl⟩ | ⟨-, u, hk, hcase⟩ := iterate_cases h
  · exact portInv_iterateRec hp
  · have hu : PortInv u := portInv_datapathOnly hk.frame hp
    obtain rfl | rfl | ⟨-, out, eot, hne, hle, rfl⟩ := hcase
    · exact hu
    · exact portInv_workerExit true hu
    · have hparams : u.params = s.params := by rw [hk.frame]
      exact ⟨hu.slot, hu.scratch, hu.offered, fun _ => ⟨List.length_pos_iff.2 hne, by rw [hparams]; exact hle⟩⟩

theorem portInv_afterTake {s : State} (eot : Bool) (hp : PortInv s) : PortInv (afterTake eot s) := by
  obtain ⟨-, e⟩ | ⟨-, -, e⟩ | ⟨-, -, e⟩ := afterTake_cases eot s
  · rw [e]; exact portInv_workerExit false hp
  · rw [e]; exact portInv_workerExit true hp
  · rw [e]; exact portInv_mono hp

theorem portInv_workerTurn {s t : State} (hp : PortInv s) (h : workerTurn s = .ok t) : PortInv t := by
  obtain ⟨-, -, rfl⟩ | ⟨-, -, h⟩ | ⟨eot, -, rfl⟩ | ⟨-, rfl⟩ | ⟨self, -, rfl⟩ := workerTurn_cases h
  · exact portInv_workerExit false hp
  · exact portInv_iterate (s := drawUpdate s) (portInv_mono hp) h
  · exact portInv_afterTake eot hp
  · exact portInv_iterateRec hp
  · exact portInv_finishExit self hp

theorem portInv_workerStep {s t : State} (hp : PortInv s) (h : workerStep s = .next t) : PortInv t := by
  obtain ⟨-, rfl⟩ | ⟨-, -, -, h⟩ := workerStep_cases h
  · exact hp
  · exact portInv_workerTurn hp h

/-! #### The dispatcher, the receiver, the host and the step -/

theorem portInv_openAndEnter {bytes : List Byte} {readOnly : Bool} {s t : State} (hp : PortInv s)
    (h : openAndEnter bytes readOnly s = .next t) : PortInv t := by
  obtain ⟨code, -, rfl⟩ | ⟨hd, s1, c, -, h1, -, e⟩ := openAndEnter_cases h
  · exact portInv_mono hp
  · rw [e, (load_frame h1).1]; exact portInv_mono hp

theorem portInv_ejectTape {s t : State} (hp : PortInv s) (h : ejectTape s = .ok t) : PortInv t := by
  obtain ⟨u, v, hu, hv, e⟩ := ejectTape_cases h
  have hflushed : PortInv u := by rw [(flush_frame hu).1]; exact portInv_mono hp
  have hclosed : PortInv v := by rw [persistPosition_frame hv]; exact portInv_mono hflushed
  rw [e]
  exact portInv_mono hclosed

/-- `start_write()` empties the slot and gives the scratch cursor up (R210). -/
theorem portInv_startOperation {m : Mode} {s t : State} (hp : PortInv s) (h : startOperation m s = some t) :
    PortInv t := by
  obtain rfl | rfl | rfl | rfl := startOperation_cases h
  · exact hp
  · exact portInv_mono hp
  · exact portInv_mono hp
  · exact portInv_mono hp (hslot := nofun) (hscr := nofun)

theorem portInv_finishStart {m : Mode} {s t : State} (hp : PortInv s) (h : finishStart m s = .next t) : PortInv t := by
  obtain ⟨-, s1, h1, rfl⟩ := finishStart_cases h
  have hstarted : PortInv s1 := portInv_startOperation (portInv_mono hp) h1
  exact portInv_mono hstarted

theorem portInv_dispatcherStep {s t : State} (hp : PortInv s) (h : dispatcherStep s = .next t) : PortInv t := by
  obtain ⟨u, hu, heffect⟩ := dispatcherStep_effect h
  replace hp : PortInv u := portInv_controlOnly hu hp
  cases heffect with
  | control h => exact portInv_controlOnly h hp
  | start h => exact portInv_finishStart hp h
  | eject h => exact portInv_ejectTape hp h
  | insert h => exact portInv_openAndEnter hp h
  | replace hej h => exact portInv_openAndEnter (portInv_ejectTape hp hej) h

theorem portInv_receiverStep {s t : State} (hp : PortInv s) (h : receiverStep s = .next t) : PortInv t := by
  obtain rfl | ⟨b, rest, -, -, rfl⟩ := receiverStep_cases h
  · exact hp
  · exact portInv_mono hp

/-- The host offers a chunk only of the right size (R98, R392), taking the outbound chunk drops it (R97), and its reset leaves no
chunk (R380); every other action leaves the chunks alone. -/
theorem portInv_hostAct {act : HostAction} {rest : List HostAction} {s t : State} (hp : PortInv s)
    (h : hostAct act rest s = .next t) : PortInv t := by
  cases act with
  | reset => cases h; exact ⟨nofun, nofun, nofun, nofun⟩
  | offerChunk bytes =>
    simp only [hostAct, offerChunk] at h
    split at h
    · rename_i hlen
      split at h
      · cases h; exact ⟨hp.slot, hp.scratch, fun _ hc => by cases hc; exact hlen, hp.out⟩
      · cases h; exact hp
    · cases h
  | takeChunk =>
    cases h
    split
    · exact portInv_mono hp (hout := nofun)
    · exact hp
  | readStatus a =>
    simp only [hostAct, readStatus] at h
    split at h
    · split at h
      · cases h
      · cases h; exact portInv_mono hp
    · split at h
      · cases h
      · cases h; exact portInv_mono hp
  | readImage a =>
    simp only [hostAct, hostRead] at h
    split at h
    · cases h
    · obtain ⟨v, -, h⟩ := andThen_next_iff.1 h
      cases h; exact portInv_mono hp
  | writeImage a v =>
    obtain ⟨-, -, rfl⟩ := hostWrite_cases h
    exact portInv_mono (s := s) hp
  | takeFrame => cases h; unfold takeFrame; split <;> exact portInv_mono hp
  | takeEvent =>
    cases h
    unfold takeEvent
    split
    · exact hp
    · split <;> exact portInv_mono hp
  | deviceError => cases h; unfold deviceError; split <;> exact portInv_mono (s := s) hp
  | deviceDisconnected => cases h; unfold deviceDisconnected; split <;> exact portInv_mono (s := s) hp
  | pushPort _ | issue _ | insert _ _ | setAltRate _ | setRecConv _ | listen => cases h; exact portInv_mono hp

theorem portInv_hostStep {s t : State} (hp : PortInv s) (h : hostStep s = .next t) : PortInv t := by
  obtain ⟨-, rfl⟩ | ⟨act, rest, -, h⟩ := hostStep_cases h
  · exact hp
  · exact portInv_hostAct hp h

theorem portInv_agentStep {a : Agent} {s t : State} (hp : PortInv s) (h : agentStep a s = .next t) : PortInv t := by
  cases a with
  | receiver => exact portInv_receiverStep hp h
  | dispatcher => exact portInv_dispatcherStep hp h
  | worker => exact portInv_workerStep hp h
  | writer => exact portInv_writerStep hp h
  | host => exact portInv_hostStep hp h

/-- Settles O56: every agent's turn keeps the chunks at their sizes, by the inversion of each turn. -/
theorem chunkSizesAreKept : Obligations.ChunkSizesAreKept := by
  intro s t hp h
  obtain ⟨u, hu, rfl⟩ := step_next_iff.1 h
  rw [observe_eq]
  exact portInv_mono (portInv_agentStep (portInv_mono hp) hu)

/-! ### The sensor byte (R52, R132, R133) -/

theorem flagBit_getLsbD (v : Bool) (p i : Fin 8) : (flagBit v p).getLsbD i = (i == p && v) := by
  revert v p i; decide

/-- R52, R132: the sensor byte bit by bit. -/
theorem sensor_getLsbD (s : State) (i : Fin 8) :
    (sensor s).getLsbD i = ((i == s.params.sensorBitRunning && s.running) ||
      (i == s.params.sensorBitTapeset && s.loaded) || (i == s.params.sensorBitNotwp && s.loaded && !s.protect)) := by
  simp only [sensor, BitVec.getLsbD_or, flagBit_getLsbD, Bool.and_assoc]

/-- R132: NOT-WRITE-PROTECTED has a position of its own. -/
theorem sensorBitNotwp_ne_running {p : Params} (h : p.wf = true) : p.sensorBitNotwp ≠ p.sensorBitRunning := by
  simp only [Params.wf, Bool.and_eq_true, decide_eq_true_eq] at h
  obtain ⟨⟨⟨⟨⟨⟨-, hdistinct⟩, -⟩, -⟩, -⟩, -⟩, -⟩ := h
  intro heq
  simp [heq] at hdistinct

/-- R133: a block that does not run and has no tape shows no sensor bit. -/
theorem sensor_of_idle {s : State} (hr : s.running = false) (hl : s.loaded = false) : sensor s = 0x00 := by
  simp [sensor, flagBit, hr, hl]

/-- Settles O7, from the byte bit by bit and the distinct positions of R132. -/
theorem sensorByteBits : Obligations.SensorByteBits := by
  refine ⟨sensor_getLsbD, fun s i hl hwf hi => ?_, sensor_of_idle rfl rfl⟩
  have hne : (i == s.params.sensorBitRunning) = false := by
    rw [hi]; exact beq_false_of_ne (sensorBitNotwp_ne_running hwf)
  rw [sensor_getLsbD, hne, hl]
  simp

/-! ### Reset (R63, R380, R381) -/

/-- What reset leaves does not depend on the state before it. -/
theorem atReset_restart (s : State) : AtReset (restart s) where
  tape := ⟨rfl, rfl, rfl⟩
  chunks := ⟨rfl, rfl, rfl, rfl⟩
  control := ⟨rfl, rfl, rfl, rfl⟩
  agents := ⟨rfl, rfl, rfl⟩
  config := ⟨rfl, rfl, rfl⟩
  device := ⟨rfl, rfl⟩
  queues := ⟨rfl, rfl, rfl⟩
  sensor := sensor_of_idle rfl rfl
  holds := ⟨rfl, rfl⟩

/-- Power-on is a reset of the reset state. -/
theorem restart_reset : restart State.reset = State.reset := rfl

/-- The host's turn is the next action of its script (R365). -/
theorem agentStep_host {s : State} {act : HostAction} {rest : List HostAction} (h : s.host = act :: rest) :
    agentStep .host s = hostAct act rest s := by
  simp [agentStep, hostStep, h]

/-- Settles O51: power-on and the host's reset leave the same registers, and the latter keeps the image store, the parameters
and the host's own fields. -/
theorem resetState : Obligations.ResetState := by
  refine ⟨restart_reset ▸ atReset_restart State.reset, fun s rest h => ?_⟩
  exact ⟨restart { s with host := rest }, agentStep_host h, atReset_restart _, fun _ => rfl, rfl, rfl, rfl, rfl, rfl, rfl⟩

/-- R9: the parameters of the reset state are the chip's, with two defaults of the spec that `Params.wf` does not read. -/
theorem params_reset_wf : State.reset.params.wf = true := Config.machineParams.ok

theorem memInv_reset : MemInv State.reset := ⟨reset_img_wf, nofun⟩

theorem tapeInv_reset : TapeInv State.reset := tapeInv_of_unloaded rfl rfl

/-- With no agent alive, no join and mode EJECT, the controller's invariant asks only that RUNNING and the tape agree. -/
theorem ctrlInv_reset : CtrlInv State.reset where
  worker := nofun
  quiet _ _ := rfl
  tape := ⟨fun _ => rfl, fun _ => rfl⟩
  entered := nofun
  running := rfl
  writer := nofun
  session := nofun
  cancel := nofun
  takeHold := nofun
  offerHold := nofun
  exitHold := nofun
  outbound := nofun
  joining := nofun
  starting := nofun

theorem portInv_reset : PortInv State.reset := ⟨nofun, nofun, nofun, nofun⟩

theorem queueInv_reset : QueueInv State.reset := List.Pairwise.nil

theorem rangeInv_reset : RangeInv State.reset := ⟨nofun, nofun, nofun⟩

/-- Settles O52: no tape, no agent, no chunk and empty queues at reset. -/
theorem resetMeetsTheInvariants : Obligations.ResetMeetsTheInvariants :=
  ⟨params_reset_wf, memInv_reset, tapeInv_reset, ctrlInv_reset, portInv_reset, queueInv_reset, rangeInv_reset⟩

/-! ### The surface and the host's actions (R64, R94, R365) -/

/-- R64: the value of each status field; a tape field has none with no tape loaded. -/
theorem statusValue_fields (s : State) :
    statusValue .mode s = some (.mode s.mode) ∧ statusValue .sensor s = some (.byte (sensor s)) ∧
    (s.loaded = true → statusValue .sampleRate s = some (.number s.t) ∧ statusValue .position s = some (.number s.pos) ∧
      statusValue .totalBits s = some (.number s.totalBits)) ∧
    (s.loaded = false → ∀ a, a = .sampleRate ∨ a = .position ∨ a = .totalBits → statusValue a s = none) := by
  refine ⟨rfl, rfl, fun hl => ⟨if_pos hl, if_pos hl, if_pos hl⟩, fun hl a ha => ?_⟩
  obtain rfl | rfl | rfl := ha <;> simp [statusValue, hl]

/-- R94: the request of a status read, which faults where the field has no value. -/
theorem readStatus_request {s : State} (a : StatusAccess) (rest : List HostAction) (hq : s.statusRead = none) :
    (∀ v, statusValue a s = some v → readStatus a rest s = .next { s with statusRead := some ⟨a, [v]⟩ }) ∧
    (statusValue a s = none → readStatus a rest s = .fault .noTape) := by
  constructor
  · intro v hv; simp [readStatus, hq, hv]
  · intro hv; simp [readStatus, hq, hv]

/-- Whatever the draw, the answer is one of the values the field has held. -/
theorem drawStatus_mem {q : StatusRead} (h : q.seen ≠ []) (draw : Nat) : ∃ v ∈ q.seen, drawStatus q draw = some v := by
  unfold drawStatus
  split
  · rename_i v hs
    exact ⟨v, by simp [hs], rfl⟩
  · have hlt : draw % q.seen.length < q.seen.length := Nat.mod_lt _ (List.length_pos_iff.2 h)
    exact ⟨q.seen[draw % q.seen.length], List.getElem_mem hlt, List.getElem?_eq_getElem hlt⟩

/-- R94: the answer of a status read. -/
theorem readStatus_answer {s : State} {q : StatusRead} (a : StatusAccess) (rest : List HostAction)
    (hq : s.statusRead = some q) (hs : q.seen ≠ []) :
    ∃ v ∈ q.seen, readStatus a rest s = .next { s with
      statusRead := none, draws := s.draws + 1, host := rest, hostLog := s.hostLog ++ [.status q.access v] } := by
  obtain ⟨v, hv, hdraw⟩ := drawStatus_mem hs (Config.freeRead s.draws)
  exact ⟨v, hv, by simp [readStatus, hq, hdraw, logResult]⟩

/-- R94: a pending status read sees the value that its field holds now, and nothing else. -/
theorem observe_pending {s : State} {q : StatusRead} (hq : s.statusRead = some q) :
    ∃ seen, observe s = { s with statusRead := some ⟨q.access, seen⟩ } ∧
      ∀ v, v ∈ seen ↔ v ∈ q.seen ∨ statusValue q.access s = some v := by
  cases hv : statusValue q.access s with
  | none =>
    have hsame : observe s = s := by simp [observe, hq, hv]
    have heta : s = { s with statusRead := some q } := by rw [← hq]
    exact ⟨q.seen, hsame.trans heta, by simp⟩
  | some x =>
    refine ⟨if q.seen.contains x then q.seen else q.seen ++ [x], by simp [observe, hq, hv], fun v => ?_⟩
    split
    · rename_i hx
      have hx : x ∈ q.seen := by simpa using hx
      constructor
      · exact .inl
      · rintro (hmem | heq)
        · exact hmem
        · cases heq; exact hx
    · simp [eq_comm]

theorem observe_of_no_read {s : State} (hq : s.statusRead = none) : observe s = s := by
  simp [observe, hq]

theorem takeEvent_cons {s : State} {e : Event} {q : List Event} (rest : List HostAction) (h : s.evtQ = e :: q) :
    takeEvent rest s =
      if s.listener then { s with evtQ := q, host := rest, hostLog := s.hostLog ++ [.event e] } else s := by
  simp [takeEvent, h, logResult]

theorem takeEvent_nil {s : State} (rest : List HostAction) (h : s.evtQ = []) : takeEvent rest s = s := by
  simp [takeEvent, h]

theorem takeFrame_cons {s : State} {f : Frame} {q : List Frame} (rest : List HostAction) (h : s.rspQ = f :: q) :
    takeFrame rest s = { s with rspQ := q, host := rest, hostLog := s.hostLog ++ [.frame f] } := by
  simp [takeFrame, h, logResult]

theorem takeFrame_nil {s : State} (rest : List HostAction) (h : s.rspQ = []) : takeFrame rest s = s := by
  simp [takeFrame, h]

/-- R97: there is no outbound chunk outside PLAY or while `outValid` is clear. -/
theorem canTake_eq_false {s : State} (h : s.outValid = false ∨ s.mode ≠ .play) : canTake s = false := by
  obtain hv | hm := h
  · simp [canTake, hv]
  · simp [canTake, hm]

/-- R97, R99, R100: the host holds while there is nothing to take. -/
theorem agentStep_host_waits {s : State} {rest : List HostAction}
    (h : (s.host = .takeFrame :: rest ∧ s.rspQ = []) ∨ (s.host = .takeEvent :: rest ∧ s.evtQ = []) ∨
      (s.host = .takeChunk :: rest ∧ (s.outValid = false ∨ s.mode ≠ .play))) :
    agentStep .host s = .next s := by
  obtain ⟨hh, hq⟩ | ⟨hh, hq⟩ | ⟨hh, hv⟩ := h
  · rw [agentStep_host hh]; exact congrArg _ (takeFrame_nil rest hq)
  · rw [agentStep_host hh]; exact congrArg _ (takeEvent_nil rest hq)
  · rw [agentStep_host hh]; simp [hostAct, canTake_eq_false hv]

/-- R98, R392: an offer is taken, waits behind another, or is refused for its size. -/
theorem offerChunk_spec (bytes : List Byte) (rest : List HostAction) (s : State) :
    (bytes.length = s.params.chunkBytes → s.offer = none →
      offerChunk bytes rest s = .next { s with offer := some bytes, host := rest }) ∧
    (bytes.length = s.params.chunkBytes → s.offer ≠ none → offerChunk bytes rest s = .next s) ∧
    (bytes.length ≠ s.params.chunkBytes → offerChunk bytes rest s = .refused .chunkSize) := by
  refine ⟨fun hlen ho => ?_, fun hlen ho => ?_, fun hlen => ?_⟩
  · simp [offerChunk, hlen, ho]
  · obtain ⟨chunk, hc⟩ := Option.ne_none_iff_exists'.1 ho
    simp [offerChunk, hlen, hc]
  · simp [offerChunk, hlen]

/-- R80: an offset outside the file cannot be read. -/
theorem imgRead_outside {a : Nat} {s : State} (h : s.fileSize ≤ a) : imgRead a s = .error .addressOutside :=
  if_neg (Nat.not_lt.2 h)

/-- R80: an offset outside the file cannot be written. -/
theorem imgWrite_outside {a : Nat} {v : Byte} {s : State} (h : s.fileSize ≤ a) :
    imgWrite a v s = .error .addressOutside :=
  if_neg (Nat.not_lt.2 h)

/-- R395: the host's read of the image store. -/
theorem hostRead_spec (a : Nat) (s : State) :
    (s.loaded = true → hostRead a s = .refused .imageOwned) ∧
    (s.loaded = false → a < s.fileSize →
      hostRead a s = .next { s with hostLog := s.hostLog ++ [.imageByte a (Memory.get s.img a)] }) ∧
    (s.loaded = false → s.fileSize ≤ a → hostRead a s = .fault .addressOutside) := by
  refine ⟨fun hl => ?_, fun hl ha => ?_, fun hl ha => ?_⟩
  · simp [hostRead, hl]
  · simp [hostRead, hl, imgRead_ok_iff.2 ⟨ha, rfl⟩, logResult]
  · simp [hostRead, hl, imgRead_outside ha, andThen]

/-- R395: the host's write of the image store changes one byte. -/
theorem hostWrite_spec (a : Nat) (v : Byte) (s : State) :
    (s.loaded = true → hostWrite a v s = .refused .imageOwned) ∧
    (s.loaded = false → a < s.fileSize → hostWrite a v s = .next { s with img := Memory.set s.img a v }) ∧
    (s.loaded = false → s.fileSize ≤ a → hostWrite a v s = .fault .addressOutside) := by
  refine ⟨fun hl => ?_, fun hl ha => ?_, fun hl ha => ?_⟩
  · simp [hostWrite, hl]
  · simp [hostWrite, hl, imgWrite_ok_iff.2 ⟨ha, rfl⟩]
  · simp [hostWrite, hl, imgWrite_outside ha, andThen]

/-- Byte by byte, a canonical image store after a write. -/
theorem get_set {m : List Host.Cell} (hm : Memory.wf m) (a : Nat) (v : Byte) (x : Nat) :
    Memory.get (Memory.set m a v) x = if x = a then v else Memory.get m x := by
  split
  · rename_i hx; rw [hx]; exact get_set_same hm a v
  · rename_i hx; exact get_set_other hm v hx

/-- R395: the host's turn that writes the image store. -/
theorem agentStep_host_writeImage {s : State} {a : Nat} {v : Byte} {rest : List HostAction}
    (hh : s.host = .writeImage a v :: rest) :
    (s.loaded = true → agentStep .host s = .refused .imageOwned) ∧
    (MemInv s → s.loaded = false → a < s.fileSize → ∃ t : State, agentStep .host s = .next t ∧
      t = { s with host := rest, img := t.img } ∧
      ∀ x, Memory.get t.img x = if x = a then v else Memory.get s.img x) ∧
    (s.loaded = false → s.fileSize ≤ a → agentStep .host s = .fault .addressOutside) := by
  rw [agentStep_host hh]
  obtain ⟨howned, hwrite, houtside⟩ := hostWrite_spec a v { s with host := rest }
  exact ⟨howned, fun hm hl ha => ⟨_, hwrite hl ha, rfl, get_set hm.canonical a v⟩, houtside⟩

/-- Settles O15: the host's turn is its next action, and each action has its own law above or is its equation. -/
theorem surfaceReadsAndWrites : Obligations.SurfaceReadsAndWrites := by
  refine ⟨statusValue_fields, ?request, ?answer, fun s q => observe_pending, fun s => observe_of_no_read,
    fun s v rest => agentStep_host, fun s v rest => agentStep_host, fun s b rest => agentStep_host,
    fun s rest => agentStep_host, ?event, fun s b rest => agentStep_host, fun s bytes ro rest => agentStep_host, ?frame,
    fun s rest => agentStep_host_waits, ?offer, ?read, fun s a v rest => agentStep_host_writeImage,
    fun s rest => agentStep_host, fun s rest => agentStep_host⟩
  case request =>
    intro s a rest hh hq
    rw [agentStep_host hh]
    exact readStatus_request a rest hq
  case answer =>
    intro s a rest q hh hq hs
    rw [agentStep_host hh]
    exact readStatus_answer a rest hq hs
  case event =>
    intro s e q rest hh hq
    rw [agentStep_host hh]
    exact congrArg _ (takeEvent_cons rest hq)
  case frame =>
    intro s f q rest hh hq
    rw [agentStep_host hh]
    exact congrArg _ (takeFrame_cons rest hq)
  case offer =>
    intro s bytes rest hh
    rw [agentStep_host hh]
    exact offerChunk_spec bytes rest s
  case read =>
    intro s a rest hh
    rw [agentStep_host hh]
    exact hostRead_spec a { s with host := rest }

end Sys2Proof.Proofs
end

section
/-! SUPPORT. The statements of the family 20_memory.md: the image store and the header along every step, the handoff slot, and
the outbound chunk. -/

namespace Sys2Proof.Proofs

open Sys2Proof.Machine Sys2Proof.Laws

/-! ### What the worker's and the writer's turns write beside the tape -/

/-- Only the writer's own registers and the slot's flag differ. -/
def WriterOnly (s t : State) : Prop :=
  t = { s with
    scr := t.scr, spos := t.spos, sValid := t.sValid, slotFull := t.slotFull, writerAlive := t.writerAlive }

/-- Only the worker's control, the outbound chunk and what a worker's exit publishes differ. -/
def WorkerOnly (s t : State) : Prop :=
  t = { s with
    mode := t.mode, running := t.running, recEntered := t.recEntered, runFlag := t.runFlag
    workerAlive := t.workerAlive, workerAt := t.workerAt
    outChunk := t.outChunk, outValid := t.outValid, rspQ := t.rspQ }

/-- What the worker does once the datapath has moved: it writes its own registers alone, or it moves the offered chunk to the free
slot (R95, R229). -/
inductive WorkerEffect (s : State) : State → Prop
  | control {t : State} : WorkerOnly s t → WorkerEffect s t
  | accept {chunk : List Byte} : s.slotFull = false →
      WorkerEffect s { s with slotData := chunk, slotFull := true, offer := none, workerAt := .top }

/-- The writer's turn moves the datapath, and before and after it writes its own registers alone (R211, R212). -/
theorem writerTurn_frame {s t : State} (h : writerTurn s = .ok t) :
    ∃ d u, WriterOnly s d ∧ TapeKept d u ∧ WriterOnly u t := by
  obtain ⟨v, u, -, h1, -, rfl⟩ | ⟨v, u, u', -, h1, -, h2, rfl⟩ | ⟨-, -, rfl⟩ | ⟨-, -, -, rfl⟩ |
    ⟨u, u', -, -, -, h1, h2, rfl⟩ := writerTurn_cases h
  · exact ⟨{ s with spos := s.spos + 1 }, t, rfl, tapeKept_recStep h1, rfl⟩
  · exact ⟨{ s with spos := s.spos + 1 }, u', rfl, tapeKept_trans (tapeKept_recStep h1) (tapeKept_flush h2), rfl⟩
  · exact ⟨s, s, rfl, tapeKept_refl s, rfl⟩
  · exact ⟨s, s, rfl, tapeKept_refl s, rfl⟩
  · exact ⟨{ s with sValid := false }, u', rfl, tapeKept_trans (tapeKept_cancelEnd h1) (tapeKept_flush h2), rfl⟩

theorem workerExit_frame (self : Bool) (s : State) : WorkerOnly s (workerExit self s) := by
  obtain ⟨-, -, e⟩ | ⟨-, f, e⟩ := workerExit_cases self s
  · rw [e]; rfl
  · rw [e]; rfl

theorem iterateRec_effect (s : State) : WorkerEffect s (iterateRec s) := by
  obtain ⟨-, e⟩ | ⟨-, -, e⟩ | ⟨-, -, chunk, -, hfree, e⟩ | ⟨-, -, e⟩ := iterateRec_cases s
  · rw [e]; exact .control (workerExit_frame false s)
  · rw [e]; exact .control (workerExit_frame true s)
  · rw [e]; exact .accept hfree
  · rw [e]; exact .control rfl

theorem afterTake_frame (eot : Bool) (s : State) : WorkerOnly s (afterTake eot s) := by
  obtain ⟨-, e⟩ | ⟨-, -, e⟩ | ⟨-, -, e⟩ := afterTake_cases eot s
  · rw [e]; exact workerExit_frame false s
  · rw [e]; exact workerExit_frame true s
  · rw [e]; rfl

/-- An iteration moves the datapath and then has one effect (R301). -/
theorem iterate_effect {s t : State} (h : iterate s = .ok t) : ∃ u, TapeKept s u ∧ WorkerEffect u t := by
  obtain ⟨-, rfl⟩ | ⟨-, u, hk, hcase⟩ := iterate_cases h
  · exact ⟨s, tapeKept_refl s, iterateRec_effect s⟩
  · refine ⟨u, hk, ?_⟩
    obtain rfl | rfl | ⟨-, out, eot, -, -, rfl⟩ := hcase
    · exact .control rfl
    · exact .control (workerExit_frame true u)
    · exact .control rfl

/-- The worker's turn, perhaps after its UPDATE draw, moves the datapath and then has one effect (R301 to R305). -/
theorem workerTurn_effect {s t : State} (h : workerTurn s = .ok t) :
    ∃ d u, (d = s ∨ d = drawUpdate s) ∧ TapeKept d u ∧ WorkerEffect u t := by
  obtain ⟨-, -, rfl⟩ | ⟨-, -, h⟩ | ⟨eot, -, rfl⟩ | ⟨-, rfl⟩ | ⟨self, -, rfl⟩ := workerTurn_cases h
  · exact ⟨s, s, .inl rfl, tapeKept_refl s, .control (workerExit_frame false s)⟩
  · obtain ⟨u, hk, heffect⟩ := iterate_effect h
    exact ⟨drawUpdate s, u, .inr rfl, hk, heffect⟩
  · exact ⟨s, s, .inl rfl, tapeKept_refl s, .control (afterTake_frame eot s)⟩
  · exact ⟨s, s, .inl rfl, tapeKept_refl s, iterateRec_effect s⟩
  · exact ⟨s, s, .inl rfl, tapeKept_refl s, .control rfl⟩

/-! ### The image file along a step (R80, R90, R91, R176, R177, R395)

Every turn keeps the parameters and the canonical form of the image store. Beside that it leaves the open tape and its header
fixed, or it closes the tape, or it executes an insertion. -/

/-- The image store stays canonical and inside the file, and the parameters stay. -/
structure StoreKept (s t : State) : Prop where
  mem    : MemInv s → MemInv t
  params : t.params = s.params

/-- The open tape stays: its file's size, its fields and every header byte. -/
structure TapeFixed (s t : State) : Prop extends StoreKept s t where
  fileSize  : t.fileSize = s.fileSize
  loaded    : t.loaded = s.loaded
  variant   : t.variant = s.variant
  rate      : t.t = s.t
  totalBits : t.totalBits = s.totalBits
  protect   : t.protect = s.protect
  readOnly  : t.readOnly = s.readOnly
  header    : s.loaded = true → MemInv s → ∀ a, a < hdr s → Memory.get t.img a = Memory.get s.img a

/-- The tape is closed: only the position bytes of a MODERN header may differ (R176). -/
structure TapeClosed (s t : State) : Prop extends StoreKept s t where
  unloaded : t.loaded = false
  fileSize : t.fileSize = s.fileSize
  header   : s.loaded = true → MemInv s → ∀ a, a < hdr s → ¬ (s.variant = .modern ∧ 36 ≤ a ∧ a < 40) →
               Memory.get t.img a = Memory.get s.img a

/-- An insertion is executed, and the host gets its result (R178, R365). -/
structure InsertionRun (s t : State) : Prop extends StoreKept s t where
  logged : ∃ r, t.hostLog = s.hostLog ++ [.inserted r]

/-- What a turn does to the image file and the open tape. -/
inductive FileEffect (s t : State) : Prop
  | fixed : TapeFixed s t → FileEffect s t
  | closed : TapeClosed s t → FileEffect s t
  | inserted : InsertionRun s t → FileEffect s t

theorem FileEffect.storeKept {s t : State} (h : FileEffect s t) : StoreKept s t := by
  cases h with
  | fixed h => exact h.toStoreKept
  | closed h => exact h.toStoreKept
  | inserted h => exact h.toStoreKept

theorem hdr_congr {s t : State} (h : t.variant = s.variant) : hdr t = hdr s := by rw [hdr, h, hdr]

theorem storeKept_trans {s t u : State} (h1 : StoreKept s t) (h2 : StoreKept t u) : StoreKept s u :=
  ⟨h2.mem ∘ h1.mem, h2.params.trans h1.params⟩

/-- A turn that leaves the file and the tape's fields alone. -/
theorem tapeFixed_congr {s t : State} (hi : t.img = s.img := by rfl) (hp : t.params = s.params := by rfl)
    (h1 : t.fileSize = s.fileSize := by rfl) (h2 : t.loaded = s.loaded := by rfl)
    (h3 : t.variant = s.variant := by rfl) (h4 : t.t = s.t := by rfl) (h5 : t.totalBits = s.totalBits := by rfl)
    (h6 : t.protect = s.protect := by rfl) (h7 : t.readOnly = s.readOnly := by rfl) : TapeFixed s t :=
  ⟨⟨fun hm => memInv_congr hm hi h1, hp⟩, h1, h2, h3, h4, h5, h6, h7, fun _ _ _ _ => by rw [hi]⟩

theorem tapeFixed_trans {s t u : State} (h1 : TapeFixed s t) (h2 : TapeFixed t u) : TapeFixed s u where
  toStoreKept := storeKept_trans h1.toStoreKept h2.toStoreKept
  fileSize := h2.fileSize.trans h1.fileSize
  loaded := h2.loaded.trans h1.loaded
  variant := h2.variant.trans h1.variant
  rate := h2.rate.trans h1.rate
  totalBits := h2.totalBits.trans h1.totalBits
  protect := h2.protect.trans h1.protect
  readOnly := h2.readOnly.trans h1.readOnly
  header hl hm a ha :=
    (h2.header (h1.loaded.trans hl) (h1.mem hm) a (by rwa [hdr_congr h1.variant])).trans (h1.header hl hm a ha)

/-- What follows a turn that leaves the tape fixed and logs nothing has the same effect seen from before it. -/
theorem fileEffect_after {s t u : State} (h1 : TapeFixed s t) (hlog : t.hostLog = s.hostLog)
    (h2 : FileEffect t u) : FileEffect s u := by
  have hstore := storeKept_trans h1.toStoreKept h2.storeKept
  cases h2 with
  | fixed h2 => exact .fixed (tapeFixed_trans h1 h2)
  | closed h2 =>
    refine .closed ⟨hstore, h2.unloaded, h2.fileSize.trans h1.fileSize, fun hl hm a ha hp => ?_⟩
    rw [h2.header (h1.loaded.trans hl) (h1.mem hm) a (by rwa [hdr_congr h1.variant]) (by rwa [h1.variant])]
    exact h1.header hl hm a ha
  | inserted h2 => exact .inserted ⟨hstore, by rw [← hlog]; exact h2.logged⟩

/-! #### The worker and the writer -/

theorem tapeFixed_of_tapeKept {s t : State} (h : TapeKept s t) : TapeFixed s t where
  mem := h.mem
  params := by rw [h.frame]
  fileSize := by rw [h.frame]
  loaded := by rw [h.frame]
  variant := by rw [h.frame]
  rate := by rw [h.frame]
  totalBits := by rw [h.frame]
  protect := by rw [h.frame]
  readOnly := by rw [h.frame]
  header _ := h.header

theorem tapeFixed_writerTurn {s t : State} (h : writerTurn s = .ok t) : TapeFixed s t := by
  obtain ⟨d, u, hd, hk, ht⟩ := writerTurn_frame h
  have hbefore : TapeFixed s d := by rw [hd]; exact tapeFixed_congr
  have hafter : TapeFixed u t := by rw [ht]; exact tapeFixed_congr
  exact tapeFixed_trans hbefore (tapeFixed_trans (tapeFixed_of_tapeKept hk) hafter)

theorem tapeFixed_writerStep {s t : State} (h : writerStep s = .next t) : TapeFixed s t := by
  obtain ⟨-, rfl⟩ | ⟨-, -, -, h⟩ := writerStep_cases h
  · exact tapeFixed_congr
  · exact tapeFixed_writerTurn h

theorem tapeFixed_workerEffect {s t : State} (h : WorkerEffect s t) : TapeFixed s t := by
  cases h with
  | control h => rw [h]; exact tapeFixed_congr
  | accept _ => exact tapeFixed_congr

theorem tapeFixed_workerTurn {s t : State} (h : workerTurn s = .ok t) : TapeFixed s t := by
  obtain ⟨d, u, hd, hk, heffect⟩ := workerTurn_effect h
  have hbefore : TapeFixed s d := by
    obtain rfl | rfl := hd
    · exact tapeFixed_congr
    · exact tapeFixed_congr
  exact tapeFixed_trans hbefore (tapeFixed_trans (tapeFixed_of_tapeKept hk) (tapeFixed_workerEffect heffect))

theorem tapeFixed_workerStep {s t : State} (h : workerStep s = .next t) : TapeFixed s t := by
  obtain ⟨-, rfl⟩ | ⟨-, -, -, h⟩ := workerStep_cases h
  · exact tapeFixed_congr
  · exact tapeFixed_workerTurn h

/-! #### Start, EJECT and insertion -/

/-- Only the controller's, the writer's and the transport registers that a start operation seeds differ, and the slot's flag. -/
def StartOnly (s t : State) : Prop :=
  t = { s with
    mode := t.mode, running := t.running, recEntered := t.recEntered, runFlag := t.runFlag
    workerMode := t.workerMode, workerAlive := t.workerAlive, workerAt := t.workerAt, rspQ := t.rspQ
    acc := t.acc, ign := t.ign, maj := t.maj, mis := t.mis, mat := t.mat, seen := t.seen, found := t.found
    recStrategy := t.recStrategy, ended := t.ended, w := t.w, vote := t.vote, last := t.last
    phase := t.phase, prev := t.prev, n := t.n, k := t.k
    sValid := t.sValid, spos := t.spos, slotFull := t.slotFull, writerAlive := t.writerAlive }

theorem finishStart_frame {m : Mode} {s t : State} (h : finishStart m s = .next t) : StartOnly s t := by
  obtain ⟨-, s1, h1, rfl⟩ := finishStart_cases h
  obtain rfl | rfl | rfl | rfl := startOperation_cases h1
  · rfl
  · rfl
  · rfl
  · rfl

/-- `MemWrite` of several bytes leaves every offset outside them alone. -/
theorem imgWriteBytes_get_outside {bytes : List Byte} {a x : Nat} {s t : State} (hm : MemInv s)
    (h : imgWriteBytes a bytes s = .ok t) (hx : x < a ∨ a + bytes.length ≤ x) :
    Memory.get t.img x = Memory.get s.img x := by
  induction bytes generalizing a s with
  | nil => cases h; rfl
  | cons b bs ih =>
    rw [List.length_cons] at hx
    obtain ⟨s1, h1, h2⟩ := bind_ok_iff.1 h
    obtain ⟨hlt, rfl⟩ := imgWrite_ok_iff.1 h1
    rw [ih (memInv_write hm hlt b) h2 (by omega)]
    exact get_set_other hm.canonical b (by omega)

/-- The position is written to offsets 36 to 39 of a MODERN image, and nowhere else (R176). -/
theorem persistPosition_get {s t : State} (hm : MemInv s) (h : persistPosition s = .ok t) {a : Nat}
    (ha : ¬ (s.variant = .modern ∧ 36 ≤ a ∧ a < 40)) : Memory.get t.img a = Memory.get s.img a := by
  unfold persistPosition at h
  split at h
  · rename_i hwritable
    have houtside : ¬ (36 ≤ a ∧ a < 40) := fun hin => ha ⟨hwritable.1, hin⟩
    exact imgWriteBytes_get_outside hm h (by simp only [le32bytes, List.length_cons, List.length_nil]; omega)
  · cases h; rfl

theorem memInv_persistPosition {s t : State} (hm : MemInv s) (h : persistPosition s = .ok t) : MemInv t := by
  unfold persistPosition at h
  split at h
  · exact memInv_writeBytes hm h
  · cases h; exact hm

/-- EJECT writes the staged byte, which lies behind the header, and the position (R156, R176, R290). -/
theorem tapeClosed_ejectTape {s t : State} (h : ejectTape s = .ok t) : TapeClosed s t := by
  obtain ⟨u, v, hu, hv, e⟩ := ejectTape_cases h
  have hflushed : TapeFixed s u := tapeFixed_of_tapeKept (tapeKept_flush hu)
  have hframe := persistPosition_frame hv
  have hmem : MemInv s → MemInv v := fun hm => memInv_persistPosition (hflushed.mem hm) hv
  rw [e]
  exact
    { mem := fun hm => memInv_congr (hmem hm)
      params := by rw [hframe]; exact hflushed.params
      unloaded := rfl
      fileSize := by rw [hframe]; exact hflushed.fileSize
      header := fun hl hm a ha hp => by
        rw [← hflushed.header hl hm a ha]
        exact persistPosition_get (hflushed.mem hm) hv (by rwa [hflushed.variant]) }

theorem ejectTape_hostLog {s t : State} (h : ejectTape s = .ok t) : t.hostLog = s.hostLog := by
  obtain ⟨u, v, hu, hv, e⟩ := ejectTape_cases h
  rw [e, persistPosition_frame hv, (flush_frame hu).1]

/-- The file that an image opens from is canonical, whatever the store held (R170). -/
theorem memInv_setTape (bytes : List Byte) (readOnly : Bool) (hd : Header) (s : State) :
    MemInv (setTape bytes readOnly hd s) :=
  ⟨ofBytes_wf bytes 0, fun c hc => by
    have hlt : c.1 < 0 + bytes.length := (mem_ofBytes hc).2.1
    show c.1 < bytes.length
    omega⟩

theorem memInv_load {s t : State} (hm : MemInv s) (h : load s = .ok t) : MemInv t := by
  obtain ⟨hframe, himg, -, -⟩ := load_frame h
  exact memInv_congr hm himg (by rw [hframe])

theorem insertionRun_openAndEnter {bytes : List Byte} {readOnly : Bool} {s t : State}
    (h : openAndEnter bytes readOnly s = .next t) : InsertionRun s t := by
  obtain ⟨code, -, rfl⟩ | ⟨hd, s1, c, -, h1, -, e⟩ := openAndEnter_cases h
  · exact ⟨⟨memInv_congr, rfl⟩, some code, rfl⟩
  · have hloaded : MemInv s1 := memInv_load (memInv_setTape bytes readOnly hd s) h1
    have hframe := (load_frame h1).1
    have hlog : s1.hostLog = s.hostLog := by rw [hframe]; rfl
    have hparams : s1.params = s.params := by rw [hframe]; rfl
    rw [e]
    exact ⟨⟨fun _ => memInv_congr hloaded, hparams⟩, none, by rw [hlog]⟩

/-- An insertion that closes another tape first (R178). -/
theorem insertionRun_replace {bytes : List Byte} {readOnly : Bool} {s u t : State} (hej : ejectTape s = .ok u)
    (h : openAndEnter bytes readOnly u = .next t) : InsertionRun s t := by
  have hopened := insertionRun_openAndEnter h
  exact ⟨storeKept_trans (tapeClosed_ejectTape hej).toStoreKept hopened.toStoreKept,
    by rw [← ejectTape_hostLog hej]; exact hopened.logged⟩

/-! #### The dispatcher, the receiver, the host and the step -/

theorem tapeFixed_controlOnly {s t : State} (h : ControlOnly s t) : TapeFixed s t := by
  rw [h]; exact tapeFixed_congr

theorem dispatcherEffect_file {s t : State} (h : DispatcherEffect s t) : FileEffect s t := by
  cases h with
  | control h => exact .fixed (tapeFixed_controlOnly h)
  | start h => exact .fixed (by rw [finishStart_frame h]; exact tapeFixed_congr)
  | eject h => exact .closed (tapeClosed_ejectTape h)
  | insert h => exact .inserted (insertionRun_openAndEnter h)
  | replace hej h => exact .inserted (insertionRun_replace hej h)

theorem fileEffect_dispatcherStep {s t : State} (h : dispatcherStep s = .next t) : FileEffect s t := by
  obtain ⟨u, hu, heffect⟩ := dispatcherStep_effect h
  exact fileEffect_after (tapeFixed_controlOnly hu) (by rw [hu]) (dispatcherEffect_file heffect)

theorem tapeFixed_receiverStep {s t : State} (h : receiverStep s = .next t) : TapeFixed s t := by
  obtain rfl | ⟨b, rest, -, -, rfl⟩ := receiverStep_cases h
  · exact tapeFixed_congr
  · exact tapeFixed_congr

/-- The host's reset leaves the image file (R381), and it writes the image store only while no tape is loaded (R395). -/
theorem fileEffect_hostAct {act : HostAction} {rest : List HostAction} {s t : State}
    (h : hostAct act rest s = .next t) : FileEffect s t := by
  obtain rfl | ⟨a, v, rfl⟩ | e := hostAct_frame h
  · cases h
    exact .closed ⟨⟨memInv_congr, rfl⟩, rfl, rfl, fun _ _ _ _ _ => rfl⟩
  · obtain ⟨hl, hlt, rfl⟩ := hostWrite_cases h
    exact .fixed ⟨⟨fun hm => memInv_write (memInv_congr hm) hlt v, rfl⟩, rfl, rfl, rfl, rfl, rfl, rfl, rfl,
      fun hloaded => absurd (hl.symm.trans hloaded) (by decide)⟩
  · rw [e]; exact .fixed tapeFixed_congr

theorem fileEffect_hostStep {s t : State} (h : hostStep s = .next t) : FileEffect s t := by
  obtain ⟨-, rfl⟩ | ⟨act, rest, -, h⟩ := hostStep_cases h
  · exact .fixed tapeFixed_congr
  · exact fileEffect_hostAct h

theorem fileEffect_agentStep {a : Agent} {s t : State} (h : agentStep a s = .next t) : FileEffect s t := by
  cases a with
  | receiver => exact .fixed (tapeFixed_receiverStep h)
  | dispatcher => exact fileEffect_dispatcherStep h
  | worker => exact .fixed (tapeFixed_workerStep h)
  | writer => exact .fixed (tapeFixed_writerStep h)
  | host => exact fileEffect_hostStep h

/-- A step has one effect on the image file; what a pending status read then sees is no part of it (R94). -/
theorem step_fileEffect {s t : State} (h : step s = .next t) : ∃ u, FileEffect s u ∧ t = observe u := by
  obtain ⟨u, hu, rfl⟩ := step_next_iff.1 h
  have hbefore : TapeFixed s { s with sched := s.sched.tail } := tapeFixed_congr
  exact ⟨u, fileEffect_after hbefore rfl (fileEffect_agentStep hu), rfl⟩

/-- Settles O53: whatever a step does to the image file, it keeps the canonical form. -/
theorem imageStoreStaysCanonical : Obligations.ImageStoreStaysCanonical := by
  intro s t hm h
  obtain ⟨u, heffect, rfl⟩ := step_fileEffect h
  rw [observe_eq]
  exact memInv_congr (heffect.storeKept.mem hm)

/-- Settles O59: a tape that stays is fixed, one that is closed keeps all but its position bytes, and an insertion shows in the
host's log. -/
theorem headerAndSizeAreFixed : Obligations.HeaderAndSizeAreFixed := by
  intro s t hm h
  obtain ⟨u, heffect, rfl⟩ := step_fileEffect h
  rw [observe_eq]
  refine ⟨heffect.storeKept.params, fun hl hnone => ?_⟩
  cases heffect with
  | fixed h =>
    exact ⟨fun a ha _ => h.header hl hm a ha, h.fileSize,
      fun _ => ⟨h.header hl hm, h.variant, h.rate, h.totalBits, h.protect, h.readOnly⟩⟩
  | closed h =>
    exact ⟨h.header hl hm, h.fileSize, fun hloaded => absurd (h.unloaded.symm.trans hloaded) (by decide)⟩
  | inserted h => exact absurd h.logged hnone

/-! ### The handoff slot (R95, R391) -/

/-- A chunk that the slot holds before and after a turn is the same chunk. -/
def SlotKept (s t : State) : Prop := s.slotFull = true → t.slotFull = true → t.slotData = s.slotData

theorem slotKept_of_eq {s t : State} (h : t.slotData = s.slotData) : SlotKept s t := fun _ _ => h

theorem tapeKept_slot {s t : State} (h : TapeKept s t) : t.slotData = s.slotData ∧ t.slotFull = s.slotFull := by
  rw [h.frame]; exact ⟨rfl, rfl⟩

theorem slotKept_writerStep {s t : State} (h : writerStep s = .next t) : SlotKept s t := by
  obtain ⟨-, rfl⟩ | ⟨-, -, -, h⟩ := writerStep_cases h
  · exact slotKept_of_eq rfl
  · obtain ⟨d, u, hd, hk, ht⟩ := writerTurn_frame h
    have hdata : d.slotData = s.slotData := by rw [hd]
    exact slotKept_of_eq (by rw [ht]; exact (tapeKept_slot hk).1.trans hdata)

/-- The worker fills the slot only when it is empty (R229). -/
theorem slotKept_workerEffect {s t : State} (h : WorkerEffect s t) : SlotKept s t := by
  cases h with
  | control h => exact slotKept_of_eq (by rw [h])
  | accept hfree => exact fun hfull => absurd (hfree.symm.trans hfull) (by decide)

theorem slotKept_workerStep {s t : State} (h : workerStep s = .next t) : SlotKept s t := by
  obtain ⟨-, rfl⟩ | ⟨-, -, -, h⟩ := workerStep_cases h
  · exact slotKept_of_eq rfl
  · obtain ⟨d, u, hd, hk, heffect⟩ := workerTurn_effect h
    have hslot : d.slotData = s.slotData ∧ d.slotFull = s.slotFull := by
      obtain rfl | rfl := hd
      · exact ⟨rfl, rfl⟩
      · exact ⟨rfl, rfl⟩
    obtain ⟨hdata, hfull⟩ := tapeKept_slot hk
    intro hs ht
    rw [slotKept_workerEffect heffect (by rw [hfull, hslot.2]; exact hs) ht, hdata, hslot.1]

theorem openAndEnter_slotData {bytes : List Byte} {readOnly : Bool} {s t : State}
    (h : openAndEnter bytes readOnly s = .next t) : t.slotData = s.slotData := by
  obtain ⟨code, -, rfl⟩ | ⟨hd, s1, c, -, h1, -, e⟩ := openAndEnter_cases h
  · rfl
  · rw [e, (load_frame h1).1]; rfl

theorem ejectTape_slotData {s t : State} (h : ejectTape s = .ok t) : t.slotData = s.slotData := by
  obtain ⟨u, v, hu, hv, e⟩ := ejectTape_cases h
  rw [e, persistPosition_frame hv, (flush_frame hu).1]

theorem dispatcherEffect_slotData {s t : State} (h : DispatcherEffect s t) : t.slotData = s.slotData := by
  cases h with
  | control h => rw [h]
  | start h => rw [finishStart_frame h]
  | eject h => exact ejectTape_slotData h
  | insert h => exact openAndEnter_slotData h
  | replace hej h => exact (openAndEnter_slotData h).trans (ejectTape_slotData hej)

theorem slotKept_dispatcherStep {s t : State} (h : dispatcherStep s = .next t) : SlotKept s t := by
  obtain ⟨u, hu, heffect⟩ := dispatcherStep_effect h
  have hdata : u.slotData = s.slotData := by rw [hu]
  exact slotKept_of_eq ((dispatcherEffect_slotData heffect).trans hdata)

theorem slotKept_receiverStep {s t : State} (h : receiverStep s = .next t) : SlotKept s t := by
  obtain rfl | ⟨b, rest, -, -, rfl⟩ := receiverStep_cases h
  · exact slotKept_of_eq rfl
  · exact slotKept_of_eq rfl

/-- The host's reset empties the slot (R63), and nothing else it does reaches the slot. -/
theorem slotKept_hostStep {s t : State} (h : hostStep s = .next t) : SlotKept s t := by
  obtain ⟨-, rfl⟩ | ⟨act, rest, -, h⟩ := hostStep_cases h
  · exact slotKept_of_eq rfl
  · obtain rfl | ⟨a, v, rfl⟩ | e := hostAct_frame h
    · cases h; exact fun _ => nofun
    · obtain ⟨-, -, rfl⟩ := hostWrite_cases h
      exact slotKept_of_eq rfl
    · exact slotKept_of_eq (by rw [e])

theorem slotKept_agentStep {a : Agent} {s t : State} (h : agentStep a s = .next t) : SlotKept s t := by
  cases a with
  | receiver => exact slotKept_receiverStep h
  | dispatcher => exact slotKept_dispatcherStep h
  | worker => exact slotKept_workerStep h
  | writer => exact slotKept_writerStep h
  | host => exact slotKept_hostStep h

/-- Settles O42: only the worker fills the slot, and only when it is empty. -/
theorem slotIsNeverOverwritten : Obligations.SlotIsNeverOverwritten := by
  intro s t h
  obtain ⟨u, hu, rfl⟩ := step_next_iff.1 h
  have hkept : SlotKept { s with sched := s.sched.tail } u := slotKept_agentStep hu
  rw [observe_eq]
  exact hkept

/-! ### The outbound chunk (R84, R97, R192, R197, R198) -/

/-- A tape is open under legal parameters: what the converter needs to answer. -/
structure ReadyTape (s : State) : Prop where
  params : s.params.wf = true
  mem    : MemInv s
  tape   : TapeInv s
  loaded : s.loaded = true

theorem readyTape_kept {s t : State} (h : ReadyTape s) (hk : TapeKept s t) : ReadyTape t where
  params := by rw [hk.frame]; exact h.params
  mem := hk.mem h.mem
  tape := hk.tape h.mem h.tape h.loaded
  loaded := (datapathOnly_loaded hk.frame).trans h.loaded

theorem sameSamples_trans {s t u : State} (h1 : SameSamples s t) (h2 : SameSamples t u) : SameSamples s u :=
  fun i => (h2 i).trans (h1 i)

/-- A forward step on an open tape answers, before the end and at it, and no sample changes (R160). -/
theorem stepForward_answers {s : State} (h : ReadyTape s) : ∃ r t, stepForward s = .ok (r, t) ∧ SameSamples s t := by
  by_cases hp : s.pos < s.totalBits
  · obtain ⟨t, hstep, -, -, -, -, hsame⟩ := stepForward_spec h.mem h.tape h.loaded hp
    exact ⟨.ok, t, hstep, hsame⟩
  · exact ⟨.boundary, s, if_pos (Nat.not_lt.1 hp), fun _ => rfl⟩

/-- The loop of R191 ends: each turn adds the host rate, which is not 0, so `-acc` turns are enough. -/
theorem advanceLoop_answers {fuel : Nat} {s : State} (h : ReadyTape s) (hfuel : -s.acc ≤ (fuel : Int)) :
    ∃ t, advanceLoop fuel s = .ok t ∧ SameSamples s t := by
  induction fuel generalizing s with
  | zero =>
    have hdone : ¬ s.acc < 0 := by omega
    exact ⟨s, if_neg hdone, fun _ => rfl⟩
  | succ fuel ih =>
    by_cases hacc : s.acc < 0
    · obtain ⟨r, s1, hstep, hsame⟩ := stepForward_answers h
      have hkept := tapeKept_stepForward hstep
      have hsum : s1.acc = s.acc := by rw [stepForward_frame hstep]
      have hrate : 0 < hostRate s1 := hostRate_pos (readyTape_kept h hkept).params
      have hnext : TapeKept s1 { s1 with acc := s1.acc + (hostRate s1 : Int) } :=
        tapeKept_of_registers rfl rfl rfl rfl rfl rfl
      obtain ⟨t, hloop, hrest⟩ := ih (readyTape_kept (readyTape_kept h hkept) hnext) (by dsimp only; omega)
      refine ⟨t, ?_, sameSamples_trans hsame hrest⟩
      unfold advanceLoop
      rw [if_pos hacc, hstep]
      exact hloop
    · exact ⟨s, if_neg hacc, fun _ => rfl⟩

/-- Before the end of an open tape a host bit is emitted (R191). -/
theorem emitOne_answers {s : State} (h : ReadyTape s) (hp : s.pos < s.totalBits) :
    ∃ b t, emitOne s = .ok (b, t) ∧ SameSamples s t := by
  have hkept : TapeKept s { s with acc := s.acc - (s.t : Int) } := tapeKept_of_registers rfl rfl rfl rfl rfl rfl
  obtain ⟨t, hloop, hsame⟩ :=
    advanceLoop_answers (fuel := (s.acc - (s.t : Int)).natAbs) (readyTape_kept h hkept) (by dsimp only; omega)
  refine ⟨tapeSample s s.pos, t, ?_, hsame⟩
  unfold emitOne
  rw [readSample_spec h.tape h.loaded hp]
  dsimp only [ok_bind]
  rw [hloop]
  rfl

/-- The loop of R192 answers on an open tape, and no sample changes. -/
theorem fillBits_answers {m : Nat} {s : State} (h : ReadyTape s) :
    ∃ bits eot t, fillBits m s = .ok (bits, eot, t) ∧ SameSamples s t := by
  induction m generalizing s with
  | zero => exact ⟨[], false, s, rfl, fun _ => rfl⟩
  | succ m ih =>
    by_cases hp : s.totalBits ≤ s.pos
    · exact ⟨[], true, s, if_pos hp, fun _ => rfl⟩
    · obtain ⟨b, s1, hemit, hsame⟩ := emitOne_answers h (Nat.not_le.1 hp)
      obtain ⟨bs, eot, t, hrest, hsame'⟩ := ih (readyTape_kept h (tapeKept_emitOne hemit))
      refine ⟨b :: bs, eot, t, ?_, sameSamples_trans hsame hsame'⟩
      unfold fillBits
      rw [if_neg hp, hemit]
      dsimp only [ok_bind]
      rw [hrest]
      rfl

/-- Where a host bit is asked for and a sample is left, there is a host bit. -/
theorem fillBits_ne_nil {m : Nat} {s t : State} {bits : List Bit} {eot : Bool} (hm : 0 < m) (hp : s.pos < s.totalBits)
    (h : fillBits m s = .ok (bits, eot, t)) : bits ≠ [] := by
  obtain ⟨m, rfl⟩ := Nat.exists_eq_succ_of_ne_zero hm.ne'
  unfold fillBits at h
  rw [if_neg (Nat.not_le.2 hp)] at h
  obtain ⟨⟨b, s1⟩, -, h⟩ := bind_ok_iff.1 h
  obtain ⟨⟨bs, e, s2⟩, -, h⟩ := bind_ok_iff.1 h
  cases h
  exact List.cons_ne_nil b bs

/-- `fillOutput` packs the host bits of R192. -/
theorem fillOutput_eq {r : Nat} {s t : State} {bits : List Bit} {eot : Bool}
    (h : fillBits (8 * r) s = .ok (bits, eot, t)) : fillOutput r s = .ok (packBits bits, eot, t) := by
  unfold fillOutput
  rw [h]
  rfl

/-- A PLAY iteration that has bytes offers them and holds (R198). -/
theorem iteratePlay_offers {s t : State} {bytes : List Byte} {eot : Bool} (hne : bytes ≠ [])
    (h : fillOutput s.params.chunkBytes s = .ok (bytes, eot, t)) :
    iteratePlay s = .ok { t with outChunk := bytes, outValid := true, workerAt := .takeHold eot } := by
  unfold iteratePlay
  rw [h]
  exact if_neg (fun hlen => hne (List.eq_nil_of_length_eq_zero hlen))

/-- R10: a chunk has at least one byte. -/
theorem chunkBytes_pos {p : Params} (h : p.wf = true) : 0 < p.chunkBytes := by
  simp only [Params.wf, Bool.and_eq_true, decide_eq_true_eq] at h
  obtain ⟨⟨⟨⟨⟨⟨⟨⟨⟨hchunk, -⟩, -⟩, -⟩, -⟩, -⟩, -⟩, -⟩, -⟩, -⟩ := h
  exact hchunk

/-- With a sample left, `fillOutput` gives at least one byte and at most those asked for, and all of them unless the tape ended. -/
theorem fillOutput_answers {r : Nat} {s : State} (h : ReadyTape s) (hr : 0 < r) (hp : s.pos < s.totalBits) :
    ∃ bytes eot t, fillOutput r s = .ok (bytes, eot, t) ∧ bytes ≠ [] ∧ bytes.length ≤ r ∧
      (eot = false → bytes.length = r) ∧ TapeKept s t ∧ SameSamples s t := by
  obtain ⟨bits, eot, t, hbits, hsame⟩ := fillBits_answers (m := 8 * r) h
  have hfill := fillOutput_eq hbits
  have hsome : 0 < bits.length := List.length_pos_iff.2 (fillBits_ne_nil (by omega) hp hbits)
  refine ⟨packBits bits, eot, t, hfill, ?_, fillOutput_length hfill, fun he => ?_, tapeKept_fillBits hbits, hsame⟩
  · rw [← List.length_pos_iff, packBits_length]
    omega
  · have hall := (fillBits_length hbits).2 he
    rw [packBits_length]
    omega

/-- R97: the host takes the outbound chunk of a PLAY worker while the device is not gated. -/
theorem agentStep_host_takeChunk {s : State} {rest : List HostAction} (hm : s.mode = .play) (hv : s.outValid = true)
    (he : s.devError = false) (hd : s.disconnected = false) (hh : s.host = .takeChunk :: rest) :
    agentStep .host s =
      .next { s with host := rest, outValid := false, hostLog := s.hostLog ++ [.chunk s.outChunk] } := by
  have hcan : canTake s = true := by simp [canTake, gated, hm, hv, he, hd]
  rw [agentStep_host hh]
  exact congrArg _ (if_pos hcan)

/-- R198: while its chunk is on the port and it is not cancelled, the worker holds. -/
theorem agentStep_worker_takeHold {s : State} {eot : Bool} (hw : s.workerAt = .takeHold eot) (hv : s.outValid = true)
    (hf : s.runFlag = true) : agentStep .worker s = .next s :=
  if_pos (by simp [workerHolds, hw, hv, hf])

/-- R198: once its chunk is taken, the worker's turn is the end of its hold. -/
theorem agentStep_worker_taken {s : State} {eot : Bool} (ha : s.workerAlive = true) (hl : s.loaded = true)
    (hw : s.workerAt = .takeHold eot) (hv : s.outValid = false) : agentStep .worker s = .next (afterTake eot s) := by
  simp [agentStep, workerStep, workerHolds, withTape, workerTurn, ha, hl, hw, hv]

/-- Settles O35: the bytes are the packed host bits, the converter answers on an open tape, and the hold ends when the host has
taken the chunk. -/
theorem outboundChunkHandshake : Obligations.OutboundChunkHandshake := by
  refine ⟨?bytes, ?offer, ?take⟩
  case bytes =>
    intro s u r bits eot h
    exact ⟨packBits bits, fillOutput_eq h, packBits_length bits, fun j k => packBits_getElem? bits⟩
  case offer =>
    intro s hwf hm ht hl ha hmode hw hf hp
    have hready : ReadyTape (drawUpdate s) := ⟨hwf, memInv_congr hm, tapeInv_congr ht, hl⟩
    obtain ⟨bytes, eot, u, hfill, hne, hle, hall, hkept, hsame⟩ := fillOutput_answers hready (chunkBytes_pos hwf) hp
    have hiterate : iterate (drawUpdate s) = iteratePlay (drawUpdate s) := by
      simp [iterate, drawUpdate, hmode]
    refine ⟨bytes, eot, u, hfill, hne, hle, hall, hkept.frame, hsame, ?_⟩
    rw [show agentStep .worker s = workerStep s from rfl, workerStep_top hl ha hw hf, hiterate,
      iteratePlay_offers hne hfill, andThen_ok]
  case take =>
    intro s rest eot hm hv he hd hh
    refine ⟨agentStep_host_takeChunk hm hv he hd hh, fun ha hl hw hf => ⟨agentStep_worker_takeHold hw hv hf, ?_⟩⟩
    rw [agentStep_worker_taken (s := { s with outValid := false }) ha hl hw rfl]
    simp [afterTake, hf]

end Sys2Proof.Proofs
end

section
/-! SUPPORT. The statements of the family 30_encoding.md: the command bytes with their decoder and encoder, and the canonical
waveform of an FM symbol. -/

namespace Sys2Proof.Proofs

open Sys2Proof.Machine Sys2Proof.Laws

/-! ### The decoder and the encoder of command bytes (R120, R121, R136) -/

/-- The law of each constructor, for every command. -/
theorem oneByte_statement (i : Instr) : OneByte.Statement i := by
  cases i with
  | eject => exact OneByte.eject
  | stop => exact OneByte.stop
  | play => exact OneByte.play
  | ff => exact OneByte.ff
  | rew => exact OneByte.rew
  | aff => exact OneByte.aff
  | arew => exact OneByte.arew
  | record => exact OneByte.record
  | status => exact OneByte.status
  | sensor => exact OneByte.sensor

theorem encodeByte_mem_commandBytes (i : Instr) : encodeByte i ∈ commandBytes := (oneByte_statement i).2.1

theorem opcodeTable_row {r : OpcodeRow} (h : r ∈ opcodeTable) : r.mask = 0xff ∧ r.pattern = encodeByte r.instr := by
  revert r
  decide

/-- R120: under the mask 0xFF a row is hit by the byte of its own command alone. -/
theorem eq_encodeByte_of_hit {r : OpcodeRow} {b : Byte} (hmem : r ∈ opcodeTable) (hit : r.hit b = true) :
    b = encodeByte r.instr := by
  obtain ⟨hmask, hpattern⟩ := opcodeTable_row hmem
  have hbits : b &&& BitVec.allOnes 8 = r.pattern := by
    simpa [OpcodeRow.hit, hmask] using hit
  rw [← hpattern, ← hbits, BitVec.and_allOnes]

theorem decodeByte_encodeByte (i : Instr) : decodeByte (encodeByte i) = some i := by
  obtain ⟨-, -, hrows⟩ := oneByte_statement i
  rw [decodeByte, ← List.head?_filter, hrows]
  rfl

/-- R136: a byte decodes to a command exactly when it is the command's encoding. -/
theorem decodeByte_eq_some_iff {b : Byte} {i : Instr} : decodeByte b = some i ↔ b = encodeByte i := by
  constructor
  · intro h
    obtain ⟨r, hfind, rfl⟩ := Option.map_eq_some_iff.1 h
    exact eq_encodeByte_of_hit (List.mem_of_find?_eq_some hfind) (List.find?_some (p := fun r : OpcodeRow => r.hit b) hfind)
  · rintro rfl
    exact decodeByte_encodeByte i

/-- R121: a byte that is none of the ten decodes to nothing. -/
theorem decodeByte_unlisted {b : Byte} (h : b ∉ commandBytes) : decodeByte b = none :=
  Option.eq_none_iff_forall_ne_some.2 fun i hi =>
    h (decodeByte_eq_some_iff.1 hi ▸ encodeByte_mem_commandBytes i)

theorem decode_encode_append (i : Instr) (rest : List Byte) : decode (encode i ++ rest) = .ok (i, rest) := by
  show decode (encodeByte i :: rest) = _
  rw [decode, decodeByte_encodeByte]

theorem decode_unlisted {b : Byte} (rest : List Byte) (h : b ∉ commandBytes) :
    decode (b :: rest) = .error (.unlisted b) := by
  rw [decode, decodeByte_unlisted h]

/-- R136: only a command's encoding decodes to it. -/
theorem eq_encode_append_of_decode {bytes rest : List Byte} {i : Instr} (h : decode bytes = .ok (i, rest)) :
    bytes = encode i ++ rest := by
  cases bytes with
  | nil => cases h
  | cons b tail =>
    cases hb : decodeByte b with
    | none => simp [decode, hb] at h
    | some j =>
      obtain ⟨rfl, rfl⟩ : j = i ∧ tail = rest := by simpa [decode, hb] using h
      rw [decodeByte_eq_some_iff.1 hb]
      rfl

theorem wellFormedCommand_encode (i : Instr) : wellFormedCommand (encode i) = true :=
  List.contains_iff_mem.2 (encodeByte_mem_commandBytes i)

/-- R138: STATUS and SENSOR are the queries. -/
theorem isQuery_iff (i : Instr) : i.isQuery = true ↔ i = .status ∨ i = .sensor := by
  cases i <;> simp [Instr.isQuery]

/-- Settles O2: a command's row is the only one its byte hits, and a row is hit by its command's byte alone. -/
theorem decodeEncodeAgree : Obligations.DecodeEncodeAgree :=
  ⟨fun i rest _ => decode_encode_append i rest, fun _ _ _ h => eq_encode_append_of_decode h,
    fun i => ⟨rfl, wellFormedCommand_encode i⟩⟩

/-- Settles O1: each of the ten bytes is its command's encoding, and no row is hit by another byte. -/
theorem commandBytesDecode : Obligations.CommandBytesDecode := fun rest =>
  ⟨decode_encode_append .eject rest, decode_encode_append .stop rest, decode_encode_append .play rest,
    decode_encode_append .ff rest, decode_encode_append .rew rest, decode_encode_append .aff rest,
    decode_encode_append .arew rest, decode_encode_append .record rest, decode_encode_append .status rest,
    decode_encode_append .sensor rest, fun _ h => decode_unlisted rest h, isQuery_iff⟩

/-! ### The FM symbol (R127, R128, R216) -/

/-- R216: with room on the tape and nothing inhibited, `writeSymbol` writes the whole symbol and the session goes on. -/
theorem writeSymbol_of_room {s : State} (b : Bit) (hm : MemInv s) (ht : TapeInv s) (hl : s.loaded = true)
    (he : s.ended = false) (hi : inhibited s = false) (hroom : s.pos + 2 * symbolHalf s.t b ≤ s.totalBits) :
    ∃ t, writeSymbol b s = .ok t ∧ CursorOnly s t ∧ t.pos = s.pos + 2 * symbolHalf s.t b ∧
      ∀ i, tapeSample t i =
        if s.pos ≤ i ∧ i < s.pos + symbolHalf s.t b then true
        else if s.pos + symbolHalf s.t b ≤ i ∧ i < s.pos + 2 * symbolHalf s.t b then false
        else tapeSample s i := by
  obtain ⟨t, hwrite, -, -, hframe, hsamples⟩ := writeSymbol_spec b hm ht hl he
  have hgoes : decide (s.totalBits < s.pos + 2 * symbolHalf s.t b) = s.ended := by
    rw [he, decide_eq_false (Nat.not_lt.2 hroom)]
  rw [Nat.min_eq_right hroom, hgoes] at hframe
  rw [Nat.min_eq_right hroom] at hsamples
  have hpos : t.pos = s.pos + 2 * symbolHalf s.t b := by rw [hframe]
  refine ⟨t, hwrite, by rw [← hpos] at hframe; exact hframe, hpos, fun i => ?_⟩
  rw [hsamples]
  by_cases hhigh : s.pos ≤ i ∧ i < s.pos + symbolHalf s.t b
  · rw [if_pos hhigh, if_pos ⟨hi, by omega⟩, decide_eq_true hhigh.2]
  · rw [if_neg hhigh]
    by_cases hlow : s.pos + symbolHalf s.t b ≤ i ∧ i < s.pos + 2 * symbolHalf s.t b
    · rw [if_pos hlow, if_pos ⟨hi, by omega⟩, decide_eq_false (by omega)]
    · rw [if_neg hlow, if_neg (by omega)]

/-- Settles O37: the symbol is one run of high and one run of low samples, and the tape has room for both. -/
theorem writeSymbolIsTheCanonicalWaveform : Obligations.WriteSymbolIsTheCanonicalWaveform := by
  intro s b hm ht hl he hpolicy half hroom
  exact writeSymbol_of_room b hm ht hl he (inhibited_eq_false hpolicy) hroom

end Sys2Proof.Proofs
end

section
/-! SUPPORT. The statements of the family 40_cursor.md: moves of the tape cursor, the flush of a staged byte, and the ends of
the tape. -/

namespace Sys2Proof.Proofs

open Sys2Proof.Machine Sys2Proof.Laws

/-! ### What the cursor caches (R39) -/

theorem cursorOnly_loaded {s t : State} (h : CursorOnly s t) : t.loaded = s.loaded := by rw [h]

theorem cursorOnly_totalBits {s t : State} (h : CursorOnly s t) : t.totalBits = s.totalBits := by rw [h]

theorem cacheIdx_of_lt {s : State} (ht : TapeInv s) (hl : s.loaded = true) (hp : s.pos < s.totalBits) :
    s.cacheIdx = some (s.pos / 8) := by
  rw [ht.cached hl, cacheIdxAt, if_pos hp]

/-- R151: at the end of the tape no byte is cached. -/
theorem cacheIdx_at_end {s : State} (ht : TapeInv s) (hl : s.loaded = true) (hp : s.totalBits ≤ s.pos) :
    s.cacheIdx = none := by
  rw [ht.cached hl, cacheIdxAt, if_neg (Nat.not_lt.2 hp)]

/-! ### A move and the staged byte (R152, R155) -/

theorem moveTo_of_same_byte {s : State} {p : Nat} (h : cacheIdxAt p s = s.cacheIdx) :
    moveTo p s = .ok { s with pos := p } :=
  if_pos h

/-- A move to another byte leaves the image store as the flush does, with nothing staged. -/
theorem flush_of_moveTo {s t : State} {p : Nat} (hne : cacheIdxAt p s ≠ s.cacheIdx) (h : moveTo p s = .ok t) :
    ∃ u, flush s = .ok u ∧ t.img = u.img ∧ t.dirty = false := by
  rw [moveTo, if_neg hne] at h
  obtain ⟨u, hflush, hload⟩ := bind_ok_iff.1 h
  obtain ⟨-, -, -, -, hclean⟩ := flush_frame hflush
  obtain ⟨-, himg, -, hdirty⟩ := load_frame hload
  exact ⟨u, hflush, himg, hdirty.trans hclean⟩

/-- R156: a flush stores the staged byte, if there is one, at the byte of the position, and no other byte. -/
theorem flush_get {s t : State} (hm : MemInv s) (ht : TapeInv s) (hl : s.loaded = true) (h : flush s = .ok t) (a : Nat) :
    Memory.get t.img a = if s.dirty = true ∧ a = hdr s + s.pos / 8 then s.cacheByte else Memory.get s.img a := by
  obtain ⟨hclean, rfl⟩ | ⟨hdirty, i, hcached, -, rfl⟩ := flush_cases h
  · rw [if_neg (by simp [hclean])]
  · obtain rfl : s.pos / 8 = i :=
      Option.some.inj ((cacheIdx_of_lt ht hl (ht.staged hdirty).2).symm.trans hcached)
    simp only [hdirty, true_and]
    exact get_set hm.canonical _ _ a

/-- Settles O29: a move inside the cached byte changes the position alone, and a move to another byte flushes first. -/
theorem cursorMoveFlushesOnByteChange : Obligations.CursorMoveFlushesOnByteChange := by
  intro s p hm ht hl hp
  obtain ⟨t, hmove, hpos, hmt, htt, hsame⟩ := moveTo_spec hm ht hl hp
  refine ⟨t, hmove, (moveTo_frame hmove).1, hpos, hsame, hmt, htt, fun hbyte => ?_, fun hbyte => ?_⟩
  · obtain rfl := ok_inj.1 ((moveTo_of_same_byte hbyte).symm.trans hmove)
    exact ⟨rfl, rfl⟩
  · obtain ⟨u, hflush, himg, hclean⟩ := flush_of_moveTo hbyte hmove
    exact ⟨hclean, fun a => by rw [himg, flush_get hm ht hl hflush]⟩

/-! ### A staged write (R159, R164) -/

/-- Settles O28: the write stages the sample in the cached byte, and the read takes the sample from the cached byte. -/
theorem stagedWriteIsSeenAtOnce : Obligations.StagedWriteIsSeenAtOnce := by
  intro s v ht hl hp
  obtain ⟨t, hwrite, hframe, himg, hpos, hdirty, htt, hsamples⟩ := writeSample_spec v ht hl hp
  have hread : readSample t = .ok v := by
    rw [readSample_spec htt (cursorOnly_loaded hframe ▸ hl) (by rw [hpos, cursorOnly_totalBits hframe]; exact hp),
      hsamples, if_pos hpos]
  exact ⟨t, hwrite, hread, himg, hpos, hdirty, hsamples⟩

/-! ### The ends of the tape (R153, R160, R161) -/

theorem stepForward_at_end {s : State} (h : s.totalBits ≤ s.pos) : stepForward s = .ok (.boundary, s) :=
  if_pos h

theorem stepForward_of_moveTo {s t : State} (hp : s.pos < s.totalBits) (h : moveTo (s.pos + 1) s = .ok t) :
    stepForward s = .ok (.ok, t) := by
  rw [stepForward, if_neg (Nat.not_le.2 hp), h, ok_bind]

theorem stepBackward_at_start {s : State} (h : s.pos = 0) : stepBackward s = .ok (.boundary, s) :=
  if_pos h

theorem stepBackward_of_moveTo {s t : State} (hp : 0 < s.pos) (h : moveTo (s.pos - 1) s = .ok t) :
    stepBackward s = .ok (.ok, t) := by
  rw [stepBackward, if_neg (Nat.ne_of_gt hp), h, ok_bind]

/-- R153: a seek past the end of the tape goes to the end. -/
theorem seek_past_end {s t : State} {b : Nat} (hb : s.totalBits < b) (h : moveTo s.totalBits s = .ok t) :
    seek b s = .ok (.boundary, t) := by
  rw [seek, if_pos hb, h, ok_bind]

theorem seek_on_tape {s t : State} {b : Nat} (hb : b ≤ s.totalBits) (h : moveTo b s = .ok t) :
    seek b s = .ok (.ok, t) := by
  rw [seek, if_neg (Nat.not_lt.2 hb), h, ok_bind]

/-- A move on an open tape arrives, and at the end of the tape it caches no byte. -/
theorem moveTo_arrives {s : State} {p : Nat} (hm : MemInv s) (ht : TapeInv s) (hl : s.loaded = true)
    (hp : p ≤ s.totalBits) :
    ∃ t, moveTo p s = .ok t ∧ t.pos = p ∧ (p = s.totalBits → t.cacheIdx = none) := by
  obtain ⟨t, hmove, hpos, -, htt, -⟩ := moveTo_spec hm ht hl hp
  have hframe := (moveTo_frame hmove).1
  exact ⟨t, hmove, hpos, fun hend => cacheIdx_at_end htt (cursorOnly_loaded hframe ▸ hl)
    (by rw [cursorOnly_totalBits hframe, hpos, hend])⟩

/-- Settles O30: each step and each seek is, by its own equation, the boundary or a move, and a move on an open tape arrives. -/
theorem cursorEndsClamp : Obligations.CursorEndsClamp := by
  intro s hm ht hl
  have arrives {p : Nat} (hp : p ≤ s.totalBits) := moveTo_arrives hm ht hl hp
  refine ⟨fun hend => stepForward_at_end hend.ge, fun hlt => ?forward, stepBackward_at_start, fun hlt => ?backward,
    fun b hb => ?past, fun b hb => ?within⟩
  case forward =>
    obtain ⟨t, hmove, hpos, -⟩ := arrives hlt
    exact ⟨t, stepForward_of_moveTo hlt hmove, hmove, hpos⟩
  case backward =>
    obtain ⟨t, hmove, hpos, -⟩ := arrives ((Nat.sub_le s.pos 1).trans (ht.posLe hl))
    exact ⟨t, stepBackward_of_moveTo hlt hmove, hmove, hpos⟩
  case past =>
    obtain ⟨t, hmove, hpos, hcache⟩ := arrives le_rfl
    exact ⟨t, seek_past_end hb hmove, hmove, hpos, hcache rfl⟩
  case within =>
    obtain ⟨t, hmove, hpos, hcache⟩ := arrives hb
    exact ⟨t, seek_on_tape hb hmove, hmove, hpos, hcache⟩

/-! ### The round trip (R163) -/

/-- A forward step that returns OK on an open tape moves on by one sample and keeps the tape open. -/
theorem stepForward_ok_spec {s t : State} (hm : MemInv s) (ht : TapeInv s) (hl : s.loaded = true)
    (h : stepForward s = .ok (.ok, t)) :
    t.pos = s.pos + 1 ∧ MemInv t ∧ TapeInv t ∧ t.loaded = true ∧ SameSamples s t := by
  obtain ⟨-, hr, -⟩ | ⟨hlt, -, -⟩ := stepForward_cases h
  · cases hr
  · obtain ⟨u, hstep, hpos, hmu, htu, hframe, hsame⟩ := stepForward_spec hm ht hl hlt
    rw [h] at hstep
    cases hstep
    exact ⟨hpos, hmu, htu, cursorOnly_loaded hframe ▸ hl, hsame⟩

/-- The first of `m + 1` forward steps that all return OK, and the rest of them. -/
theorem forwardSteps_succ_ok {m : Nat} {s t : State} (h : forwardSteps (m + 1) s = .ok (true, t)) :
    ∃ u, stepForward s = .ok (.ok, u) ∧ forwardSteps m u = .ok (true, t) := by
  obtain ⟨⟨r, u⟩, hstep, hrest⟩ := bind_ok_iff.1 h
  cases r with
  | ok => exact ⟨u, hstep, hrest⟩
  | boundary => cases hrest

/-- `m` forward steps that all return OK move the cursor on by `m` samples, and the tape stays open and as it was. -/
theorem forwardSteps_spec {m : Nat} {s t : State} (hm : MemInv s) (ht : TapeInv s) (hl : s.loaded = true)
    (h : forwardSteps m s = .ok (true, t)) :
    t.pos = s.pos + m ∧ MemInv t ∧ TapeInv t ∧ t.loaded = true ∧ SameSamples s t := by
  induction m generalizing s with
  | zero =>
    cases h
    exact ⟨rfl, hm, ht, hl, fun _ => rfl⟩
  | succ m ih =>
    obtain ⟨u, hstep, hrest⟩ := forwardSteps_succ_ok h
    obtain ⟨hposu, hmu, htu, hlu, hsameu⟩ := stepForward_ok_spec hm ht hl hstep
    obtain ⟨hpos, hmt, htt, hlt, hsame⟩ := ih hmu htu hlu hrest
    exact ⟨by omega, hmt, htt, hlt, sameSamples_trans hsameu hsame⟩

/-- `m` backward steps with `m` samples before the cursor move it back by `m` samples and change no sample. -/
theorem backwardSteps_spec {m : Nat} {s : State} (hm : MemInv s) (ht : TapeInv s) (hl : s.loaded = true)
    (hp : m ≤ s.pos) : ∃ t, backwardSteps m s = .ok t ∧ t.pos = s.pos - m ∧ SameSamples s t := by
  induction m generalizing s with
  | zero => exact ⟨s, rfl, rfl, fun _ => rfl⟩
  | succ m ih =>
    obtain ⟨u, hstep, hposu, hmu, htu, hframe, hsameu⟩ := stepBackward_spec hm ht hl (by omega)
    obtain ⟨t, hrest, hpos, hsame⟩ := ih hmu htu (cursorOnly_loaded hframe ▸ hl) (by omega)
    refine ⟨t, ?_, by omega, sameSamples_trans hsameu hsame⟩
    rw [backwardSteps, hstep, ok_bind]
    exact hrest

/-- Settles O27: the forward steps end `m` samples on, so that none of the `m` backward steps is at the start of the tape. -/
theorem forwardThenBackwardReturns : Obligations.ForwardThenBackwardReturns := by
  intro s s1 m hm ht hl h
  obtain ⟨hpos1, hm1, ht1, hl1, hsame1⟩ := forwardSteps_spec hm ht hl h
  obtain ⟨s2, hback, hpos2, hsame2⟩ := backwardSteps_spec (m := m) hm1 ht1 hl1 (by omega)
  exact ⟨s2, hback, by omega, sameSamples_trans hsame1 hsame2⟩

end Sys2Proof.Proofs
end

section
/-! SUPPORT. The statements of the family 41_image.md: the header that `open` reads, an insertion, and an image that does not
open. -/

namespace Sys2Proof.Proofs

open Sys2Proof.Machine Sys2Proof.Laws

/-! ### The header (R170 to R173, R340) -/

theorem parseHeader_of_short {p : Params} {bytes : List Byte} {readOnly : Bool} (h : bytes.length < 4) :
    parseHeader p bytes readOnly = .error .badHeader :=
  if_pos h

/-- R340: once the header is there, `open` checks the rate, then the size, each by the rules of the variant. -/
theorem parseHeader_of_variant {p : Params} {bytes : List Byte} {v : Variant} (readOnly : Bool)
    (hlen : 4 ≤ bytes.length) (hv : imageVariant p bytes = v) :
    let rate := imageRate v bytes
    let total := (bytes.length - headerSize v) * 8
    ((rate < 8000 ∨ 48000 < rate) → parseHeader p bytes readOnly = .error .badRate) ∧
    (8000 ≤ rate → rate ≤ 48000 → maxPosition p v < total → parseHeader p bytes readOnly = .error .tooLarge) ∧
    (8000 ≤ rate → rate ≤ 48000 → total ≤ maxPosition p v →
      parseHeader p bytes readOnly =
        .ok ⟨v, rate, total, imageStart v bytes total, imageProtect v bytes readOnly⟩) := by
  intro rate total
  subst hv
  have hheader : ¬ bytes.length < 4 := by omega
  have hrate (hlow : 8000 ≤ rate) (hhigh : rate ≤ 48000) : ¬ (rate < 8000 ∨ 48000 < rate) := by omega
  refine ⟨fun hbad => ?badRate, fun hlow hhigh hlarge => ?tooLarge, fun hlow hhigh hfits => ?opens⟩
  case badRate => exact (if_neg hheader).trans (if_pos hbad)
  case tooLarge => exact (if_neg hheader).trans ((if_neg (hrate hlow hhigh)).trans (if_pos hlarge))
  case opens => exact (if_neg hheader).trans ((if_neg (hrate hlow hhigh)).trans (if_neg (Nat.not_lt.2 hfits)))

theorem imageVariant_modern {p : Params} {bytes : List Byte} (hlen : 40 ≤ bytes.length)
    (hmagic : bytes.take 4 = p.modernMagic) : imageVariant p bytes = .modern :=
  if_pos ⟨hlen, hmagic⟩

theorem imageVariant_legacy {p : Params} {bytes : List Byte}
    (h : bytes.length < 40 ∨ bytes.take 4 ≠ p.modernMagic) : imageVariant p bytes = .legacy :=
  if_neg fun hmodern => h.elim (Nat.not_lt.2 hmodern.1) (fun hne => hne hmodern.2)

/-- Settles O23: the size and the first four bytes decide the variant, and the checks of `open` read its fields. -/
theorem headerParsesAsSpecified : Obligations.HeaderParsesAsSpecified := by
  intro p bytes readOnly
  refine ⟨parseHeader_of_short, fun hlen hmagic => ?modern, fun hlen hlegacy => ?legacy, fun i _ => rfl⟩
  case modern => exact parseHeader_of_variant readOnly (by omega) (imageVariant_modern hlen hmagic)
  case legacy => exact parseHeader_of_variant readOnly hlen (imageVariant_legacy hlegacy)

/-! ### The dispatcher's insertion (R178) -/

theorem agentStep_dispatcher_insert {s : State} {bytes : List Byte} {readOnly : Bool} {q : List CmdItem}
    (hidle : s.dispatcherAt = .idle) (hq : s.cmdQ = .insert bytes readOnly :: q) :
    agentStep .dispatcher s = insertTape bytes readOnly { s with cmdQ := q } := by
  simp only [agentStep, dispatcherStep, hidle, hq, runItem]

/-- An insertion put at the head of the queue is the one that the dispatcher takes next. -/
theorem agentStep_dispatcher_requeued {s : State} {bytes : List Byte} {readOnly : Bool} (hidle : s.dispatcherAt = .idle) :
    agentStep .dispatcher { s with cmdQ := .insert bytes readOnly :: s.cmdQ } = insertTape bytes readOnly s :=
  agentStep_dispatcher_insert (s := { s with cmdQ := .insert bytes readOnly :: s.cmdQ }) hidle rfl

theorem agentStep_dispatcher_joined {s : State} {k : Join} (hat : s.dispatcherAt = .joining k)
    (hw : s.workerAlive = false) : agentStep .dispatcher s = resume k { s with dispatcherAt := .idle } := by
  simp only [agentStep, dispatcherStep, hat, hw, Bool.false_eq_true, if_false]

theorem insertTape_of_unloaded {bytes : List Byte} {readOnly : Bool} {s : State} (hl : s.loaded = false) :
    insertTape bytes readOnly s = openAndEnter bytes readOnly s :=
  if_neg (by simp [hl])

/-- With no tape loaded an insertion is `open` and what follows it (R178). -/
theorem agentStep_dispatcher_opens {s : State} {bytes : List Byte} {readOnly : Bool} {q : List CmdItem}
    (hidle : s.dispatcherAt = .idle) (hq : s.cmdQ = .insert bytes readOnly :: q) (hl : s.loaded = false) :
    agentStep .dispatcher s = openAndEnter bytes readOnly { s with cmdQ := q } :=
  (agentStep_dispatcher_insert hidle hq).trans (insertTape_of_unloaded hl)

theorem insertTape_of_loaded {bytes : List Byte} {readOnly : Bool} {s : State} (hl : s.loaded = true)
    (hm : s.mode ≠ .eject) :
    insertTape bytes readOnly s = stopWorker (.insert bytes readOnly) (finishInsert bytes readOnly) s :=
  if_pos ⟨hl, hm⟩

theorem finishInsert_of_loaded {bytes : List Byte} {readOnly : Bool} {s : State} (hl : s.loaded = true)
    (hm : s.mode ≠ .eject) :
    finishInsert bytes readOnly s = andThen (ejectTape s) (openAndEnter bytes readOnly) :=
  if_pos ⟨hl, hm⟩

theorem stopWorker_of_no_worker {k : Join} {after : State → Result} {s : State} (hw : s.workerAlive = false) :
    stopWorker k after s = after s :=
  if_neg (by simp [hw])

/-- With no worker alive nothing is joined, so an insertion goes on at once. -/
theorem insertTape_of_no_worker {bytes : List Byte} {readOnly : Bool} {s : State} (hw : s.workerAlive = false) :
    insertTape bytes readOnly s = finishInsert bytes readOnly s := by
  by_cases h : s.loaded = true ∧ s.mode ≠ .eject
  · rw [insertTape_of_loaded h.1 h.2, stopWorker_of_no_worker hw]
  · exact (if_neg h).trans (if_neg h).symm

/-- With a tape loaded and no worker alive, an insertion is EJECT and then the insertion from `open` on (R178). -/
theorem insertTape_after_eject {bytes : List Byte} {readOnly : Bool} {s u : State} (h : ejectTape s = .ok u)
    (hl : s.loaded = true) (hm : s.mode ≠ .eject) (hw : s.workerAlive = false) :
    insertTape bytes readOnly s = openAndEnter bytes readOnly u := by
  rw [insertTape_of_no_worker hw, finishInsert_of_loaded hl hm, h, andThen_ok]

theorem ejectTape_of_exec_eject {s u : State} (h : exec .eject s = .next u) (hm : s.mode ≠ .eject)
    (hw : s.workerAlive = false) : ejectTape s = .ok u := by
  simp only [exec, execEject, if_neg hm, stopWorker_of_no_worker hw] at h
  obtain ⟨-, h⟩ := withTape_next_iff.1 h
  obtain ⟨v, hv, h⟩ := andThen_next_iff.1 h
  cases h
  exact hv

/-- EJECT writes neither `cmdQ` nor the dispatcher's hold. -/
theorem ejectTape_dispatcher {s t : State} (h : ejectTape s = .ok t) :
    t.cmdQ = s.cmdQ ∧ t.dispatcherAt = s.dispatcherAt := by
  obtain ⟨u, v, hu, hv, e⟩ := ejectTape_cases h
  rw [e, persistPosition_frame hv, (flush_frame hu).1]
  exact ⟨rfl, rfl⟩

/-! ### The file in the image store (R80, R170) -/

theorem get_of_unlisted {m : List Host.Cell} {a : Nat} (h : ∀ c ∈ m, c.1 ≠ a) : Memory.get m a = Memory.unlisted := by
  induction m with
  | nil => rfl
  | cons c m ih =>
    rw [Memory.get, if_neg (h c List.mem_cons_self)]
    exact ih fun d hd => h d (List.mem_cons_of_mem c hd)

/-- The image store of an opened file reads as the file, and as 0 behind it. -/
theorem get_ofBytes_zero (bytes : List Byte) (i : Nat) : Memory.get (Memory.ofBytes 0 bytes) i = bytes.getD i 0 := by
  by_cases hi : i < bytes.length
  · have hbyte := get_ofBytes (a := 0) hi
    rw [Nat.zero_add] at hbyte
    rw [hbyte, List.getD_eq_getElem _ _ hi]
  · rw [List.getD_eq_default _ _ (Nat.not_lt.1 hi)]
    refine get_of_unlisted fun c hc => ?_
    obtain ⟨-, hinside, -⟩ := mem_ofBytes hc
    omega

/-! ### From `open` on (R172, R174, R175) -/

/-- R174: an image that does not open leaves everything but the host's result as it was. -/
theorem openAndEnter_of_error {bytes : List Byte} {readOnly : Bool} {code : OpenCode} {s : State}
    (h : parseHeader s.params bytes readOnly = .error code) :
    openAndEnter bytes readOnly s = .next { s with hostLog := s.hostLog ++ [.inserted (some code)] } := by
  simp only [openAndEnter, h]

theorem rateClassOf_setTape (bytes : List Byte) (readOnly : Bool) (hd : Header) (s : State) :
    rateClassOf (setTape bytes readOnly hd s).params (setTape bytes readOnly hd s).t (setTape bytes readOnly hd s).altRate =
      rateClassOf s.params hd.rate s.altRate :=
  rfl

/-- R175: on the registers of a header that fits its file, `load()` answers. -/
theorem load_setTape {bytes : List Byte} {readOnly : Bool} {hd : Header} {s : State}
    (hf : HeaderFits s.params bytes readOnly hd) :
    ∃ b, load (setTape bytes readOnly hd s) = .ok { setTape bytes readOnly hd s with
      cacheIdx := if hd.start < hd.totalBits then some (hd.start / 8) else none
      cacheByte := b } := by
  have hsize := hf.size
  have htotal := hf.total
  have hinside : hd.start < hd.totalBits → headerSize hd.variant + hd.start / 8 < bytes.length := by omega
  exact ⟨_, load_eq hinside⟩

/-- Frames sent after others go behind them, and the gate discards both alike (R17, R344). -/
theorem sentFrames_sentFrames (s : State) (fs gs : List Frame) :
    sentFrames { s with rspQ := sentFrames s fs } gs = sentFrames s (fs ++ gs) := by
  unfold sentFrames
  by_cases hgated : (s.devError || s.disconnected) = true
  · simp only [if_pos hgated]
  · simp only [if_neg hgated, List.append_assoc]

/-- The two frames of an insertion (R178). -/
theorem publishRateClass_publishSensor (s : State) :
    publishRateClass (publishSensor s) = { s with
      rspQ := sentFrames s [sensorFrame s, ⟨s.params.kindSampleRateChange, rateClassCode s.params s.rateClass⟩] } :=
  congrArg (fun frames => { s with rspQ := frames }) (sentFrames_sentFrames s [sensorFrame s] [_])

/-- What an insertion leaves that opens a header `hd` of class `c`, with `b` the byte that `load()` caches (R172, R175, R178). -/
def openedState (bytes : List Byte) (readOnly : Bool) (hd : Header) (c : RateClass) (b : Byte) (s : State) : State :=
  { setTape bytes readOnly hd s with
    cacheIdx := if hd.start < hd.totalBits then some (hd.start / 8) else none
    cacheByte := b
    mode := .stop
    running := false
    rateClass := c
    rspQ := sentFrames s [
      sensorFrame { s with loaded := true, protect := hd.protect, running := false },
      ⟨s.params.kindSampleRateChange, rateClassCode s.params c⟩]
    hostLog := s.hostLog ++ [.inserted none] }

/-- An image that opens, with a rate that has a class, enters STOP and publishes, on a canonical store and an open tape. -/
theorem openAndEnter_of_class {bytes : List Byte} {readOnly : Bool} {hd : Header} {c : RateClass} {s : State}
    (hp : parseHeader s.params bytes readOnly = .ok hd) (hc : rateClassOf s.params hd.rate s.altRate = some c) :
    ∃ b, openAndEnter bytes readOnly s = .next (openedState bytes readOnly hd c b s) ∧
      MemInv (openedState bytes readOnly hd c b s) ∧ TapeInv (openedState bytes readOnly hd c b s) := by
  have hfits := parseHeader_fits hp
  obtain ⟨b, hload⟩ := load_setTape hfits
  have hmem := memInv_load (memInv_setTape bytes readOnly hd s) hload
  have htape := tapeInv_opened hfits hload
  refine ⟨b, ?_, memInv_congr hmem, tapeInv_congr htape⟩
  simp only [openAndEnter, hp, hload, andThen_ok, rateClassOf_setTape, hc, publishRateClass_publishSensor]
  rfl

/-- R347: a rate that RATE_CLASS_OTHER leaves open refuses the insertion. -/
theorem openAndEnter_of_open_class {bytes : List Byte} {readOnly : Bool} {hd : Header} {s : State}
    (hp : parseHeader s.params bytes readOnly = .ok hd) (hc : rateClassOf s.params hd.rate s.altRate = none) :
    openAndEnter bytes readOnly s = .refused .rateClassOpen := by
  obtain ⟨b, hload⟩ := load_setTape (parseHeader_fits hp)
  simp only [openAndEnter, hp, hload, andThen_ok, rateClassOf_setTape, hc]

/-- Settles O25: with no tape loaded the insertion is `open`, which leaves all but the host's result as it was. -/
theorem failedOpenChangesNothing : Obligations.FailedOpenChangesNothing :=
  fun _ _ _ _ _ hidle hq hl hp => (agentStep_dispatcher_opens hidle hq hl).trans (openAndEnter_of_error hp)

/-- Settles O24: with no tape loaded an insertion is `open` and what follows it, and a loaded tape is joined or ejected first. -/
theorem insertionEntersStop : Obligations.InsertionEntersStop := by
  refine ⟨?opens, ?loaded, ?joined, ?refused⟩
  case opens =>
    intro s bytes readOnly q hd c hidle hq hl hp hc
    obtain ⟨b, hopen, hmem, htape⟩ := openAndEnter_of_class (s := { s with cmdQ := q }) hp hc
    exact ⟨_, (agentStep_dispatcher_opens hidle hq hl).trans hopen, rfl, get_ofBytes_zero bytes, hmem, htape⟩
  case loaded =>
    intro s bytes readOnly q hidle hq hl hm
    rw [agentStep_dispatcher_insert hidle hq]
    refine ⟨fun hw => ?joins, fun hw u hu => ?ejects⟩
    case joins =>
      exact (insertTape_of_loaded (s := { s with cmdQ := q }) hl hm).trans (stopWorker_next_iff.2 (.inl ⟨hw, rfl⟩))
    case ejects =>
      have hej := ejectTape_of_exec_eject hu hm hw
      obtain ⟨hqu, hatu⟩ := ejectTape_dispatcher hej
      have hlu : u.loaded = false := (tapeClosed_ejectTape hej).unloaded
      have hagain := agentStep_dispatcher_requeued (bytes := bytes) (readOnly := readOnly) (hatu.trans hidle)
      rw [show u.cmdQ = q from hqu, insertTape_of_unloaded hlu] at hagain
      exact (insertTape_after_eject (s := { s with cmdQ := q }) hej hl hm hw).trans hagain.symm
  case joined =>
    intro s bytes readOnly hat hw
    have hagain := agentStep_dispatcher_requeued (s := { s with dispatcherAt := .idle }) (bytes := bytes)
      (readOnly := readOnly) rfl
    rw [agentStep_dispatcher_joined hat hw, hagain]
    exact (insertTape_of_no_worker (s := { s with dispatcherAt := .idle }) hw).symm
  case refused =>
    intro s bytes readOnly q hd hidle hq hl hp hc
    exact (agentStep_dispatcher_opens hidle hq hl).trans (openAndEnter_of_open_class hp hc)

end Sys2Proof.Proofs
end

section
/-! SUPPORT. The statements of the family 42_playback.md: the start of PLAY, the samples that playback selects, and
what `fillOutput` gives. -/

namespace Sys2Proof.Proofs

open Sys2Proof.Machine Sys2Proof.Laws

/-! ### PLAY with no worker (R190, R283, R292) -/

/-- A start command that is neither ignored nor has a worker to join goes on at once (R283). -/
theorem startMode_of_no_worker {m : Mode} {s : State} (hl : s.loaded = true) (hg : gated s = false) (hm : s.mode ≠ m)
    (hw : s.workerAlive = false) : startMode m s = finishStart m s := by
  have hnot : ¬ (s.loaded = false ∨ gated s = true ∨ s.mode = m) := by simp [hl, hg, hm]
  exact (if_neg hnot).trans (stopWorker_of_no_worker hw)

/-- Settles O13: nothing is ignored or joined, and `start_play` and the spawn write the registers named. -/
theorem playStarts : Obligations.PlayStarts := by
  intro s hl he hd hm hw
  have hg : gated s = false := by simp [gated, he, hd]
  rw [show exec .play s = startMode .play s from rfl, startMode_of_no_worker hl hg hm hw]
  simp only [finishStart, withTape, hl, if_true, reduceCtorEq, false_and, if_false, startOperation, publishSensor_eq]
  rw [if_neg (by simp [gated, spawnWorker, startPlay, he, hd])]
  simp [spawnWorker, startPlay, hostRate, sensorFrame, sensor]

/-! ### The converter at the end of the tape (R192, R197, R198) -/

theorem fillOutput_at_end {r : Nat} {s : State} (hr : 0 < r) (hp : s.pos = s.totalBits) :
    fillOutput r s = .ok ([], true, s) := by
  obtain ⟨m, hm⟩ := Nat.exists_eq_succ_of_ne_zero (show 8 * r ≠ 0 by omega)
  have hbits : fillBits (8 * r) s = .ok ([], true, s) := by rw [hm]; exact if_pos hp.ge
  exact fillOutput_eq hbits

/-- A PLAY iteration with no byte left exits (R197, R198). -/
theorem iteratePlay_at_end {s : State} (hc : 0 < s.params.chunkBytes) (hp : s.pos = s.totalBits) :
    iteratePlay s = .ok (workerExit true s) := by
  unfold iteratePlay
  rw [fillOutput_at_end hc hp]
  rfl

/-- Settles O34: with the cursor at the end the converter gives no bit, so the iteration ends in the exit. -/
theorem playbackEndsAtTapeEnd : Obligations.PlaybackEndsAtTapeEnd := by
  refine fun s hp hc => ⟨fun r hr => fillOutput_at_end hr hp, fun hl ha hm hw hf => ?_⟩
  have hiterate : iterate (drawUpdate s) = iteratePlay (drawUpdate s) := by simp [iterate, drawUpdate, hm]
  rw [show agentStep .worker s = workerStep s from rfl, workerStep_top hl ha hw hf, hiterate,
    iteratePlay_at_end (s := drawUpdate s) hc hp, andThen_ok]

/-! ### Two calls of the converter (R193) -/

/-- A host bit more (R192): the end of the tape is reported, or one host bit is emitted and the rest follow. -/
theorem fillBits_succ_iff {m : Nat} {s t : State} {bits : List Bit} {eot : Bool} :
    fillBits (m + 1) s = .ok (bits, eot, t) ↔
      (s.totalBits ≤ s.pos ∧ bits = [] ∧ eot = true ∧ t = s) ∨
      (s.pos < s.totalBits ∧ ∃ b u bs, emitOne s = .ok (b, u) ∧ fillBits m u = .ok (bs, eot, t) ∧ bits = b :: bs) := by
  conv_lhs => unfold fillBits
  by_cases hp : s.totalBits ≤ s.pos
  · rw [if_pos hp]
    simp [hp, eq_comm]
  · rw [if_neg hp]
    constructor
    · intro h
      obtain ⟨⟨b, u⟩, hemit, h⟩ := bind_ok_iff.1 h
      obtain ⟨⟨bs, e, v⟩, hrest, h⟩ := bind_ok_iff.1 h
      cases h
      exact .inr ⟨Nat.not_le.1 hp, b, u, bs, hemit, hrest, rfl⟩
    · rintro (⟨hend, -⟩ | ⟨-, b, u, bs, hemit, hrest, rfl⟩)
      · exact absurd hend hp
      · exact bind_ok_iff.2 ⟨(b, u), hemit, bind_ok_iff.2 ⟨(bs, eot, t), hrest, rfl⟩⟩

/-- The host bits of two calls, the first of which does not end the tape, are those of one call for both. -/
theorem fillBits_add {a b : Nat} {s s1 s2 : State} {xs ys : List Bit} {eot : Bool}
    (h1 : fillBits a s = .ok (xs, false, s1)) (h2 : fillBits b s1 = .ok (ys, eot, s2)) :
    fillBits (a + b) s = .ok (xs ++ ys, eot, s2) := by
  induction a generalizing s xs with
  | zero => cases h1; rw [Nat.zero_add]; exact h2
  | succ a ih =>
    obtain ⟨-, -, he, -⟩ | ⟨hp, x, u, bs, hemit, hrest, rfl⟩ := fillBits_succ_iff.1 h1
    · cases he
    · rw [Nat.succ_add]
      exact fillBits_succ_iff.2 (.inr ⟨hp, x, u, bs ++ ys, hemit, ih hrest, rfl⟩)

/-- A byte depends on its eight bits alone. -/
theorem byteOfBits_congr {f g : Nat → Bit} (h : ∀ j, j < 8 → f j = g j) : byteOfBits f = byteOfBits g := by
  refine BitVec.eq_of_getLsbD_eq fun i hi => ?_
  have hf := byteOfBits_spec f (k := 7 - i) (by omega)
  have hg := byteOfBits_spec g (k := 7 - i) (by omega)
  rw [show 7 - (7 - i) = i by omega] at hf hg
  rw [hf, hg, h _ (by omega)]

/-- The byte that holds the bits of a byte is that byte (R82, R84). -/
theorem byteOfBits_byteBit (b : Byte) : byteOfBits (byteBit b) = b := by
  refine BitVec.eq_of_getLsbD_eq fun i hi => ?_
  have h := byteOfBits_spec (byteBit b) (k := 7 - i) (by omega)
  rwa [byteBit, show 7 - (7 - i) = i by omega] at h

/-- Bits that fill their bytes are packed apart from the bits after them. -/
theorem packBits_append {r : Nat} {xs ys : List Bit} (h : xs.length = 8 * r) :
    packBits (xs ++ ys) = packBits xs ++ packBits ys := by
  unfold packBits
  rw [List.length_append, h, show (8 * r + ys.length + 7) / 8 = r + (ys.length + 7) / 8 by omega,
    show (8 * r + 7) / 8 = r by omega, List.range_add, List.map_append, List.map_map]
  congr 1
  · refine List.map_congr_left fun i hi => byteOfBits_congr fun j hj => ?_
    have hi := List.mem_range.1 hi
    exact List.getD_append _ _ _ _ (by omega)
  · refine List.map_congr_left fun i _ => byteOfBits_congr fun j _ => ?_
    dsimp only
    rw [List.getD_append_right _ _ _ _ (by omega)]
    exact congrArg (ys.getD · false) (by omega)

/-- Settles O32: the host bits of the two calls are those of the one call, and the first call's bits fill their bytes. -/
theorem fillOutputSplits : Obligations.FillOutputSplits := by
  intro s s1 s2 r1 r2 o1 o2 eot h1 h2
  obtain ⟨xs, hx, rfl⟩ := fillOutput_cases h1
  obtain ⟨ys, hy, rfl⟩ := fillOutput_cases h2
  rw [← packBits_append ((fillBits_length hx).2 rfl)]
  exact fillOutput_eq (by rw [Nat.mul_add]; exact fillBits_add hx hy)

/-! ### The samples of a playback (R190, R191, R195) -/

theorem datapathOnly_totalBits {s t : State} (h : DatapathOnly s t) : t.totalBits = s.totalBits := by rw [h]
theorem datapathOnly_t {s t : State} (h : DatapathOnly s t) : t.t = s.t := by rw [h]
theorem datapathOnly_hostRate {s t : State} (h : DatapathOnly s t) : hostRate t = hostRate s := by rw [h]; rfl

/-- A forward step moves on by one sample and stays at the end (R160). -/
theorem stepForward_pos {s t : State} {r : CursorResult} (hp : s.pos ≤ s.totalBits) (h : stepForward s = .ok (r, t)) :
    t.pos = min s.totalBits (s.pos + 1) := by
  obtain ⟨hend, -, rfl⟩ | ⟨hlt, -, h⟩ := stepForward_cases h
  · omega
  · rw [(moveTo_frame h).2]; omega

/-- What the loop of R191 does from accumulator `a` in `c` turns: each steps and adds the host rate, and the accumulator ends in
its range. -/
structure Advanced (a : Int) (c : Nat) (s t : State) : Prop where
  acc    : t.acc = a + ((c * hostRate s : Nat) : Int)
  nonneg : 0 ≤ t.acc
  lt     : a < (hostRate s : Int) → t.acc < (hostRate s : Int)
  pos    : s.pos ≤ s.totalBits → t.pos = min s.totalBits (s.pos + c)

/-- No turn is made where the accumulator is not negative. -/
theorem advanced_zero {s : State} (h : ¬ s.acc < 0) : Advanced s.acc 0 s s :=
  ⟨by simp, Int.not_lt.1 h, id, fun hp => by omega⟩

/-- One turn more before the others. -/
theorem advanced_succ {c : Nat} {s s1 t : State} {r : CursorResult} (hacc : s.acc < 0) (hstep : stepForward s = .ok (r, s1))
    (h : Advanced (s1.acc + (hostRate s1 : Int)) c s1 t) : Advanced s.acc (c + 1) s t := by
  obtain ⟨hsum, hnonneg, hlt, hpos⟩ := h
  have hframe := cursorOnly_datapath (stepForward_frame hstep)
  have hsame : s1.acc = s.acc := by rw [stepForward_frame hstep]
  rw [hsame, datapathOnly_hostRate hframe] at hsum hlt
  rw [datapathOnly_totalBits hframe] at hpos
  refine ⟨by rw [hsum, Nat.succ_mul]; push_cast; ring, hnonneg, fun _ => hlt (by omega), fun hp => ?_⟩
  have hp1 := stepForward_pos hp hstep
  rw [hpos (by omega)]
  omega

theorem advanceLoop_advanced {fuel : Nat} {s t : State} (h : advanceLoop fuel s = .ok t) : ∃ c, Advanced s.acc c s t := by
  induction fuel generalizing s with
  | zero =>
    unfold advanceLoop at h
    split at h
    · cases h
    · cases h; exact ⟨0, advanced_zero ‹_›⟩
  | succ fuel ih =>
    unfold advanceLoop at h
    split at h
    · obtain ⟨⟨r, s1⟩, hstep, h⟩ := bind_ok_iff.1 h
      obtain ⟨c, hc⟩ := ih h
      exact ⟨c + 1, advanced_succ ‹_› hstep ⟨hc.acc, hc.nonneg, hc.lt, hc.pos⟩⟩
    · cases h; exact ⟨0, advanced_zero ‹_›⟩

/-- A host bit takes `t` from the accumulator, and then the loop of R191 runs. -/
theorem emitOne_advanced {s t : State} {b : Bit} (h : emitOne s = .ok (b, t)) :
    ∃ c, Advanced (s.acc - (s.t : Int)) c s t := by
  obtain ⟨c, hc⟩ := advanceLoop_advanced (emitOne_cases h).2
  exact ⟨c, hc.acc, hc.nonneg, hc.lt, hc.pos⟩

/-- Before the end of an open tape a host bit is the sample at the cursor, and no sample changes. -/
theorem emitOne_sample {s t : State} {b : Bit} (hready : ReadyTape s) (hp : s.pos < s.totalBits)
    (h : emitOne s = .ok (b, t)) : b = tapeSample s s.pos ∧ SameSamples s t := by
  obtain ⟨b', t', hanswer, hsame⟩ := emitOne_answers hready hp
  have hread := (emitOne_cases h).1
  rw [readSample_spec hready.tape hready.loaded hp] at hread
  rw [h] at hanswer
  cases hanswer
  exact ⟨(ok_inj.1 hread).symm, hsame⟩

/-- The sample of host bit `k` is the only one that leaves the accumulator in its range (R195). -/
theorem selectedSample_unique {t h k j : Nat} (hlo : k * t ≤ h / 2 + j * h) (hhi : h / 2 + j * h < k * t + h) :
    selectedSample t h k = j := by
  unfold selectedSample
  generalize k * t = a at *
  refine Nat.div_eq_of_lt_le ?_ ?_
  · generalize j * h = b at *; omega
  · rw [Nat.succ_mul]; generalize j * h = b at *; omega

theorem selectedSample_zero {t h : Nat} (hpos : 0 < h) : selectedSample t h 0 = 0 :=
  selectedSample_unique (by omega) (by omega)

/-- At equal rates every sample is played once (R195). -/
theorem selectedSample_same_rate {h : Nat} (hpos : 0 < h) (k : Nat) : selectedSample h h k = k :=
  selectedSample_unique (by omega) (by omega)

/-- The tape sample of host bit `k` of a playback from `s` (R195). -/
def playedSample (s : State) (k : Nat) : Nat := s.pos + selectedSample s.t (hostRate s) k

/-- A playback from `s` after `k` host bits: the accumulator is a0 - k t + j_k h, below the host rate, and the cursor
stands on the sample of the next host bit, or at the end of the tape. -/
structure Played (s : State) (k : Nat) (u : State) : Prop where
  kept   : TapeKept s u
  same   : SameSamples s u
  acc    : u.acc = ((hostRate s / 2 + selectedSample s.t (hostRate s) k * hostRate s : Nat) : Int) - ((k * s.t : Nat) : Int)
  lt     : u.acc < (hostRate s : Int)
  pos    : u.pos = min s.totalBits (playedSample s k)

theorem played_startPlay {s : State} (h : ReadyTape s) : Played s 0 (startPlay s) := by
  have hrate := hostRate_pos h.params
  have hpos := h.tape.posLe h.loaded
  have hzero := selectedSample_zero (t := s.t) hrate
  refine ⟨tapeKept_startPlay s, fun _ => rfl, ?_, ?_, ?_⟩
  · simp [startPlay, hzero]
  · simp only [startPlay]; omega
  · simp only [startPlay, playedSample, hzero]; omega

theorem played_totalBits {s u : State} {k : Nat} (h : Played s k u) : u.totalBits = s.totalBits :=
  datapathOnly_totalBits h.kept.frame

/-- Before the end of the tape the cursor stands on the sample of the next host bit. -/
theorem played_pos {s u : State} {k : Nat} (h : Played s k u) (hp : u.pos < u.totalBits) : u.pos = playedSample s k := by
  have := h.pos
  have := played_totalBits h
  omega

/-- One host bit more: it is the selected sample, and the playback goes on (R191, R195). -/
theorem played_emitOne {s u v : State} {k : Nat} {b : Bit} (hready : ReadyTape s) (h : Played s k u)
    (hp : u.pos < u.totalBits) (hemit : emitOne u = .ok (b, v)) :
    b = tapeSample s (playedSample s k) ∧ Played s (k + 1) v := by
  obtain ⟨hb, hsame⟩ := emitOne_sample (readyTape_kept hready h.kept) hp hemit
  obtain ⟨c, hacc, hnonneg, hlt, hpos⟩ := emitOne_advanced hemit
  have htot := played_totalBits h
  have hpu := played_pos h hp
  have hlt_u := h.lt
  rw [datapathOnly_t h.kept.frame, datapathOnly_hostRate h.kept.frame] at hacc hlt
  have hlt := hlt (by omega)
  have hpos := hpos hp.le
  rw [h.acc] at hacc
  have hnext : selectedSample s.t (hostRate s) (k + 1) = selectedSample s.t (hostRate s) k + c :=
    selectedSample_unique (by rw [Nat.succ_mul, Nat.add_mul]; omega) (by rw [Nat.succ_mul, Nat.add_mul]; omega)
  refine ⟨by rw [hb, h.same, hpu], tapeKept_trans h.kept (tapeKept_emitOne hemit), sameSamples_trans h.same hsame,
    ?_, hlt, ?_⟩
  · rw [hacc, hnext, Nat.add_mul, Nat.succ_mul]; omega
  · rw [hpos, htot, hpu, playedSample, playedSample, hnext]; omega

/-- The host bits of R192 in a playback that has given `k` of them. -/
theorem played_fillBits {s u t : State} {k m : Nat} {bits : List Bit} {eot : Bool} (hready : ReadyTape s)
    (h : Played s k u) (hfill : fillBits m u = .ok (bits, eot, t)) :
    Played s (k + bits.length) t ∧
      (∀ i, i < bits.length → playedSample s (k + i) < s.totalBits ∧
        bits[i]? = some (tapeSample s (playedSample s (k + i)))) ∧
      (eot = true → bits.length < m ∧ s.totalBits ≤ playedSample s (k + bits.length)) := by
  induction m generalizing u k bits with
  | zero => cases hfill; exact ⟨h, nofun, nofun⟩
  | succ m ih =>
    obtain ⟨hend, rfl, -, rfl⟩ | ⟨hp, b, v, bs, hemit, hrest, rfl⟩ := fillBits_succ_iff.1 hfill
    · refine ⟨h, nofun, fun _ => ⟨m.succ_pos, ?_⟩⟩
      have := h.pos
      have := played_totalBits h
      exact show s.totalBits ≤ playedSample s k by omega
    · obtain ⟨hb, hnext⟩ := played_emitOne hready h hp hemit
      obtain ⟨hplayed, hbits, hend⟩ := ih hnext hrest
      rw [List.length_cons, show k + (bs.length + 1) = k + 1 + bs.length by omega]
      refine ⟨hplayed, fun i hi => ?_, fun he => ⟨Nat.succ_lt_succ (hend he).1, (hend he).2⟩⟩
      cases i with
      | zero =>
        refine ⟨?_, congrArg some hb⟩
        have := played_pos h hp
        have := played_totalBits h
        exact show playedSample s k < s.totalBits by omega
      | succ i =>
        rw [show k + (i + 1) = k + 1 + i by omega]
        exact hbits i (Nat.lt_of_succ_lt_succ hi)

/-- A playback from its start answers, with the host bits of R195. -/
theorem startPlay_fillBits {s : State} (h : ReadyTape s) (m : Nat) :
    ∃ bits eot t, fillBits m (startPlay s) = .ok (bits, eot, t) ∧ Played s bits.length t ∧
      (∀ i, i < bits.length → playedSample s i < s.totalBits ∧ bits[i]? = some (tapeSample s (playedSample s i))) ∧
      (eot = true → bits.length < m ∧ s.totalBits ≤ playedSample s bits.length) := by
  obtain ⟨bits, eot, t, hfill, -⟩ := fillBits_answers (m := m) (readyTape_kept h (tapeKept_startPlay s))
  have hplayed := played_fillBits h (played_startPlay h) hfill
  simp only [Nat.zero_add] at hplayed
  exact ⟨bits, eot, t, hfill, hplayed⟩

/-- Settles O31: the playback answers on an open tape, and `Played` says where its cursor stands. -/
theorem playbackSelectsSamples : Obligations.PlaybackSelectsSamples := by
  intro s m hwf hm ht hl
  obtain ⟨bits, eot, t, hfill, hplayed, hbits, hend⟩ := startPlay_fillBits ⟨hwf, hm, ht, hl⟩ m
  exact ⟨bits, eot, t, hfill, hbits, (fillBits_length hfill).2, hend, hplayed.pos, hplayed.same⟩

/-! ### Playback at equal rates (R195, L1.5) -/

/-- With nothing staged the image store holds the samples of the tape (R82). -/
theorem tapeSample_of_clean {s : State} (hm : MemInv s) (ht : TapeInv s) (hl : s.loaded = true) (hd : s.dirty = false)
    {i : Nat} (hi : i < s.totalBits) : tapeSample s i = byteBit (Memory.get s.img (hdr s + i / 8)) (i % 8) := by
  obtain ⟨u, hflush, -, -, -, -, hstored⟩ := flush_spec hm ht hl
  rw [flush_clean_eq hd] at hflush
  cases hflush
  exact (hstored i hi).symm

/-- Host bits that are the bits of `r` bytes are packed into those bytes (R84, R192). -/
theorem packBits_of_bytes {r : Nat} {bits : List Bit} {f : Nat → Byte} (hlen : bits.length = 8 * r)
    (h : ∀ i j, i < r → j < 8 → bits[8 * i + j]? = some (byteBit (f i) j)) : packBits bits = (List.range r).map f := by
  unfold packBits
  rw [hlen, show (8 * r + 7) / 8 = r by omega]
  refine List.map_congr_left fun i hi => ?_
  rw [← byteOfBits_byteBit (f i)]
  refine byteOfBits_congr fun j hj => ?_
  rw [List.getD_eq_getElem?_getD, h i j (List.mem_range.1 hi) hj, Option.getD_some]

/-- Settles O33: at equal rates host bit k is sample p0 + k, which the store holds. -/
theorem passthroughReproducesBytes : Obligations.PassthroughReproducesBytes := by
  intro s r hwf hm ht hl hd hrate halign hroom
  have hready : ReadyTape s := ⟨hwf, hm, ht, hl⟩
  have hsample : ∀ k, playedSample s k = s.pos + k := fun k => by
    rw [playedSample, hrate, selectedSample_same_rate (hostRate_pos hwf)]
  obtain ⟨bits, eot, t, hfill, hplayed, hbits, hend⟩ := startPlay_fillBits hready (8 * r)
  simp only [hsample] at hbits hend
  have hcontinues : eot = false := by
    by_contra he
    have := hend (by simpa using he)
    omega
  subst hcontinues
  have hlen : bits.length = 8 * r := (fillBits_length hfill).2 rfl
  refine ⟨t, ?_, ?_⟩
  · rw [fillOutput_eq hfill, packBits_of_bytes (f := fun i => Memory.get s.img (hdr s + s.pos / 8 + i)) hlen]
    intro i j hi hj
    rw [(hbits (8 * i + j) (by omega)).2, tapeSample_of_clean hm ht hl hd (by omega)]
    rw [show hdr s + (s.pos + (8 * i + j)) / 8 = hdr s + s.pos / 8 + i by omega,
      show (s.pos + (8 * i + j)) % 8 = j by omega]
  · rw [hplayed.pos, hsample, hlen]
    omega

end Sys2Proof.Proofs
end

section
/-! SUPPORT. The last statement of the family 42_playback.md: the ranges of the accumulators and of the APSS counters
along every step (R48, R194, R226, R254, R256, R257). -/

namespace Sys2Proof.Proofs

open Sys2Proof.Machine Sys2Proof.Laws

/-! ### The ranges -/

/-- The range of the playback accumulator (R194). -/
def AccRange (s : State) : Prop := 0 ≤ s.acc ∧ s.acc < (hostRate s : Int)

/-- The range of the window accumulator and of the vote (R226). -/
def WindowRange (s : State) : Prop := 0 ≤ s.w ∧ ((s.vote.natAbs * s.t : Nat) : Int) + s.w < (hostRate s : Int)

/-- The ranges of the APSS counters before a boundary is found (R254, R256, R257). -/
def ApssRange (s : State) : Prop :=
  s.ign ≤ apssWindow s.t ∧ s.mis ≤ tolerance s ∧ s.mat ≤ apssWindow s.t ∧ s.found = false

/-- The invariant depends on the ranges and on which unit runs, and a unit that stops keeps it. -/
theorem rangeInv_mono {s t : State} (h : RangeInv s) (hacc : AccRange s → AccRange t := by exact id)
    (hwindow : WindowRange s → WindowRange t := by exact id) (hapss : ApssRange s → ApssRange t := by exact id)
    (hstrategy : t.recStrategy = s.recStrategy := by rfl)
    (hworker : t.workerAlive = true → s.workerAlive = true ∧ t.workerMode = s.workerMode := by exact fun ha => ⟨ha, rfl⟩)
    (hwriter : t.writerAlive = true → s.writerAlive = true := by exact id) : RangeInv t where
  acc ha hm := by
    obtain ⟨ha, e⟩ := hworker ha
    exact hacc (h.acc ha (e ▸ hm))
  w ha hraw := hwindow (h.w (hwriter ha) (hstrategy ▸ hraw))
  apss ha hm := by
    obtain ⟨ha, e⟩ := hworker ha
    exact hapss (h.apss ha (e ▸ hm))

/-- With no writer only the worker's range is asked. -/
theorem rangeInv_of_no_writer {s : State} (hw : s.writerAlive = false) (hacc : s.workerMode = .play → AccRange s)
    (hapss : s.workerMode = .autoFastForward ∨ s.workerMode = .autoRewind → ApssRange s) : RangeInv s :=
  ⟨fun _ => hacc, fun ha => absurd ha (by simp [hw]), fun _ => hapss⟩

/-- With no worker and no writer no range is asked. -/
theorem rangeInv_of_idle {s : State} (ha : s.workerAlive = false) (hw : s.writerAlive = false) : RangeInv s :=
  ⟨fun h => absurd h (by simp [ha]), fun h => absurd h (by simp [hw]), fun h => absurd h (by simp [ha])⟩

/-- In RECORD only the writer's range is asked. -/
theorem rangeInv_of_record {s : State} (hm : s.workerMode = .record)
    (hwindow : s.writerAlive = true → s.recStrategy = .raw → WindowRange s) : RangeInv s :=
  ⟨fun _ h => absurd h (by simp [hm]), hwindow, fun _ h => absurd h (by simp [hm])⟩

theorem rangeInv_controlOnly {s t : State} (h : ControlOnly s t) (hr : RangeInv s) : RangeInv t := by
  rw [h]; exact rangeInv_mono hr

/-! ### The converter, the decimator and the detector -/

/-- The converter keeps the accumulator in its range (R194). -/
theorem accRange_fillBits {m : Nat} {s t : State} {bits : List Bit} {eot : Bool} (hr : AccRange s)
    (h : fillBits m s = .ok (bits, eot, t)) : AccRange t := by
  induction m generalizing s bits with
  | zero => cases h; exact hr
  | succ m ih =>
    obtain ⟨-, -, -, rfl⟩ | ⟨-, b, u, bs, hemit, hrest, -⟩ := fillBits_succ_iff.1 h
    · exact hr
    · obtain ⟨c, -, hnonneg, hlt, -⟩ := emitOne_advanced hemit
      have hrate : hostRate u = hostRate s := datapathOnly_hostRate (tapeKept_emitOne hemit).frame
      obtain ⟨-, hbelow⟩ := hr
      exact ih ⟨hnonneg, by rw [hrate]; exact hlt (by omega)⟩ hrest

/-- The loop of R225 leaves the window open with its vote, or closes windows and leaves the next one with no vote. -/
theorem rawLoop_window {fuel : Nat} {s t : State} (hlt : s.w < (hostRate s : Int)) (he : t.ended = false)
    (h : rawLoop fuel s = .ok t) :
    (t = s ∧ 0 ≤ s.w) ∨ (t.vote = 0 ∧ 0 ≤ t.w ∧ t.w < (hostRate s : Int)) := by
  induction fuel generalizing s with
  | zero =>
    unfold rawLoop at h
    split at h
    · cases h
    · rename_i hdone
      cases h
      exact .inl ⟨rfl, by simpa [he] using hdone⟩
  | succ fuel ih =>
    unfold rawLoop at h
    split at h
    · rename_i hneg
      obtain ⟨s1, hcommit, h⟩ := bind_ok_iff.1 h
      obtain ⟨hw, hrate⟩ := rawCommit_frame hcommit
      have hnext : s1.w + (hostRate s1 : Int) < (hostRate s1 : Int) := by omega
      obtain ⟨rfl, hnonneg⟩ | ⟨hvote, hnonneg, hbelow⟩ := ih hnext h
      · exact .inr ⟨rfl, hnonneg, hrate ▸ hnext⟩
      · exact .inr ⟨hvote, hnonneg, hrate ▸ hbelow⟩
    · rename_i hdone
      cases h
      exact .inl ⟨rfl, by simpa [he] using hdone⟩

/-- A host bit moves the vote by one and the window accumulator by `t`, which keeps the bound of R226. -/
theorem windowRange_rawStep {v : Bit} {s t : State} (hr : WindowRange s) (he : t.ended = false)
    (h : rawStep v s = .ok t) : WindowRange t := by
  obtain ⟨hnonneg, hbound⟩ := hr
  have hframe := (tapeKept_rawLoop h).frame
  have hrate : hostRate t = hostRate s := datapathOnly_hostRate hframe
  have ht : t.t = s.t := datapathOnly_t hframe
  have hbelow : s.w - (s.t : Int) < (hostRate s : Int) := by omega
  obtain ⟨rfl, hopen⟩ | ⟨hvote, hopen, hclosed⟩ := rawLoop_window (by exact hbelow) he h
  · have hvote : (s.vote + if v then 1 else -1).natAbs ≤ s.vote.natAbs + 1 := by split <;> omega
    have hprod := Nat.mul_le_mul_right s.t hvote
    rw [Nat.succ_mul] at hprod
    refine ⟨hopen, ?_⟩
    rw [hrate]
    dsimp only
    omega
  · refine ⟨hopen, ?_⟩
    rw [hvote, hrate, Int.natAbs_zero, Nat.zero_mul, Nat.cast_zero, zero_add]
    exact hclosed

theorem apssRange_cursorOnly {s t : State} (h : CursorOnly s t) (hr : ApssRange s) : ApssRange t := by rw [h]; exact hr

/-- A sample that finds no boundary keeps the counters in their ranges (R257). -/
theorem apssRange_apssEval {b : Bit} {s : State} (hr : ApssRange s) (hf : (apssEval b s).found = false) :
    ApssRange (apssEval b s) := by
  obtain ⟨hign, hmis, hmat, hfound⟩ := hr
  revert hf
  unfold apssEval
  split
  · exact fun _ => ⟨(Nat.sub_le _ _).trans hign, hmis, hmat, hfound⟩
  · split
    · exact fun _ => ⟨hign, hmis, hmat, hfound⟩
    · unfold apssCompare
      split
      · split
        · intro hf
          simp only [Bool.or_eq_false_iff, decide_eq_false_iff_not, Nat.not_lt] at hf
          exact ⟨hign, Nat.zero_le _, hf.2, by simpa [hfound] using hf.2⟩
        · exact fun _ => ⟨hign, Nat.zero_le _, hmat, hfound⟩
      · split
        · exact fun _ => ⟨hign, Nat.zero_le _, Nat.zero_le _, hfound⟩
        · rename_i htol
          exact fun _ => ⟨hign, Nat.not_lt.1 htol, hmat, hfound⟩

/-- A call of the detector that answers OK evaluates one sample, and moves the cursor before it or after it (R255). -/
theorem apssBit_ok_cases {d : Dir} {s t : State} (h : apssBit d s = .ok (.ok, t)) :
    ∃ b u, CursorOnly s u ∧ CursorOnly (apssEval b u) t := by
  cases d with
  | fwd =>
    simp only [apssBit] at h
    split at h
    · cases h
    · obtain ⟨b, -, h⟩ := bind_ok_iff.1 h
      obtain ⟨⟨r, s1⟩, hstep, h⟩ := bind_ok_iff.1 h
      obtain ⟨-, rfl⟩ := Prod.mk.inj (ok_inj.1 h)
      exact ⟨b, s, cursorOnly_refl s, stepForward_frame hstep⟩
  | bwd =>
    simp only [apssBit] at h
    split at h
    · cases h
    · obtain ⟨⟨r, s1⟩, hstep, h⟩ := bind_ok_iff.1 h
      obtain ⟨b, -, h⟩ := bind_ok_iff.1 h
      obtain ⟨-, rfl⟩ := Prod.mk.inj (ok_inj.1 h)
      exact ⟨b, s1, stepBackward_frame hstep, cursorOnly_refl _⟩

theorem apssRange_apssBit {d : Dir} {s t : State} (hr : ApssRange s) (h : apssBit d s = .ok (.ok, t)) : ApssRange t := by
  obtain ⟨b, u, hmove, hmoved⟩ := apssBit_ok_cases h
  have hfound : (apssEval b u).found = false := by
    rw [← apssBit_ok_found h, hmoved]
  exact apssRange_cursorOnly hmoved (apssRange_apssEval (apssRange_cursorOnly hmove hr) hfound)

/-- A tick that answers OK has found no boundary (R258). -/
theorem apssRange_apssLoop {d : Dir} {m : Nat} {s t : State} (hr : ApssRange s) (h : apssLoop d m s = .ok (.ok, t)) :
    ApssRange t := by
  induction m generalizing s with
  | zero => cases h; exact hr
  | succ m ih =>
    unfold apssLoop at h
    obtain ⟨⟨r, s1⟩, hbit, h⟩ := bind_ok_iff.1 h
    dsimp only at h
    split at h
    · rename_i hok
      subst hok
      exact ih (apssRange_apssBit hr hbit) h
    · rename_i hne
      exact absurd (Prod.mk.inj (ok_inj.1 h)).1 hne

/-! ### The writer -/

theorem writerTurn_workerMode {s t : State} (h : writerTurn s = .ok t) : t.workerMode = s.workerMode := by
  obtain ⟨d, u, hd, hk, hu⟩ := writerTurn_frame h
  rw [hu, hk.frame, hd]

/-- A host bit of a RAW session that goes on keeps the window's bound (R211, R226). -/
theorem windowRange_recStep {v : Bit} {s t : State} (hr : RangeInv s) (ha : s.writerAlive = true) (he : t.ended = false)
    (h : recStep v s = .ok t) (hraw : t.recStrategy = .raw) : WindowRange t := by
  have hstrategy : s.recStrategy = .raw := by rw [← hraw, (tapeKept_recStep h).frame]
  unfold recStep at h
  rw [hstrategy] at h
  exact windowRange_rawStep (hr.w ha hstrategy) he h

theorem rangeInv_writerTurn {s t : State} (hr : RangeInv s) (ha : s.writerAlive = true) (hm : s.workerMode = .record)
    (h : writerTurn s = .ok t) : RangeInv t := by
  refine rangeInv_of_record ((writerTurn_workerMode h).trans hm) ?_
  obtain ⟨v, u, -, hstep, he, rfl⟩ | ⟨v, u, u', -, -, -, -, rfl⟩ | ⟨-, -, rfl⟩ | ⟨-, -, -, rfl⟩ |
    ⟨u, u', -, -, -, -, -, rfl⟩ := writerTurn_cases h
  · exact fun _ => windowRange_recStep (s := { s with spos := s.spos + 1 }) (rangeInv_mono hr) ha he hstep
  · exact nofun
  · exact fun _ => hr.w ha
  · exact fun _ => hr.w ha
  · exact nofun

/-! ### The worker -/

/-- The exit of a worker keeps the invariant: the worker is gone, or it waits for its writer (R305). -/
theorem rangeInv_workerExit {s : State} (self : Bool) (hr : RangeInv s) : RangeInv (workerExit self s) := by
  obtain ⟨-, -, e⟩ | ⟨-, f, e⟩ := workerExit_cases self s
  · rw [e]; exact rangeInv_mono hr
  · rw [e]; exact rangeInv_mono hr (hworker := nofun)

/-- A worker with no writer is gone after its exit, whatever its registers hold (R305). -/
theorem rangeInv_workerExit_of_no_writer {s : State} (self : Bool) (hw : s.writerAlive = false) :
    RangeInv (workerExit self s) := by
  obtain ⟨-, ha, -⟩ | ⟨-, f, e⟩ := workerExit_cases self s
  · simp [hw] at ha
  · rw [e]; exact rangeInv_of_idle rfl hw

theorem rangeInv_iterateRec {s : State} (hr : RangeInv s) : RangeInv (iterateRec s) := by
  obtain ⟨-, e⟩ | ⟨-, -, e⟩ | ⟨-, -, chunk, -, -, e⟩ | ⟨-, -, e⟩ := iterateRec_cases s
  · rw [e]; exact rangeInv_workerExit false hr
  · rw [e]; exact rangeInv_workerExit true hr
  · rw [e]; exact rangeInv_mono hr
  · rw [e]; exact rangeInv_mono hr

theorem datapathOnly_agents {s t : State} (h : DatapathOnly s t) :
    t.workerAlive = s.workerAlive ∧ t.workerMode = s.workerMode ∧ t.writerAlive = s.writerAlive := by
  rw [h]; exact ⟨rfl, rfl, rfl⟩

/-- A PLAY iteration goes on or offers a chunk with the accumulator in its range, or exits (R194, R198). -/
theorem rangeInv_iteratePlay {s t : State} (hm : s.workerMode = .play) (hw : s.writerAlive = false) (hr : AccRange s)
    (h : iteratePlay s = .ok t) : RangeInv t := by
  obtain ⟨u, out, eot, hfill, hk, hcase⟩ := iteratePlay_cases h
  obtain ⟨bits, hbits, -⟩ := fillOutput_cases hfill
  obtain ⟨-, hmode, hwriter⟩ := datapathOnly_agents hk.frame
  have hu : RangeInv u :=
    rangeInv_of_no_writer (hwriter.trans hw) (fun _ => accRange_fillBits hr hbits) (fun h => by simp [hmode, hm] at h)
  obtain ⟨-, rfl⟩ | ⟨-, rfl⟩ := hcase
  · split
    · exact rangeInv_workerExit true hu
    · exact hu
  · exact rangeInv_mono hu

/-- A fast-wind iteration has no range to keep (R252). -/
theorem rangeInv_iterateSeek {d : Dir} {s t : State} (hm : s.workerMode = .fastForward ∨ s.workerMode = .rewind)
    (hw : s.writerAlive = false) (h : iterateSeek d s = .ok t) : RangeInv t := by
  obtain ⟨r, u, -, hk, rfl⟩ := iterateSeek_cases h
  obtain ⟨-, hmode, hwriter⟩ := datapathOnly_agents hk.frame
  split
  · exact rangeInv_workerExit_of_no_writer true (hwriter.trans hw)
  · rw [← hmode] at hm
    exact rangeInv_of_no_writer (hwriter.trans hw) (fun h => by simp [h] at hm)
      (fun h => by obtain h | h := h <;> simp [h] at hm)

/-- An APSS iteration goes on with the counters in their ranges, or exits at FOUND or BOUNDARY (R257, R259). -/
theorem rangeInv_iterateApss {d : Dir} {s t : State} (hm : s.workerMode ≠ .play) (hw : s.writerAlive = false)
    (hr : ApssRange s) (h : iterateApss d s = .ok t) : RangeInv t := by
  obtain ⟨r, u, htick, hk, rfl⟩ := iterateApss_cases h
  obtain ⟨-, hmode, hwriter⟩ := datapathOnly_agents hk.frame
  split
  · rename_i hok
    subst hok
    exact rangeInv_of_no_writer (hwriter.trans hw) (fun h => absurd (hmode.symm.trans h) hm)
      (fun _ => apssRange_apssLoop hr htick)
  · exact rangeInv_workerExit_of_no_writer true (hwriter.trans hw)

/-- What the controller's invariant says of the agents that the ranges belong to (R281, R306). -/
structure LiveAgents (s : State) : Prop where
  worker : s.workerAlive = true → s.loaded = true ∧ s.mode ≠ .eject
  writer : s.writerAlive = true → s.workerAlive = true ∧ s.workerMode = .record

theorem liveAgents_of_ctrlInv {s : State} (h : CtrlInv s) : LiveAgents s where
  worker ha := by
    obtain ⟨hrunning, hmode⟩ := h.worker ha
    have hne : s.mode ≠ .eject := by
      intro he
      rw [← hmode, he] at hrunning
      cases hrunning
    exact ⟨by by_contra hl; exact hne (h.tape.2 (by simpa using hl)), hne⟩
  writer := h.writer

/-- A writer lives only with a RECORD worker. -/
theorem no_writer_of_mode {s : State} (h : LiveAgents s) (hm : s.workerMode ≠ .record) : s.writerAlive = false := by
  by_contra ha
  exact hm (h.writer (by simpa using ha)).2

theorem no_writer_of_no_worker {s : State} (h : LiveAgents s) (hw : s.workerAlive = false) : s.writerAlive = false := by
  by_contra ha
  have hworker := (h.writer (by simpa using ha)).1
  simp [hw] at hworker

theorem rangeInv_iterate {s t : State} (hlive : LiveAgents s) (ha : s.workerAlive = true) (hr : RangeInv s)
    (h : iterate s = .ok t) : RangeInv t := by
  unfold iterate at h
  split at h
  · rename_i hm
    exact rangeInv_iteratePlay hm (no_writer_of_mode hlive (by simp [hm])) (hr.acc ha hm) h
  · cases h
    exact rangeInv_iterateRec hr
  · rename_i hm
    exact rangeInv_iterateSeek (.inl hm) (no_writer_of_mode hlive (by simp [hm])) h
  · rename_i hm
    exact rangeInv_iterateSeek (.inr hm) (no_writer_of_mode hlive (by simp [hm])) h
  · rename_i hm
    exact rangeInv_iterateApss (by simp [hm]) (no_writer_of_mode hlive (by simp [hm])) (hr.apss ha (.inl hm)) h
  · rename_i hm
    exact rangeInv_iterateApss (by simp [hm]) (no_writer_of_mode hlive (by simp [hm])) (hr.apss ha (.inr hm)) h
  · cases h
  · cases h
  · cases h

theorem rangeInv_afterTake {s : State} (eot : Bool) (hr : RangeInv s) : RangeInv (afterTake eot s) := by
  obtain ⟨-, e⟩ | ⟨-, -, e⟩ | ⟨-, -, e⟩ := afterTake_cases eot s
  · rw [e]; exact rangeInv_workerExit false hr
  · rw [e]; exact rangeInv_workerExit true hr
  · rw [e]; exact rangeInv_mono hr

theorem rangeInv_workerTurn {s t : State} (hlive : LiveAgents s) (ha : s.workerAlive = true) (hr : RangeInv s)
    (h : workerTurn s = .ok t) : RangeInv t := by
  obtain ⟨-, -, rfl⟩ | ⟨-, -, h⟩ | ⟨eot, -, rfl⟩ | ⟨-, rfl⟩ | ⟨self, -, rfl⟩ := workerTurn_cases h
  · exact rangeInv_workerExit false hr
  · exact rangeInv_iterate (s := drawUpdate s) ⟨hlive.worker, hlive.writer⟩ ha (rangeInv_mono hr) h
  · exact rangeInv_afterTake eot hr
  · exact rangeInv_iterateRec hr
  · rw [finishExit_eq]; exact rangeInv_mono hr (hworker := nofun)

/-! ### The dispatcher -/

/-- `stop_worker` only cancels a worker that is alive (R282). -/
theorem stopWorker_controlOnly {k : Join} {after : State → Result} {s t : State} (hw : s.workerAlive = true)
    (h : stopWorker k after s = .next t) : ControlOnly s t := by
  obtain ⟨-, rfl⟩ | ⟨hno, -⟩ := stopWorker_next_iff.1 h
  · rfl
  · simp [hw] at hno

/-- While a worker is alive a command writes controller registers alone: what it does beside that waits for the join (R282). -/
theorem exec_controlOnly {i : Instr} {s t : State} (hw : s.workerAlive = true) (h : exec i s = .next t) :
    ControlOnly s t := by
  obtain ⟨m, -, h⟩ | ⟨-, h⟩ | ⟨-, h⟩ | ⟨kind, value, rfl⟩ := exec_cases h
  · obtain rfl | ⟨-, -, ⟨-, rfl⟩ | ⟨hno, -⟩⟩ := startMode_cases h
    · rfl
    · rfl
    · simp [hw] at hno
  · unfold execEject at h
    split at h
    · cases h; rfl
    · exact stopWorker_controlOnly hw h
  · exact stopWorker_controlOnly hw h
  · rfl

theorem runItem_controlOnly {x : CmdItem} {s t : State} (hlive : LiveAgents s) (hw : s.workerAlive = true)
    (h : runItem x s = .next t) : ControlOnly s t := by
  cases x with
  | byte b =>
    obtain rfl | ⟨i, h⟩ := runByte_cases h
    · rfl
    · exact exec_controlOnly hw h
  | insert bytes readOnly =>
    obtain ⟨hl, hm⟩ := hlive.worker hw
    rw [show runItem (.insert bytes readOnly) s = insertTape bytes readOnly s from rfl, insertTape_of_loaded hl hm] at h
    exact stopWorker_controlOnly hw h
  | devErr => exact stopWorker_controlOnly (k := .devErr) (after := fun u => .next (finishError .deviceError u)) hw h
  | disconn =>
    exact stopWorker_controlOnly (k := .disconn) (after := fun u => .next (finishError .deviceDisconnected u)) hw h

/-- While a worker is alive the dispatcher's turn writes controller registers alone (R280, R282). -/
theorem dispatcherStep_controlOnly {s t : State} (hlive : LiveAgents s) (hw : s.workerAlive = true)
    (h : dispatcherStep s = .next t) : ControlOnly s t := by
  obtain ⟨k, -, -, rfl⟩ | ⟨k, -, hno, -⟩ | ⟨-, -, rfl⟩ | ⟨x, q, -, -, h⟩ := dispatcherStep_cases h
  · rfl
  · simp [hw] at hno
  · rfl
  · have hitem := runItem_controlOnly (s := { s with cmdQ := q }) ⟨hlive.worker, hlive.writer⟩ hw h
    unfold ControlOnly at hitem ⊢
    rw [hitem]

theorem accRange_startPlay {s : State} (hpos : 0 < hostRate s) : AccRange (startPlay s) := by
  constructor
  · exact Int.natCast_nonneg _
  · exact Int.ofNat_lt.2 (Nat.div_lt_self hpos (by decide))

theorem windowRange_startWrite {s : State} (hpos : 0 < hostRate s) : WindowRange (startWrite s) := by
  have hhalf : hostRate s / 2 < hostRate s := Nat.div_lt_self hpos (by decide)
  constructor
  · exact Int.natCast_nonneg _
  · rw [show (startWrite s).vote = 0 from rfl, Int.natAbs_zero, Nat.zero_mul, Nat.cast_zero, zero_add]
    exact Int.ofNat_lt.2 hhalf

theorem apssRange_startApss (s : State) : ApssRange (startApss s) :=
  ⟨le_refl _, Nat.zero_le _, Nat.zero_le _, rfl⟩

/-- A start operation seeds its unit's register inside its range (R190, R210, R254). -/
theorem rangeInv_finishStart {m : Mode} {s t : State} (hwf : s.params.wf = true) (hw : s.writerAlive = false)
    (h : finishStart m s = .next t) : RangeInv t := by
  obtain ⟨-, s1, hstart, rfl⟩ := finishStart_cases h
  have hpos : 0 < hostRate s := hostRate_pos hwf
  cases m with
  | play => cases hstart; exact rangeInv_of_no_writer hw (fun _ => accRange_startPlay hpos) nofun
  | autoFastForward => cases hstart; exact rangeInv_of_no_writer hw nofun (fun _ => apssRange_startApss _)
  | autoRewind => cases hstart; exact rangeInv_of_no_writer hw nofun (fun _ => apssRange_startApss _)
  | fastForward => cases hstart; exact rangeInv_of_no_writer hw nofun nofun
  | rewind => cases hstart; exact rangeInv_of_no_writer hw nofun nofun
  | record =>
    cases hstart
    unfold enterRecord
    split
    · exact rangeInv_of_no_writer hw nofun nofun
    · exact rangeInv_of_record rfl (fun _ _ => windowRange_startWrite hpos)
  | none => cases hstart
  | stop => cases hstart
  | eject => cases hstart

theorem ejectTape_agents {s t : State} (h : ejectTape s = .ok t) :
    t.workerAlive = s.workerAlive ∧ t.writerAlive = s.writerAlive := by
  obtain ⟨u, v, hu, hv, e⟩ := ejectTape_cases h
  rw [e, persistPosition_frame hv, (flush_frame hu).1]
  exact ⟨rfl, rfl⟩

theorem openAndEnter_agents {bytes : List Byte} {readOnly : Bool} {s t : State}
    (h : openAndEnter bytes readOnly s = .next t) : t.workerAlive = s.workerAlive ∧ t.writerAlive = s.writerAlive := by
  obtain ⟨code, -, rfl⟩ | ⟨hd, s1, c, -, h1, -, e⟩ := openAndEnter_cases h
  · exact ⟨rfl, rfl⟩
  · rw [e, (load_frame h1).1]
    exact ⟨rfl, rfl⟩

/-- With no worker alive the dispatcher starts a unit in its range, and opening or closing the image finds no unit running. -/
theorem rangeInv_dispatcherEffect {s t : State} (hwf : s.params.wf = true) (ha : s.workerAlive = false)
    (hw : s.writerAlive = false) (hr : RangeInv s) (h : DispatcherEffect s t) : RangeInv t := by
  cases h with
  | control h => exact rangeInv_controlOnly h hr
  | start h => exact rangeInv_finishStart hwf hw h
  | eject h =>
    obtain ⟨ea, ew⟩ := ejectTape_agents h
    exact rangeInv_of_idle (ea.trans ha) (ew.trans hw)
  | insert h =>
    obtain ⟨ea, ew⟩ := openAndEnter_agents h
    exact rangeInv_of_idle (ea.trans ha) (ew.trans hw)
  | replace hej h =>
    obtain ⟨ea, ew⟩ := ejectTape_agents hej
    obtain ⟨ea', ew'⟩ := openAndEnter_agents h
    exact rangeInv_of_idle (ea'.trans (ea.trans ha)) (ew'.trans (ew.trans hw))

theorem rangeInv_dispatcherStep {s t : State} (hwf : s.params.wf = true) (hlive : LiveAgents s) (hr : RangeInv s)
    (h : dispatcherStep s = .next t) : RangeInv t := by
  cases ha : s.workerAlive with
  | true => exact rangeInv_controlOnly (dispatcherStep_controlOnly hlive ha h) hr
  | false =>
    obtain ⟨u, hu, heffect⟩ := dispatcherStep_effect h
    have hw := no_writer_of_no_worker hlive ha
    exact rangeInv_dispatcherEffect (by rw [hu]; exact hwf) (by rw [hu]; exact ha) (by rw [hu]; exact hw)
      (rangeInv_controlOnly hu hr) heffect

/-! ### The receiver, the host and the step -/

/-- The host's reset leaves no worker and no writer (R380), and every other action leaves their registers alone. -/
theorem rangeInv_hostAct {act : HostAction} {rest : List HostAction} {s t : State} (hr : RangeInv s)
    (h : hostAct act rest s = .next t) : RangeInv t := by
  obtain rfl | ⟨a, v, rfl⟩ | e := hostAct_frame h
  · cases h; exact rangeInv_of_idle rfl rfl
  · obtain ⟨-, -, rfl⟩ := hostWrite_cases h
    exact rangeInv_mono (s := s) hr
  · rw [e]; exact rangeInv_mono hr

theorem rangeInv_agentStep {a : Agent} {s t : State} (hwf : s.params.wf = true) (hlive : LiveAgents s) (hr : RangeInv s)
    (h : agentStep a s = .next t) : RangeInv t := by
  cases a with
  | receiver =>
    obtain rfl | ⟨b, rest, -, -, rfl⟩ := receiverStep_cases h
    · exact hr
    · exact rangeInv_mono hr
  | dispatcher => exact rangeInv_dispatcherStep hwf hlive hr h
  | worker =>
    obtain ⟨-, rfl⟩ | ⟨-, ha, -, h⟩ := workerStep_cases h
    · exact hr
    · exact rangeInv_workerTurn hlive ha hr h
  | writer =>
    obtain ⟨-, rfl⟩ | ⟨-, ha, -, h⟩ := writerStep_cases h
    · exact hr
    · exact rangeInv_writerTurn hr ha (hlive.writer ha).2 h
  | host =>
    obtain ⟨-, rfl⟩ | ⟨act, rest, -, h⟩ := hostStep_cases h
    · exact hr
    · exact rangeInv_hostAct hr h

theorem rangeInv_step {s t : State} (hwf : s.params.wf = true) (hlive : LiveAgents s) (hr : RangeInv s)
    (h : step s = .next t) : RangeInv t := by
  obtain ⟨u, hu, rfl⟩ := step_next_iff.1 h
  rw [observe_eq]
  have hturn : RangeInv u :=
    rangeInv_agentStep (s := { s with sched := s.sched.tail }) hwf ⟨hlive.worker, hlive.writer⟩ (rangeInv_mono hr) hu
  exact rangeInv_mono hturn

/-! ### The widths (R9, R194, R226) -/

/-- With legal parameters the host rate is at most 48000 (R9, R194). -/
theorem hostRate_le {s : State} (h : s.params.wf = true) : hostRate s ≤ 48000 := by
  simp only [Params.wf, Bool.and_eq_true, decide_eq_true_eq] at h
  obtain ⟨⟨-, hmax⟩, -⟩ := h
  unfold hostRate hostRateOf
  cases s.rateClass with
  | c48k => exact le_refl _
  | c44k1 => norm_num
  | c44k1alt => exact hmax
  | c32k => norm_num

/-- A vote inside the bound of R226 is below the ceiling of h / t. -/
theorem vote_lt_ceil {v t h : Nat} {w : Int} (ht : 0 < t) (hw : 0 ≤ w) (hbound : ((v * t : Nat) : Int) + w < (h : Int)) :
    v + 1 ≤ (h + t - 1) / t := by
  rw [Nat.le_div_iff_mul_le ht, Nat.succ_mul]
  omega

/-- Settles O58: every agent's turn keeps the ranges, and with t and h at most 48000 they fit in 17 signed bits. -/
theorem rangesAreKept : Obligations.RangesAreKept := by
  refine ⟨fun s t hwf _ hc hr h => rangeInv_step hwf (liveAgents_of_ctrlInv hc) hr h, fun s hwf ht hl => ?_⟩
  obtain ⟨hmin, hmax⟩ := ht.rate hl
  have hle := hostRate_le hwf
  refine ⟨hostRate_pos hwf, hle, fun a ha hlt => ?_, fun hw hbound => vote_lt_ceil (by omega) hw hbound⟩
  exact ⟨by omega, by omega, by omega, by omega⟩

end Sys2Proof.Proofs
end

section
/-! SUPPORT. The statements of the family 43_record.md, first part: what a session writes host bit by host bit, and the edge
decoder (R215 to R222, R227). -/

namespace Sys2Proof.Proofs

open Sys2Proof.Machine Sys2Proof.Laws

/-! ### A session that goes on -/

/-- A record session that has not ended, on an open tape. -/
structure OpenSession (s : State) : Prop where
  mem    : MemInv s
  tape   : TapeInv s
  loaded : s.loaded = true
  going  : s.ended = false

/-- An open session that writes what it commits: it is not inhibited (R231). -/
structure WritingSession (s : State) : Prop extends OpenSession s where
  writable : inhibited s = false

theorem datapathOnly_inhibited {s t : State} (h : DatapathOnly s t) : inhibited t = inhibited s := by rw [h]; rfl

theorem openSession_kept {s t : State} (h : OpenSession s) (hk : TapeKept s t) (he : t.ended = false) : OpenSession t where
  mem := hk.mem h.mem
  tape := hk.tape h.mem h.tape h.loaded
  loaded := (datapathOnly_loaded hk.frame).trans h.loaded
  going := he

theorem writingSession_kept {s t : State} (h : WritingSession s) (hk : TapeKept s t) (he : t.ended = false) :
    WritingSession t where
  toOpenSession := openSession_kept h.toOpenSession hk he
  writable := (datapathOnly_inhibited hk.frame).trans h.writable

/-- `start_write` opens a session (R210). -/
theorem openSession_startWrite {s : State} (hm : MemInv s) (ht : TapeInv s) (hl : s.loaded = true) :
    OpenSession (startWrite s) :=
  ⟨memInv_congr hm, tapeInv_congr ht, hl, rfl⟩

theorem writingSession_startWrite {s : State} (hm : MemInv s) (ht : TapeInv s) (hl : s.loaded = true)
    (hpolicy : (s.protect = false ∧ s.readOnly = false) ∨ s.params.recProtectPolicy ≠ .inhibit) :
    WritingSession (startWrite s) :=
  ⟨openSession_startWrite hm ht hl, inhibited_eq_false (s := startWrite s) hpolicy⟩

/-- The samples `xs` stand on the tape from where the cursor was, the cursor stands behind them, and every other sample is as
before. -/
structure Written (xs : List Bit) (s t : State) : Prop where
  pos    : t.pos = s.pos + xs.length
  sample : ∀ i, i < xs.length → some (tapeSample t (s.pos + i)) = xs[i]?
  other  : ∀ i, i < s.pos ∨ s.pos + xs.length ≤ i → tapeSample t i = tapeSample s i

theorem written_nil (s : State) : Written [] s s := ⟨rfl, nofun, fun _ _ => rfl⟩

theorem written_append {xs ys : List Bit} {s t u : State} (h1 : Written xs s t) (h2 : Written ys t u) :
    Written (xs ++ ys) s u where
  pos := by rw [h2.pos, h1.pos, List.length_append, Nat.add_assoc]
  sample i hi := by
    rw [List.length_append] at hi
    have hpos := h1.pos
    by_cases hx : i < xs.length
    · rw [h2.other _ (.inl (by omega)), h1.sample i hx, List.getElem?_append_left hx]
    · rw [List.getElem?_append_right (Nat.not_lt.1 hx), ← h2.sample _ (by omega)]
      exact congrArg (fun j => some (tapeSample u j)) (by omega)
  other i hi := by
    rw [List.length_append] at hi
    have hpos := h1.pos
    rw [h2.other i (by omega), h1.other i (by omega)]

theorem recordBits_append (xs ys : List Bit) (s : State) :
    recordBits (xs ++ ys) s = (recordBits xs s >>= recordBits ys) := by
  induction xs generalizing s with
  | nil => rfl
  | cons x xs ih => simp only [List.cons_append, recordBits, ih, bind_assoc]

theorem recordBits_map_append {xs : List Bit} {s t : State} (h : recordBits (xs.map not) s = .ok t) (ys : List Bit) :
    recordBits ((xs ++ ys).map not) s = recordBits (ys.map not) t := by
  rw [List.map_append, recordBits_append, h, ok_bind]

/-- A host bit is read inverted (R131), so the inverted bits of a list give the strategy the list itself. -/
theorem recordBits_map_cons {x : Bit} {s t : State} (h : recStep x s = .ok t) (xs : List Bit) :
    recordBits ((x :: xs).map not) s = recordBits (xs.map not) t := by
  rw [List.map_cons, recordBits, Bool.not_not, h, ok_bind]

theorem tapeKept_recordBits {xs : List Bit} {s t : State} (h : recordBits xs s = .ok t) : TapeKept s t := by
  induction xs generalizing s with
  | nil => cases h; exact tapeKept_refl _
  | cons x xs ih =>
    obtain ⟨u, hstep, hrest⟩ := bind_ok_iff.1 h
    exact tapeKept_trans (tapeKept_recStep hstep) (ih hrest)

/-- A session that writes a block of samples for each value, and is ready for the next block after it, writes the blocks of a
list of values in order. -/
theorem recordBits_blocks {Ready : State → Prop} {block : Bit → List Bit}
    (hblock : ∀ (b : Bit) (s : State), Ready s → s.pos + (block b).length ≤ s.totalBits →
      ∃ t, recordBits ((block b).map not) s = .ok t ∧ Written (block b) s t ∧ Ready t)
    (bits : List Bit) {s : State} (h : Ready s) (hroom : s.pos + (bits.flatMap block).length ≤ s.totalBits) :
    ∃ t, recordBits ((bits.flatMap block).map not) s = .ok t ∧ Written (bits.flatMap block) s t ∧ Ready t := by
  induction bits generalizing s with
  | nil => exact ⟨s, rfl, written_nil s, h⟩
  | cons b bits ih =>
    rw [List.flatMap_cons, List.length_append] at hroom
    obtain ⟨u, hfirst, hwritten, hready⟩ := hblock b s h (by omega)
    have htotal := datapathOnly_totalBits (tapeKept_recordBits hfirst).frame
    have hpos := hwritten.pos
    obtain ⟨t, hrest, hwritten', hready'⟩ := ih hready (by omega)
    refine ⟨t, ?_, written_append hwritten hwritten', hready'⟩
    rw [List.flatMap_cons, recordBits_map_append hfirst]
    exact hrest

/-! ### The edge decoder (R215 to R219) -/

/-- R217: in SCAN a bit that makes no rising edge is counted. -/
theorem edgeStep_no_edge {s : State} {v : Bit} (hphase : s.phase = .scan) (h : s.prev = true ∨ v = false) :
    edgeStep v s = .ok { s with n := s.n + 1, prev := v } := by
  have hno : ¬ (s.prev = false ∧ v = true) := by
    rintro ⟨hprev, hv⟩
    simp [hprev, hv] at h
  simp only [edgeStep, hphase, edgeScan, if_neg hno]

/-- R217: a rising edge pads the gap before it and starts the advance. -/
theorem edgeStep_edge {s : State} (hphase : s.phase = .scan) (hprev : s.prev = false) :
    edgeStep true s = (do
      let s1 ← scanGap s
      .ok { s1 with phase := .advance, k := 0, n := 0, prev := true }) := by
  simp only [edgeStep, hphase, edgeScan, hprev, and_self, if_true]

/-- R219: no gap is padded before a rising edge after at most G counted bits. -/
theorem edgeStep_short_gap {s : State} (hphase : s.phase = .scan) (hprev : s.prev = false)
    (hn : s.n ≤ longGap (hostRate s)) :
    edgeStep true s = .ok { s with phase := .advance, k := 0, n := 0, prev := true } := by
  rw [edgeStep_edge hphase hprev, scanGap, if_neg (Nat.not_lt.2 hn), ok_bind]

/-- R219: a longer gap is padded with its host bits rescaled, as many samples as the tape has room for. -/
theorem edgeStep_long_gap {s : State} (hm : MemInv s) (ht : TapeInv s) (hl : s.loaded = true) (he : s.ended = false)
    (hphase : s.phase = .scan) (hprev : s.prev = false) (hn : longGap (hostRate s) < s.n) :
    ∃ u, edgeStep true s = .ok u ∧
      u = { s with
        img := u.img, cacheIdx := u.cacheIdx, cacheByte := u.cacheByte, dirty := u.dirty
        pos := min s.totalBits (s.pos + rescale s.n s)
        ended := decide (s.totalBits < s.pos + rescale s.n s)
        phase := .advance
        k := 0
        n := 0
        prev := true } ∧
      (inhibited s = false → ∀ i, tapeSample u i = if s.pos ≤ i ∧ i < u.pos then false else tapeSample s i) := by
  obtain ⟨t, hgap, -, -, hframe, hsamples⟩ := scanGap_spec hm ht hl he
  simp only [if_pos hn] at hframe hsamples
  have hpos : t.pos = min s.totalBits (s.pos + rescale s.n s) := by rw [hframe]
  refine ⟨{ t with phase := .advance, k := 0, n := 0, prev := true }, ?_, ?_, fun hi i => ?_⟩
  · rw [edgeStep_edge hphase hprev, hgap, ok_bind]
  · dsimp only
    generalize t.img = a, t.cacheIdx = b, t.cacheByte = c, t.dirty = d at hframe
    rw [hframe]
  · have h := hsamples i
    simp only [hi, true_and, ← hpos] at h
    exact h

/-- R218: in ADVANCE a bit before the sample point is counted alone. -/
theorem edgeStep_before_sample {s : State} (v : Bit) (hphase : s.phase = .advance)
    (hk : s.k + 1 ≠ sampleOffset (hostRate s)) : edgeStep v s = .ok { s with k := s.k + 1 } := by
  simp only [edgeStep, hphase, edgeAdvance, if_neg hk]

/-- R218: at the sample point the symbol of the bit is written, as many samples as the tape has room for. -/
theorem edgeStep_sample {s : State} (v : Bit) (hm : MemInv s) (ht : TapeInv s) (hl : s.loaded = true)
    (he : s.ended = false) (hphase : s.phase = .advance) (hk : s.k + 1 = sampleOffset (hostRate s)) :
    let half := symbolHalf s.t v
    ∃ u, edgeStep v s = .ok u ∧
      u = { s with
        img := u.img, cacheIdx := u.cacheIdx, cacheByte := u.cacheByte, dirty := u.dirty
        pos := min s.totalBits (s.pos + 2 * half)
        ended := decide (s.totalBits < s.pos + 2 * half)
        phase := .scan
        k := s.k + 1
        n := 0
        prev := v } ∧
      (inhibited s = false →
        ∀ i, tapeSample u i = if s.pos ≤ i ∧ i < u.pos then decide (i < s.pos + half) else tapeSample s i) := by
  intro half
  obtain ⟨u, hstep, -, -, hframe, hsamples⟩ := edgeAdvance_spec v hm ht hl he hk
  have hpos : u.pos = min s.totalBits (s.pos + 2 * half) := by rw [hframe]
  refine ⟨u, ?_, hframe, fun hi i => ?_⟩
  · simp only [edgeStep, hphase]
    exact hstep
  · have h := hsamples i
    rw [show min s.totalBits (s.pos + 2 * symbolHalf s.t v) = u.pos from hpos.symm] at h
    simp only [hi, true_and] at h
    exact h

/-! ### The edge decoder over several bits -/

theorem recStep_edge {s : State} (v : Bit) (h : s.recStrategy = .edge) : recStep v s = edgeStep v s := by
  simp only [recStep, h]

theorem recordBits_edge_cons {x : Bit} {s t : State} (hedge : s.recStrategy = .edge) (h : edgeStep x s = .ok t)
    (xs : List Bit) : recordBits ((x :: xs).map not) s = recordBits (xs.map not) t :=
  recordBits_map_cons ((recStep_edge x hedge).trans h) xs

/-- R218: before the sample point the values of the bits do not matter. -/
theorem recordBits_before_sample {xs : List Bit} {s : State} (hedge : s.recStrategy = .edge) (hphase : s.phase = .advance)
    (hk : s.k + xs.length < sampleOffset (hostRate s)) :
    recordBits (xs.map not) s = .ok { s with k := s.k + xs.length } := by
  induction xs generalizing s with
  | nil => rfl
  | cons x xs ih =>
    rw [List.length_cons] at hk ⊢
    have hrest := ih (s := { s with k := s.k + 1 }) hedge hphase
      (show s.k + 1 + xs.length < sampleOffset (hostRate s) by omega)
    rw [recordBits_edge_cons hedge (edgeStep_before_sample x hphase (by omega)), hrest]
    simp only [Nat.add_assoc, Nat.add_comm 1]

/-- R217: in SCAN a run of bits with no rising edge is counted. -/
theorem recordBits_no_edge {m : Nat} {v : Bit} {s : State} (hedge : s.recStrategy = .edge) (hphase : s.phase = .scan)
    (h : s.prev = true ∨ v = false) :
    recordBits ((List.replicate m v).map not) s =
      .ok { s with n := s.n + m, prev := if m = 0 then s.prev else v } := by
  induction m generalizing s with
  | zero => rfl
  | succ m ih =>
    have hrest := ih (s := { s with n := s.n + 1, prev := v }) hedge hphase (by cases v <;> simp)
    rw [List.replicate_succ, recordBits_edge_cons hedge (edgeStep_no_edge hphase h), hrest]
    simp only [Nat.add_assoc, Nat.add_comm 1, ite_self, Nat.add_one_ne_zero, if_false]

/-! ### The round trip (R222) -/

theorem length_fmSymbol (t : Nat) (b : Bit) : (fmSymbol t b).length = 2 * symbolHalf t b := by
  simp only [fmSymbol, List.length_append, List.length_replicate]
  omega

/-- Sample by sample, a symbol is high in its first half and low in its second (R128). -/
theorem fmSymbol_getElem? {t : Nat} {b : Bit} {i : Nat} (hi : i < 2 * symbolHalf t b) :
    (fmSymbol t b)[i]? = some (decide (i < symbolHalf t b)) := by
  unfold fmSymbol
  by_cases hhigh : i < symbolHalf t b
  · rw [List.getElem?_append_left (by simpa using hhigh), List.getElem?_replicate_of_lt hhigh, decide_eq_true hhigh]
  · rw [List.getElem?_append_right (by simpa using hhigh), List.length_replicate,
      List.getElem?_replicate_of_lt (by omega), decide_eq_false hhigh]

theorem replicate_cons_split (v : Bit) {n i m : Nat} (h : n = i + (m + 1)) :
    List.replicate n v = List.replicate i v ++ v :: List.replicate m v := by
  rw [h, List.replicate_add, List.replicate_succ]

/-- A symbol as the edge decoder meets it when the sample point S is in the half cycle after the first (D ≤ S ≤ 2D - 1): the
edge, the bits before the sample point, the value of the bit at the sample point, and then no rising edge. -/
theorem fmSymbol_at_sample {t S : Nat} (b : Bit) (hD : 0 < halfCycle t) (hlo : halfCycle t ≤ S)
    (hhi : S ≤ 2 * halfCycle t - 1) :
    ∃ xs : List Bit, xs.length + 1 = S ∧
      fmSymbol t b = (true :: (xs ++ [b])) ++
        (List.replicate (2 * halfCycle t - 1 - S) b ++ List.replicate (if b then 2 * halfCycle t else 0) false) := by
  cases b with
  | false =>
    have hhalf : symbolHalf t false = halfCycle t := by simp [symbolHalf]
    have hhigh := replicate_cons_split true (show halfCycle t = 0 + (halfCycle t - 1 + 1) by omega)
    have hlow := replicate_cons_split false
      (show halfCycle t = S - halfCycle t + (2 * halfCycle t - 1 - S + 1) by omega)
    refine ⟨List.replicate (halfCycle t - 1) true ++ List.replicate (S - halfCycle t) false, ?_, ?_⟩
    · rw [List.length_append, List.length_replicate, List.length_replicate]; omega
    · rw [fmSymbol, hhalf, hhigh, hlow]
      simp
  | true =>
    have hhalf : symbolHalf t true = 2 * halfCycle t := by simp [symbolHalf, Nat.mul_comm]
    have hedge := replicate_cons_split true (show 2 * halfCycle t = 0 + (2 * halfCycle t - 1 + 1) by omega)
    have hsample := replicate_cons_split true
      (show 2 * halfCycle t - 1 = S - 1 + (2 * halfCycle t - 1 - S + 1) by omega)
    refine ⟨List.replicate (S - 1) true, ?_, ?_⟩
    · rw [List.length_replicate]; omega
    · conv_lhs => rw [fmSymbol, hhalf]; enter [1]; rw [hedge, hsample]
      simp

/-- The edge decoder in SCAN, in a session whose tape rate and host rate are `rate`. -/
structure Scanning (rate : Nat) (s : State) : Prop extends WritingSession s where
  edge     : s.recStrategy = .edge
  hostRate : hostRate s = rate
  tapeRate : s.t = rate
  scan     : s.phase = .scan

theorem scanning_kept {r : Nat} {s t : State} (h : Scanning r s) (hk : TapeKept s t) (he : t.ended = false)
    (hphase : t.phase = .scan) : Scanning r t where
  toWritingSession := writingSession_kept h.toWritingSession hk he
  edge := by rw [hk.frame]; exact h.edge
  hostRate := (datapathOnly_hostRate hk.frame).trans h.hostRate
  tapeRate := (datapathOnly_t hk.frame).trans h.tapeRate
  scan := hphase

/-- The edge decoder between two symbols: it scans on a low sample, and no long gap has come together. -/
structure BetweenSymbols (rate : Nat) (s : State) : Prop extends Scanning rate s where
  low : s.prev = false
  gap : s.n ≤ longGap rate

theorem betweenSymbols_startWrite {s : State} (hopen : WritingSession (startWrite s)) (hrate : s.t = Machine.hostRate s)
    (hedge : s.recConv = true ∨ s.t < 32000) : BetweenSymbols s.t (startWrite s) where
  toWritingSession := hopen
  edge := if_pos (by simpa using hedge)
  hostRate := hrate.symm
  tapeRate := rfl
  scan := rfl
  low := rfl
  gap := Nat.zero_le _

/-- At the sample point the symbol of the bit is written whole where the tape has room, and the session goes on. -/
theorem edgeStep_sample_of_room {s : State} (v : Bit) (h : WritingSession s) (hphase : s.phase = .advance)
    (hk : s.k + 1 = sampleOffset (hostRate s)) (hroom : s.pos + (fmSymbol s.t v).length ≤ s.totalBits) :
    ∃ u, edgeStep v s = .ok u ∧ Written (fmSymbol s.t v) s u ∧ u.ended = false ∧ u.phase = .scan ∧ u.n = 0 ∧
      u.prev = v := by
  obtain ⟨u, hstep, hframe, hsamples⟩ := edgeStep_sample v h.mem h.tape h.loaded h.going hphase hk
  have hsamples := hsamples h.writable
  rw [length_fmSymbol] at hroom
  have hpos : u.pos = s.pos + 2 * symbolHalf s.t v := by rw [hframe]; exact Nat.min_eq_right hroom
  have hgoes : u.ended = false := by rw [hframe]; exact decide_eq_false (Nat.not_lt.2 hroom)
  refine ⟨u, hstep, ⟨?_, fun i hi => ?_, fun i hi => ?_⟩, hgoes, by rw [hframe], by rw [hframe], by rw [hframe]⟩
  · rw [length_fmSymbol, hpos]
  · rw [length_fmSymbol] at hi
    rw [hsamples, if_pos (by omega), fmSymbol_getElem? hi]
    exact congrArg some (decide_eq_decide.2 (by omega))
  · rw [length_fmSymbol] at hi
    rw [hsamples, if_neg (by omega)]

/-- From between two symbols: a rising edge, S - 1 bits of any value, and the sample point, which writes its bit's symbol. -/
theorem betweenSymbols_to_sample {r : Nat} {s : State} {xs : List Bit} (b : Bit) (h : BetweenSymbols r s)
    (hlen : xs.length + 1 = sampleOffset r) (hroom : s.pos + (fmSymbol r b).length ≤ s.totalBits) :
    ∃ u, recordBits ((true :: (xs ++ [b])).map not) s = .ok u ∧ Written (fmSymbol r b) s u ∧ Scanning r u ∧
      u.n = 0 ∧ u.prev = b := by
  obtain ⟨⟨hopen, hstrategy, hrate, ht, hscan⟩, hlow, hgap⟩ := h
  subst ht
  have hoffset : xs.length + 1 = sampleOffset (hostRate s) := by rw [hrate]; exact hlen
  have hedge := edgeStep_short_gap hscan hlow (by rw [hrate]; exact hgap)
  have hbefore := recordBits_before_sample (xs := xs)
    (s := { s with phase := .advance, k := 0, n := 0, prev := true }) hstrategy rfl
    (show 0 + xs.length < sampleOffset (hostRate s) by omega)
  have hadvance : TapeKept s { s with phase := .advance, k := 0 + xs.length, n := 0, prev := true } :=
    tapeKept_of_registers rfl rfl rfl rfl rfl rfl
  obtain ⟨u, hsample, hwritten, hgoes, hphase, hn, hprev⟩ :=
    edgeStep_sample_of_room b (writingSession_kept hopen hadvance hopen.going) rfl
      (show 0 + xs.length + 1 = sampleOffset (hostRate s) by omega) hroom
  refine ⟨u, ?_, ⟨hwritten.pos, hwritten.sample, hwritten.other⟩, ?_, hn, hprev⟩
  · rw [recordBits_edge_cons hstrategy hedge, recordBits_map_append hbefore,
      recordBits_edge_cons (by exact hstrategy) hsample]
    rfl
  · have hkept := tapeKept_trans hadvance (tapeKept_edgeStep hsample)
    exact scanning_kept ⟨hopen, hstrategy, hrate, rfl, hscan⟩ hkept hgoes hphase

/-- A run of bits with no rising edge writes nothing. -/
theorem scanning_no_edge {r m : Nat} {v : Bit} {s : State} (h : Scanning r s) (hedge : s.prev = true ∨ v = false) :
    ∃ t, recordBits ((List.replicate m v).map not) s = .ok t ∧ Written [] s t ∧ Scanning r t ∧
      t.n = s.n + m ∧ t.prev = if m = 0 then s.prev else v := by
  have hrun := recordBits_no_edge (m := m) h.edge h.scan hedge
  exact ⟨_, hrun, ⟨rfl, nofun, fun _ _ => rfl⟩, scanning_kept h (tapeKept_recordBits hrun) h.going h.scan, rfl, rfl⟩

/-- One symbol at the host's rate: the edge and the sample point with the symbol of the bit, and then no edge up to the next
symbol. -/
theorem betweenSymbols_symbol {r : Nat} (hlo : halfCycle r ≤ sampleOffset r) (hhi : sampleOffset r ≤ 2 * halfCycle r - 1)
    (hgap : 4 * halfCycle r - 1 - sampleOffset r ≤ longGap r) (b : Bit) (s : State) (h : BetweenSymbols r s)
    (hroom : s.pos + (fmSymbol r b).length ≤ s.totalBits) :
    ∃ t, recordBits ((fmSymbol r b).map not) s = .ok t ∧ Written (fmSymbol r b) s t ∧ BetweenSymbols r t := by
  have hD : 0 < halfCycle r := by
    have hmin := (h.tape.rate h.loaded).1
    rw [h.tapeRate] at hmin
    unfold halfCycle
    omega
  obtain ⟨xs, hlen, hsymbol⟩ := fmSymbol_at_sample b hD hlo hhi
  obtain ⟨u, hsample, hwritten, hu, hn, hprev⟩ := betweenSymbols_to_sample b h hlen hroom
  obtain ⟨v, hvalue, hwritten_v, hv, hn_v, hprev_v⟩ :=
    scanning_no_edge (m := 2 * halfCycle r - 1 - sampleOffset r) (v := b) hu (by rw [hprev]; cases b <;> simp)
  obtain ⟨t, hlow, hwritten_t, ht, hn_t, hprev_t⟩ :=
    scanning_no_edge (m := if b then 2 * halfCycle r else 0) (v := false) hv (.inr rfl)
  refine ⟨t, ?_, ?_, ht, ?_, ?_⟩
  · rw [hsymbol, recordBits_map_append hsample, recordBits_map_append hvalue, hlow]
  · simpa using written_append hwritten (written_append hwritten_v hwritten_t)
  · rw [hprev_t, hprev_v, hprev]
    cases b
    · simp
    · exact if_neg (by simp; omega)
  · rw [hn_t, hn_v, hn]
    cases b
    · simp; omega
    · simp; omega

/-- Settles O39: symbol by symbol the decoder is between two symbols again, and each of its steps has its law above. -/
theorem edgeDecoderRoundTrip : Obligations.EdgeDecoderRoundTrip := by
  refine ⟨?roundTrip, by decide, fun s v => edgeStep_no_edge, fun s => edgeStep_short_gap,
    fun s hm ht hl he hphase hprev hn => ?longGap, fun s v => edgeStep_before_sample v,
    fun s v hm ht hl he hphase hk => ?sample⟩
  case roundTrip =>
    intro s bits hm ht hl hpolicy hrate hstrategy hlo hhi hgap hroom
    have hready := betweenSymbols_startWrite (writingSession_startWrite hm ht hl hpolicy) hrate hstrategy
    obtain ⟨t, hrun, ⟨hpos, hsamples, hother⟩, hdone⟩ :=
      recordBits_blocks (betweenSymbols_symbol hlo hhi hgap) bits hready hroom
    exact ⟨t, hrun, hdone.going, hpos, hsamples, hother⟩
  case longGap =>
    obtain ⟨u, hstep, hframe, hsamples⟩ := edgeStep_long_gap hm ht hl he hphase hprev hn
    exact ⟨u, hstep, hframe, fun hpolicy => hsamples (inhibited_eq_false hpolicy)⟩
  case sample =>
    obtain ⟨u, hstep, hframe, hsamples⟩ := edgeStep_sample v hm ht hl he hphase hk
    exact ⟨u, hstep, hframe, fun hpolicy => hsamples (inhibited_eq_false hpolicy)⟩

end Sys2Proof.Proofs
end

section
/-! SUPPORT. The statements of the family 43_record.md, second part: `tapeWrite` and the raw decimator (R213, R223 to R227,
R231). -/

namespace Sys2Proof.Proofs

open Sys2Proof.Machine Sys2Proof.Laws

/-! ### `tapeWrite` (R213, R231) -/

theorem tapeWrite_of_ended {s : State} (v : Bit) (h : s.ended = true) : tapeWrite v s = .ok s := if_pos h

theorem tapeWrite_at_end {s : State} (v : Bit) (he : s.ended = false) (hp : s.totalBits ≤ s.pos) :
    tapeWrite v s = .ok { s with ended := true } := by
  rw [tapeWrite, if_neg (by simp [he]), if_pos hp]

/-- R213: with room on the tape `tapeWrite` moves on by one sample, which it has written unless the session is inhibited. -/
theorem tapeWrite_of_room {s : State} (v : Bit) (h : OpenSession s) (hp : s.pos < s.totalBits) :
    ∃ t, tapeWrite v s = .ok t ∧ CursorOnly s t ∧ t.pos = s.pos + 1 ∧
      ∀ i, tapeSample t i = if inhibited s = false ∧ i = s.pos then v else tapeSample s i := by
  obtain ⟨t, hwrite, -, -, hframe, hsamples⟩ := tapeWrite_spec v h.mem h.tape h.loaded h.going
  have hmin : min s.totalBits (s.pos + 1) = s.pos + 1 := Nat.min_eq_right hp
  have hgoes : decide (s.totalBits < s.pos + 1) = s.ended := by rw [h.going, decide_eq_false (Nat.not_lt.2 hp)]
  rw [hmin, hgoes] at hframe
  have hpos : t.pos = s.pos + 1 := by rw [hframe]
  refine ⟨t, hwrite, by rw [← hpos] at hframe; exact hframe, hpos, fun i => ?_⟩
  rw [hsamples, hmin]
  exact if_congr (and_congr_right' (by omega)) rfl rfl

/-- A forward step with nothing staged leaves the image store as it is (R152, R156). -/
theorem stepForward_of_clean {s t : State} {r : CursorResult} (hd : s.dirty = false) (h : stepForward s = .ok (r, t)) :
    t.dirty = false ∧ t.img = s.img := by
  obtain ⟨-, -, rfl⟩ | ⟨-, -, hmove⟩ := stepForward_cases h
  · exact ⟨hd, rfl⟩
  · by_cases hbyte : cacheIdxAt (s.pos + 1) s = s.cacheIdx
    · obtain rfl := ok_inj.1 ((moveTo_of_same_byte hbyte).symm.trans hmove)
      exact ⟨hd, rfl⟩
    · obtain ⟨u, hflush, himg, hclean⟩ := flush_of_moveTo hbyte hmove
      obtain rfl := ok_inj.1 ((flush_clean_eq hd).symm.trans hflush)
      exact ⟨hclean, himg⟩

/-- An inhibited `tapeWrite` stages nothing (R231). -/
theorem tapeWrite_inhibited_of_clean {v : Bit} {s t : State} (hi : inhibited s = true) (hd : s.dirty = false)
    (h : tapeWrite v s = .ok t) : t.dirty = false ∧ t.img = s.img := by
  obtain ⟨-, rfl⟩ | ⟨-, -, rfl⟩ | ⟨-, -, -, hpass⟩ | ⟨-, -, hwritable, -⟩ := tapeWrite_cases h
  · exact ⟨hd, rfl⟩
  · exact ⟨hd, rfl⟩
  · obtain ⟨⟨r, u⟩, hstep, hu⟩ := bind_ok_iff.1 hpass
    cases hu
    exact stepForward_of_clean hd hstep
  · simp [hi] at hwritable

/-- R231: the session on a protected tape under INHIBIT is inhibited. -/
theorem inhibited_eq_true {s : State} (h : s.protect = true ∨ s.readOnly = true)
    (hpolicy : s.params.recProtectPolicy = .inhibit) : inhibited s = true := by
  simpa [inhibited, tapeProtected, hpolicy] using h

/-- Settles O36: the three cases of `tapeWrite`. -/
theorem tapeWriteStoresOneSample : Obligations.TapeWriteStoresOneSample := by
  refine fun s v => ⟨tapeWrite_of_ended v, tapeWrite_at_end v, fun hm ht hl he hp hpolicy => ?_⟩
  obtain ⟨t, hwrite, hframe, hpos, hsamples⟩ := tapeWrite_of_room v ⟨hm, ht, hl, he⟩ hp
  simp only [inhibited_eq_false hpolicy, true_and] at hsamples
  exact ⟨t, hwrite, hframe, hpos, hsamples⟩

/-- REFUSE: a REC that is not ignored stops the run on a protected tape (R231, R283). -/
theorem exec_record_refused {s : State} (hl : s.loaded = true) (hp : tapeProtected s = true)
    (hpolicy : s.params.recProtectPolicy = .refuse) (hg : gated s = false) (hm : s.mode ≠ .record)
    (hw : s.workerAlive = false) : exec .record s = .refused .recProtected := by
  rw [show exec .record s = startMode .record s from rfl, startMode_of_no_worker hl hg hm hw]
  simp only [finishStart, withTape, hl, hp, hpolicy, and_self, if_true]

/-- Settles O17: REC refuses, and each `tapeWrite` is a bare step or writes, by the policy. -/
theorem protectedTapeFollowsPolicy : Obligations.ProtectedTapeFollowsPolicy := by
  intro s hl hprotected
  refine ⟨fun hpolicy he hd hm hw => ?refuse, fun hm ht he hp v => ?write⟩
  case refuse =>
    exact exec_record_refused hl (by simpa [tapeProtected] using hprotected) hpolicy (by simp [gated, he, hd]) hm hw
  case write =>
    obtain ⟨t, hwrite, hframe, hpos, hsamples⟩ := tapeWrite_of_room v ⟨hm, ht, hl, he⟩ hp
    refine ⟨t, hwrite, hpos, hframe, fun hpolicy => ?_, fun hpolicy => ?_⟩
    · have hi := inhibited_eq_true hprotected hpolicy
      simp only [hi, Bool.true_eq_false, false_and, if_false] at hsamples
      exact ⟨hsamples, fun hclean => tapeWrite_inhibited_of_clean hi hclean hwrite⟩
    · have hi := inhibited_eq_false (s := s) (.inr (by simp [hpolicy]))
      simp only [hi, true_and] at hsamples
      exact hsamples

/-! ### One host bit of the raw decimator (R224, R225) -/

/-- The state of the decimator when a host bit has voted and taken `t` from the window, before any window closes (R225). -/
def afterVote (v : Bit) (s : State) : State :=
  { s with vote := s.vote + (if v then 1 else -1), w := s.w - (s.t : Int) }

theorem rawStep_eq (v : Bit) (s : State) : rawStep v s = rawLoop (afterVote v s).w.natAbs (afterVote v s) := rfl

theorem recStep_raw {s : State} (v : Bit) (h : s.recStrategy = .raw) : recStep v s = rawStep v s := by
  simp only [recStep, h]

theorem rawLoop_done {fuel : Nat} {s : State} (h : s.ended = true ∨ 0 ≤ s.w) : rawLoop fuel s = .ok s := by
  have hdone : ¬ (s.w < 0 ∧ s.ended = false) := by
    rintro ⟨hw, he⟩
    obtain h | h := h
    · simp [he] at h
    · omega
  cases fuel with
  | zero => exact if_neg hdone
  | succ fuel => exact if_neg hdone

/-- Each window of R225 brings `w` up by one or more, so the loop of `raw_step` has the turns for all of them. -/
theorem windows_le_natAbs {x : Int} {c h : Nat} (hlow : 0 < c → x + ((c : Int) - 1) * (h : Int) < 0)
    (hhigh : 0 ≤ x + (c : Int) * (h : Int)) : c ≤ x.natAbs := by
  obtain rfl | hc := Nat.eq_zero_or_pos c
  · exact Nat.zero_le _
  · have hlow := hlow hc
    have hstep : (c : Int) * (h : Int) = ((c : Int) - 1) * h + h := by ring
    have hpos : (1 : Int) ≤ h := by omega
    have hmul : ((c : Int) - 1) * 1 ≤ ((c : Int) - 1) * h := Int.mul_le_mul_of_nonneg_left hpos (by omega)
    omega

/-- R225: a host bit on an open tape closes the `c` windows that bring `w` to 0 or more, or as many as the tape has room for and
the one that finds its end. -/
theorem rawStep_spec {s : State} (v : Bit) {c : Nat} (h : OpenSession s)
    (hlow : 0 < c → s.w - (s.t : Int) + ((c : Int) - 1) * (hostRate s : Int) < 0)
    (hhigh : 0 ≤ s.w - (s.t : Int) + (c : Int) * (hostRate s : Int)) :
    ∃ u, rawStep v s = .ok u ∧
      u = { s with
        img := u.img, cacheIdx := u.cacheIdx, cacheByte := u.cacheByte, dirty := u.dirty
        pos := min s.totalBits (s.pos + c)
        ended := decide (s.totalBits < s.pos + c)
        w := s.w - (s.t : Int) + (min c (s.totalBits - s.pos + 1) : Nat) * (hostRate s : Int)
        vote := if c = 0 then (afterVote v s).vote else 0
        last := if c = 0 then s.last else windowBit (afterVote v s) } ∧
      ∀ i, tapeSample u i =
        if inhibited s = false ∧ s.pos ≤ i ∧ i < min s.totalBits (s.pos + c) ∧
          (s.params.tieRule = .repeatLast ∨ ((afterVote v s).vote ≠ 0 ∧ i = s.pos))
        then windowBit (afterVote v s) else tapeSample s i := by
  obtain ⟨u, hloop, -, -, hframe, hsamples⟩ := rawLoop_spec (s := afterVote v s) (memInv_congr h.mem)
    (tapeInv_congr h.tape) h.loaded h.going (windows_le_natAbs hlow hhigh) hlow hhigh
  exact ⟨u, (rawStep_eq v s).trans hloop, hframe, hsamples⟩

/-! ### A tied window (R224) -/

theorem rawCommit_tie_repeatLast {s : State} (h : s.vote = 0) (htie : s.params.tieRule = .repeatLast) :
    rawCommit s = tapeWrite s.last s := by
  rw [rawCommit, if_neg (by omega), if_neg (by omega), htie]

theorem rawCommit_tie_keepTape {s : State} (h : s.vote = 0) (htie : s.params.tieRule = .keepTape) :
    rawCommit s = keepTapeTie s := by
  rw [rawCommit, if_neg (by omega), if_neg (by omega), htie]

theorem keepTapeTie_of_room {s : State} (hm : MemInv s) (ht : TapeInv s) (hl : s.loaded = true) (hp : s.pos < s.totalBits) :
    ∃ t, keepTapeTie s = .ok t ∧ CursorOnly s t ∧ t.pos = s.pos + 1 ∧ SameSamples s t := by
  obtain ⟨t, hstep, hpos, -, -, hframe, hsame⟩ := stepForward_spec hm ht hl hp
  exact ⟨t, by rw [keepTapeTie, if_neg (Nat.not_le.2 hp), passSample, hstep]; rfl, hframe, hpos, hsame⟩

/-- Every commit opens the next window with vote 0 (R225). -/
theorem rawLoop_commit {fuel : Nat} {u v : State} (hw : u.w < 0) (he : u.ended = false) (h : rawCommit u = .ok v) :
    rawLoop (fuel + 1) u = rawLoop fuel { v with vote := 0, w := u.w + (hostRate u : Int) } := by
  obtain ⟨hsame, hrate⟩ := rawCommit_frame h
  rw [rawLoop, if_pos ⟨hw, he⟩, h, ok_bind, hsame, hrate]

/-! ### The windows of a list of host bits (R223, R225) -/

/-- R225: after N host bits the `m` windows are closed that bring w - N t into the range of one window. -/
theorem recordBits_windows {xs : List Bit} {m : Nat} {s : State} (h : OpenSession s) (hraw : s.recStrategy = .raw)
    (hrate : 0 < hostRate s) (hw : 0 ≤ s.w)
    (hlo : 0 ≤ s.w - (xs.length : Int) * (s.t : Int) + (m : Int) * (hostRate s : Int))
    (hhi : s.w - (xs.length : Int) * (s.t : Int) + (m : Int) * (hostRate s : Int) < (hostRate s : Int))
    (hroom : s.pos + m ≤ s.totalBits) :
    ∃ u, recordBits xs s = .ok u ∧ u.ended = false ∧ u.pos = s.pos + m ∧
      ∀ i, i < s.pos ∨ s.pos + m ≤ i → tapeSample u i = tapeSample s i := by
  induction xs generalizing s m with
  | nil =>
    obtain rfl : m = 0 := by
      by_contra hm
      have hmul : (1 : Int) * (hostRate s : Int) ≤ (m : Int) * hostRate s :=
        Int.mul_le_mul_of_nonneg_right (by omega) (by omega)
      simp at hhi
      omega
    exact ⟨s, rfl, h.going, rfl, fun _ _ => rfl⟩
  | cons x xs ih =>
    have hlen : ((x :: xs).length : Int) * (s.t : Int) = (xs.length : Int) * s.t + s.t := by
      rw [List.length_cons]; push_cast; ring
    have hbits : (0 : Int) ≤ (xs.length : Int) * s.t := Int.mul_nonneg (by omega) (by omega)
    obtain ⟨c, -, hlow, hhigh⟩ := windows_exist (s.w - (s.t : Int)) hrate
    have hcm : c ≤ m := by
      by_contra hlt
      have hmul : (m : Int) * (hostRate s : Int) ≤ ((c : Int) - 1) * hostRate s :=
        Int.mul_le_mul_of_nonneg_right (by omega) (by omega)
      have := hlow (by omega)
      omega
    obtain ⟨u, hstep, hframe, hsamples⟩ := rawStep_spec (!x) h hlow hhigh
    have hstep : recStep (!x) s = .ok u := (recStep_raw (!x) hraw).trans hstep
    have hkept := tapeKept_recStep hstep
    have hgoes : u.ended = false := by rw [hframe]; exact decide_eq_false (by omega)
    have hpos : u.pos = s.pos + c := by rw [hframe]; exact Nat.min_eq_right (by omega)
    have hwindow : u.w = s.w - (s.t : Int) + (c : Int) * (hostRate s : Int) := by
      rw [hframe]
      dsimp only
      rw [Nat.min_eq_left (by omega)]
    have hrest : u.w - (xs.length : Int) * (u.t : Int) + ((m - c : Nat) : Int) * (hostRate u : Int) =
        s.w - ((x :: xs).length : Int) * (s.t : Int) + (m : Int) * (hostRate s : Int) := by
      rw [hwindow, datapathOnly_t hkept.frame, datapathOnly_hostRate hkept.frame, hlen, Nat.cast_sub hcm]
      ring
    have htotal := datapathOnly_totalBits hkept.frame
    obtain ⟨t, hrun, he, hpos_t, hother⟩ := ih (m := m - c) (openSession_kept h hkept hgoes)
      (by rw [hkept.frame]; exact hraw) (by rw [datapathOnly_hostRate hkept.frame]; exact hrate)
      (by rw [hwindow]; exact hhigh) (by rw [hrest]; exact hlo)
      (by rw [hrest, datapathOnly_hostRate hkept.frame]; exact hhi) (by omega)
    refine ⟨t, by rw [recordBits, hstep, ok_bind]; exact hrun, he, by omega, fun i hi => ?_⟩
    rw [hother i (by omega), hsamples, if_neg (by omega)]

/-- R223: the windows whose last host bit is among the first N are those that bring w from h div 2 into its range after N host
bits. -/
theorem windows_of_bits {t h N m : Nat} (ht : 0 < t) (hh : 0 < h) (hm : ∀ k, k < m ↔ (h / 2 + k * h) / t + 1 ≤ N) :
    0 ≤ ((h / 2 : Nat) : Int) - (N : Int) * (t : Int) + (m : Int) * (h : Int) ∧
      ((h / 2 : Nat) : Int) - (N : Int) * (t : Int) + (m : Int) * (h : Int) < (h : Int) := by
  have hlo : N * t ≤ h / 2 + m * h := by
    have hnot : ¬ (h / 2 + m * h) / t + 1 ≤ N := fun hle => lt_irrefl m ((hm m).2 hle)
    exact (Nat.le_div_iff_mul_le ht).1 (by omega)
  have hhi : h / 2 + m * h < N * t + h := by
    cases m with
    | zero => omega
    | succ k =>
      have hlast := (hm k).1 k.lt_succ_self
      have hlt := (Nat.div_lt_iff_lt_mul ht).1 (Nat.lt_of_succ_le hlast)
      rw [Nat.succ_mul]
      omega
  rw [← Nat.cast_mul, ← Nat.cast_mul]
  omega

theorem startWrite_raw {s : State} (hconv : s.recConv = false) (ht : 32000 ≤ s.t) : (startWrite s).recStrategy = .raw := by
  simp [startWrite, hconv, Nat.not_lt.2 ht]

/-- Settles O40: a tie by the rule, one host bit by the loop of R225, and R223 by counting the windows of the bits. -/
theorem tieFollowsTheTieRule : Obligations.TieFollowsTheTieRule := by
  refine ⟨⟨rfl, fun s hvote => ⟨rawCommit_tie_repeatLast hvote,
      fun htie => ⟨fun hp => ?atEnd, fun hm ht hl hp => ?keepTape⟩,
      fun u v fuel hw he hcommit => rawLoop_commit hw he hcommit⟩⟩, fun s v hopen => ?noWindow,
    fun s v c hm ht hl he hc hlow hhigh => ?oneBit, fun s xs m hwf hm ht hl hconv hrate hroom hcount => ?bits⟩
  case atEnd => exact (rawCommit_tie_keepTape hvote htie).trans (if_pos hp)
  case keepTape => rw [rawCommit_tie_keepTape hvote htie]; exact keepTapeTie_of_room hm ht hl hp
  case noWindow => exact (rawStep_eq v s).trans (rawLoop_done (hopen.imp_right Int.sub_nonneg.2))
  case oneBit =>
    obtain ⟨u, hstep, hframe, hsamples⟩ := rawStep_spec v ⟨hm, ht, hl, he⟩ (fun _ => hlow) hhigh
    rw [if_neg (Nat.ne_of_gt hc), if_neg (Nat.ne_of_gt hc)] at hframe
    have hpos : u.pos = min s.totalBits (s.pos + c) := by rw [hframe]
    refine ⟨u, hstep, hframe, fun hpolicy i => ?_⟩
    rw [hsamples, hpos]
    simp only [inhibited_eq_false hpolicy, true_and]
    rfl
  case bits =>
    have hpos := hostRate_pos hwf
    obtain ⟨hlo, hhi⟩ := windows_of_bits (by omega) hpos hcount
    exact recordBits_windows (openSession_startWrite hm ht hl) (startWrite_raw hconv hrate) hpos (Int.natCast_nonneg _)
      hlo hhi hroom

/-! ### RAW at equal rates (R227) -/

/-- The decimator between two host bits with t = h: the window is open, and nothing has voted in it. -/
structure RawAtEqualRates (s : State) : Prop extends WritingSession s where
  raw    : s.recStrategy = .raw
  rates  : s.t = hostRate s
  window : 0 ≤ s.w ∧ s.w < (hostRate s : Int)
  tied   : s.vote = 0

theorem rawAtEqualRates_startWrite {s : State} (hopen : WritingSession (startWrite s)) (hrates : s.t = hostRate s)
    (hconv : s.recConv = false) (ht : 32000 ≤ s.t) : RawAtEqualRates (startWrite s) where
  toWritingSession := hopen
  raw := startWrite_raw hconv ht
  rates := hrates
  window := by
    change 0 ≤ ((hostRate s / 2 : Nat) : Int) ∧ ((hostRate s / 2 : Nat) : Int) < (hostRate s : Int)
    omega
  tied := rfl

/-- With one vote the majority is that vote (R224). -/
theorem windowBit_afterVote {s : State} (v : Bit) (h : s.vote = 0) :
    (afterVote v s).vote ≠ 0 ∧ windowBit (afterVote v s) = v := by
  cases v <;> simp [windowBit, afterVote, h]

/-- With t = h each host bit closes one window, which commits the bit (R227). -/
theorem rawAtEqualRates_bit (v : Bit) (s : State) (h : RawAtEqualRates s) (hroom : s.pos + [v].length ≤ s.totalBits) :
    ∃ t, recordBits ([v].map not) s = .ok t ∧ Written [v] s t ∧ RawAtEqualRates t := by
  obtain ⟨hopen, hraw, hrates, ⟨hnonneg, hbelow⟩, htied⟩ := h
  rw [List.length_singleton] at hroom
  obtain ⟨u, hstep, hframe, hsamples⟩ := rawStep_spec (c := 1) v hopen.toOpenSession (fun _ => by simp; omega)
    (by simp; omega)
  obtain ⟨hvote, hbit⟩ := windowBit_afterVote v htied
  have hstep : recStep v s = .ok u := (recStep_raw v hraw).trans hstep
  have hkept := tapeKept_recStep hstep
  have hgoes : u.ended = false := by rw [hframe]; exact decide_eq_false (by omega)
  have hpos : u.pos = s.pos + 1 := by rw [hframe]; exact Nat.min_eq_right hroom
  have hw : u.w = s.w := by
    rw [hframe]
    dsimp only
    rw [Nat.min_eq_left (by omega), hrates]
    push_cast
    ring
  have hvote_u : u.vote = 0 := by rw [hframe]; rfl
  rw [hbit, hopen.writable, Nat.min_eq_right hroom] at hsamples
  refine ⟨u, (recordBits_map_cons hstep []).trans rfl, ⟨hpos, fun i hi => ?_, fun i hi => ?_⟩, ?_⟩
  · obtain rfl : i = 0 := by simpa using hi
    rw [hsamples, if_pos ⟨rfl, by omega, by omega, .inr ⟨hvote, rfl⟩⟩]
    rfl
  · rw [List.length_singleton] at hi
    rw [hsamples, if_neg (by omega)]
  · have hrate := datapathOnly_hostRate hkept.frame
    exact ⟨writingSession_kept hopen hkept hgoes, by rw [hkept.frame]; exact hraw,
      by rw [datapathOnly_t hkept.frame, hrate]; exact hrates, by rw [hw, hrate]; exact ⟨hnonneg, hbelow⟩, hvote_u⟩

/-- Settles O38: bit by bit, the decimator is between two host bits again. -/
theorem rawAtEqualRatesInverts : Obligations.RawAtEqualRatesInverts := by
  intro s xs _ hm ht hl hpolicy hrates hconv hrate hroom
  have hready := rawAtEqualRates_startWrite (writingSession_startWrite hm ht hl hpolicy) hrates hconv hrate
  have hblocks : (xs.map not).flatMap (fun v => [v]) = xs.map not := List.flatMap_singleton' _
  have hbits : (xs.map not).map not = xs := by simp [Function.comp_def]
  have hrun := recordBits_blocks (block := fun v => [v]) rawAtEqualRates_bit (xs.map not) hready
  rw [hblocks, hbits, List.length_map] at hrun
  obtain ⟨t, hrun, hwritten, hdone⟩ := hrun hroom
  obtain ⟨hpos, hsamples, hother⟩ := hwritten
  simp only [List.length_map, List.getElem?_map] at hpos hsamples hother
  exact ⟨t, hrun, hdone.going, hpos, hsamples, hother⟩

end Sys2Proof.Proofs
end

section
/-! SUPPORT. The statements of the family 43_record.md, last part: REC, the turns of the RECORD worker and of the record writer,
and the session with no chunk (R210 to R212, R220, R228 to R233). -/

namespace Sys2Proof.Proofs

open Sys2Proof.Machine Sys2Proof.Laws

/-! ### REC with no worker (R210, R283, R297) -/

/-- What REC leaves when it enters a session: `start_write`, the spawn of the worker, and the sensor update (R283). -/
def recordStarted (s : State) : State :=
  publishSensor (spawnWorker .record
    { startWrite { s with mode := .record, running := true, recEntered := false } with recEntered := true })

/-- REC with a tape, no worker and no session entered is neither ignored, joined nor refused. -/
theorem exec_record_starts {s : State} (hl : s.loaded = true) (hg : gated s = false) (hm : s.mode ≠ .record)
    (hw : s.workerAlive = false) (hentered : s.recEntered = false)
    (hpolicy : (s.protect = false ∧ s.readOnly = false) ∨ s.params.recProtectPolicy ≠ .refuse) :
    exec .record s = .next (recordStarted s) := by
  have hallowed : ¬ (tapeProtected s = true ∧ s.params.recProtectPolicy = .refuse) := by
    rintro ⟨hp, hr⟩
    simp [hr] at hpolicy
    simp [tapeProtected, hpolicy] at hp
  rw [show exec .record s = startMode .record s from rfl, startMode_of_no_worker hl hg hm hw]
  simp only [finishStart, withTape, hl, if_true, true_and, if_neg hallowed, startOperation, enterRecord, hentered,
    Bool.false_and, Bool.false_eq_true, if_false, recordStarted]

theorem recordStarted_eq (s : State) :
    recordStarted s = { startWrite s with
      mode := .record
      running := true
      recEntered := true
      runFlag := true
      workerMode := .record
      workerAlive := true
      workerAt := .top
      rspQ := (recordStarted s).rspQ } := rfl

theorem recordStarted_rspQ {s : State} (hg : gated s = false) :
    (recordStarted s).rspQ = s.rspQ ++ [sensorFrame { s with running := true }] := by
  rw [recordStarted, publishSensor, send_open_rspQ _ _ _ (by exact hg)]
  rfl

/-- Settles O16: `start_write` and the spawn write the registers named. -/
theorem recordStarts : Obligations.RecordStarts := by
  intro s hl he hd hm hw hentered hpolicy
  have hg : gated s = false := by simp [gated, he, hd]
  rw [exec_record_starts hl hg hm hw hentered hpolicy, ← recordStarted_rspQ hg, recordStarted, publishSensor, send_eq]
  simp [spawnWorker, startWrite, hostRate]

/-! ### The RECORD worker (R229, R230, R304) -/

theorem agentStep_worker_turn {s : State} (hl : s.loaded = true) (h : workerHolds s = false) :
    agentStep .worker s = andThen (workerTurn s) .next := by
  simp only [agentStep, workerStep, h, Bool.false_eq_true, if_false, withTape, hl, if_true]

theorem iterateRec_cancelled {s : State} (hf : s.runFlag = false) : iterateRec s = workerExit false s := if_pos hf

theorem iterateRec_of_writer_gone {s : State} (hf : s.runFlag = true) (hw : s.writerAlive = false) :
    iterateRec s = workerExit true s := by
  rw [iterateRec, if_neg (by simp [hf]), if_pos hw]

theorem iterateRec_accepts {s : State} {chunk : List Byte} (hf : s.runFlag = true) (hw : s.writerAlive = true)
    (hc : canAccept s = true) (ho : s.offer = some chunk) :
    iterateRec s = { s with slotData := chunk, slotFull := true, offer := none, workerAt := .top } := by
  rw [iterateRec, if_neg (by simp [hf]), if_neg (by simp [hw]), if_pos hc, acceptChunk, ho]

theorem iterateRec_waits {s : State} (hf : s.runFlag = true) (hw : s.writerAlive = true) (hc : canAccept s = false) :
    iterateRec s = { s with workerAt := .offerHold } := by
  rw [iterateRec, if_neg (by simp [hf]), if_neg (by simp [hw]), if_neg (by simp [hc])]

theorem canAccept_eq_true {s : State} {chunk : List Byte} (hslot : s.slotFull = false) (he : s.devError = false)
    (hd : s.disconnected = false) (ho : s.offer = some chunk) : canAccept s = true := by
  simp [canAccept, gated, hslot, he, hd, ho]

theorem canAccept_eq_false {s : State}
    (h : s.slotFull = true ∨ s.offer = none ∨ s.devError = true ∨ s.disconnected = true) : canAccept s = false := by
  obtain h | h | h | h := h <;> simp [canAccept, gated, h]

/-- A cancelled worker leaves at the top of its loop or in its hold (R304). -/
theorem agentStep_worker_cancelled {s : State} (hl : s.loaded = true) (ha : s.workerAlive = true)
    (hat : s.workerAt = .top ∨ s.workerAt = .offerHold) (hf : s.runFlag = false) :
    agentStep .worker s = .next (workerExit false s) := by
  obtain hat | hat := hat
  · rw [agentStep_worker_turn hl (by simp [workerHolds, ha, hat])]
    simp [workerTurn, hat, workerLoop, hf]
  · rw [agentStep_worker_turn hl (by simp [workerHolds, ha, hat, hf])]
    simp [workerTurn, hat, iterateRec_cancelled hf]

/-- An iteration of a RECORD worker that is not cancelled, from the top of its loop after the UPDATE draw or from its hold, where
it has something to do (R229, R302). -/
theorem agentStep_worker_iterateRec {s u : State} (hl : s.loaded = true) (ha : s.workerAlive = true)
    (hm : s.workerMode = .record) (hat : (s.workerAt = .top ∧ u = drawUpdate s) ∨ (s.workerAt = .offerHold ∧ u = s))
    (hf : s.runFlag = true) (hgo : s.workerAt = .offerHold → s.writerAlive = false ∨ canAccept s = true) :
    agentStep .worker s = .next (iterateRec u) := by
  obtain ⟨hat, rfl⟩ | ⟨hat, rfl⟩ := hat
  · rw [show agentStep .worker s = workerStep s from rfl, workerStep_top hl ha hat hf]
    simp [iterate, drawUpdate, hm]
  · rw [agentStep_worker_turn hl (by obtain h | h := hgo hat <;> simp [workerHolds, ha, hat, h])]
    simp [workerTurn, hat]

/-- Settles O20: the branches of the iteration, each from the top of the loop and from the hold. -/
theorem recordWorkerIteration : Obligations.RecordWorkerIteration := by
  intro s u hl ha hm hat
  have iterates := agentStep_worker_iterateRec hl ha hm hat
  have hsame : u.runFlag = s.runFlag ∧ u.writerAlive = s.writerAlive ∧ canAccept u = canAccept s ∧ u.offer = s.offer := by
    obtain ⟨-, rfl⟩ | ⟨-, rfl⟩ := hat
    · exact ⟨rfl, rfl, rfl, rfl⟩
    · exact ⟨rfl, rfl, rfl, rfl⟩
  obtain ⟨hflag, hwriter, haccept, hoffer⟩ := hsame
  refine ⟨fun hf => ?cancelled, fun hf hw => ?ended, fun hf hw hslot he hd chunk ho => ?accepts,
    fun hf hw hfull => ?waits⟩
  case cancelled => exact agentStep_worker_cancelled hl ha (hat.imp And.left And.left) hf
  case ended => rw [iterates hf (fun _ => .inl hw), iterateRec_of_writer_gone (hflag.trans hf) (hwriter.trans hw)]
  case accepts =>
    have hc := canAccept_eq_true hslot he hd ho
    rw [iterates hf (fun _ => .inr hc),
      iterateRec_accepts (hflag.trans hf) (hwriter.trans hw) (haccept.trans hc) (hoffer.trans ho)]
  case waits =>
    have hc := canAccept_eq_false hfull
    obtain ⟨htop, -⟩ | ⟨hhold, rfl⟩ := hat
    · rw [iterates hf (fun h => by simp [htop] at h),
        iterateRec_waits (hflag.trans hf) (hwriter.trans hw) (haccept.trans hc)]
    · have hholds : workerHolds u = true := by simp [workerHolds, hhold, hf, hw, hc]
      have hstays : { u with workerAt := .offerHold } = u := by rw [← hhold]
      rw [hstays]
      simp only [agentStep, workerStep, hholds, if_true]

/-! ### The writer's exit (R232) -/

theorem writerExit_of_flush {s u : State} (h : flush s = .ok u) :
    writerExit s = .ok { u with sValid := false, writerAlive := false } := by
  rw [writerExit, h, ok_bind]

/-- `writer_exit` on an open tape: nothing is staged after it, no sample has changed, and the store holds them all. -/
theorem writerExit_spec {s : State} (hm : MemInv s) (ht : TapeInv s) (hl : s.loaded = true) :
    ∃ t, writerExit s = .ok t ∧ t = { s with img := t.img, dirty := false, sValid := false, writerAlive := false } ∧
      SameSamples s t ∧ (∀ i, i < s.totalBits → byteBit (Memory.get t.img (hdr s + i / 8)) (i % 8) = tapeSample t i) ∧
      (s.dirty = false → t.img = s.img) := by
  obtain ⟨u, hflush, hframe, -, -, hsame, hstored⟩ := flush_spec hm ht hl
  refine ⟨_, writerExit_of_flush hflush, ?_, hsame, hstored, fun hclean => ?_⟩
  · dsimp only
    generalize u.img = a at hframe
    rw [hframe]
  · obtain rfl := ok_inj.1 ((flush_clean_eq hclean).symm.trans hflush)
    rfl

/-- Settles O43: the exit flushes, and the flush changes no sample. -/
theorem writerExitFlushes : Obligations.WriterExitFlushes := by
  intro s hm ht hl
  obtain ⟨t, hexit, hframe, hsame, hstored, -⟩ := writerExit_spec hm ht hl
  exact ⟨t, hexit, hframe, fun i hi => (hstored i hi).trans (hsame i)⟩

/-! ### The writer's turn (R84, R95, R131, R211, R212) -/

theorem agentStep_writer_turn {s : State} (hl : s.loaded = true) (h : writerHolds s = false) :
    agentStep .writer s = andThen (writerTurn s) .next := by
  simp only [agentStep, writerStep, h, Bool.false_eq_true, if_false, withTape, hl, if_true]

theorem agentStep_writer_holds {s : State} (h : writerHolds s = true) : agentStep .writer s = .next s := by
  simp only [agentStep, writerStep, h, if_true]

/-- R84: host bit `j` of a chunk that has it. -/
theorem chunkBit_of_lt {chunk : List Byte} {j : Nat} (h : j < 8 * chunk.length) :
    chunkBit chunk j = some ((chunk.getD (j / 8) 0).getLsbD (7 - j % 8)) := by
  have hbyte : j / 8 < chunk.length := by omega
  rw [chunkBit, List.getElem?_eq_getElem hbyte, List.getD_eq_getElem _ _ hbyte]
  rfl

/-- R131, R211: the turn on a host bit of the scratch chunk. -/
theorem agentStep_writer_bit {s : State} (hw : s.writerAlive = true) (hl : s.loaded = true) (hr : scratchReady s = true)
    {b : Bit} (hb : chunkBit s.scr s.spos = some b) :
    agentStep .writer s = andThen (writerBit (!b) { s with spos := s.spos + 1 }) .next := by
  rw [agentStep_writer_turn hl (by simp [writerHolds, hw, hr]), writerTurn, if_pos hr, scratchTake, hb, ok_bind]

theorem writerBit_error {v : Bit} {s : State} {e : Fault} (h : recStep v s = .error e) : writerBit v s = .error e := by
  rw [writerBit, h]
  rfl

theorem writerBit_goes_on {v : Bit} {s u : State} (h : recStep v s = .ok u) (he : u.ended = false) :
    writerBit v s = .ok u := by
  rw [writerBit, h, ok_bind, if_neg (by simp [he])]

theorem writerBit_ends {v : Bit} {s u x : State} (h : recStep v s = .ok u) (he : u.ended = true) (hx : flush u = .ok x) :
    writerBit v s = .ok { x with sValid := false, writerAlive := false } := by
  rw [writerBit, h, ok_bind, if_pos he, writerExit_of_flush hx]

theorem scratchReady_eq_false {s : State} (h : s.sValid = false ∨ 8 * s.params.chunkBytes ≤ s.spos) :
    scratchReady s = false := by
  obtain h | h := h
  · simp [scratchReady, h]
  · simp [scratchReady, Nat.not_lt.2 h]

/-- R212: a chunk in the slot is taken, also in a cancelled session. -/
theorem agentStep_writer_takes_chunk {s : State} (hw : s.writerAlive = true) (hl : s.loaded = true)
    (hr : scratchReady s = false) (hslot : s.slotFull = true) :
    agentStep .writer s = .next { s with scr := s.slotData, spos := 0, sValid := true, slotFull := false } := by
  rw [agentStep_writer_turn hl (by simp [writerHolds, hw, hslot]), writerTurn, if_neg (by simp [hr]), if_pos hslot]
  rfl

/-- R212: with no chunk and no cancellation the writer gives the scratch chunk up and holds. -/
theorem agentStep_writer_waits {s : State} (hw : s.writerAlive = true) (hl : s.loaded = true)
    (hr : scratchReady s = false) (hslot : s.slotFull = false) (hf : s.runFlag = true) :
    agentStep .writer s = .next { s with sValid := false } := by
  cases hv : s.sValid with
  | false =>
    rw [agentStep_writer_holds (by simp [writerHolds, hr, hv, hslot, hf]), ← hv]
  | true =>
    rw [agentStep_writer_turn hl (by simp [writerHolds, hw, hv]), writerTurn, if_neg (by simp [hr]),
      if_neg (by simp [hslot]), if_pos hf, andThen_ok]

/-- R212: with no chunk a cancelled writer ends the session. -/
theorem agentStep_writer_cancelled {s : State} (hw : s.writerAlive = true) (hl : s.loaded = true)
    (hr : scratchReady s = false) (hslot : s.slotFull = false) (hf : s.runFlag = false) :
    agentStep .writer s = andThen (cancelEnd { s with sValid := false } >>= writerExit) .next := by
  rw [agentStep_writer_turn hl (by simp [writerHolds, hw, hf]), writerTurn, if_neg (by simp [hr]), if_neg (by simp [hslot]),
    if_neg (by simp [hf])]

/-- R220, R228, R232: the cancelled end and the exit after it. -/
theorem cancelEnd_writerExit_spec {s : State} (h : OpenSession s) :
    let padded := if s.recStrategy = .edge then rescale (pendingScan s) s else 0
    ∃ u, (cancelEnd s >>= writerExit) = .ok u ∧
      u = { s with
        img := u.img, cacheIdx := u.cacheIdx, cacheByte := u.cacheByte
        pos := min s.totalBits (s.pos + padded)
        dirty := false
        ended := true
        sValid := false
        writerAlive := false } ∧
      (∀ i, tapeSample u i = if inhibited s = false ∧ s.pos ≤ i ∧ i < u.pos then false else tapeSample s i) ∧
      ∀ i, i < s.totalBits → byteBit (Memory.get u.img (hdr s + i / 8)) (i % 8) = tapeSample u i := by
  intro padded
  obtain ⟨x, hend, hmx, htx, hframe_x, hsamples⟩ := cancelEnd_spec h.mem h.tape h.loaded h.going
  obtain ⟨u, hexit, hframe, hsame, hstored, -⟩ := writerExit_spec hmx htx (by rw [hframe_x]; exact h.loaded)
  have hpos : u.pos = min s.totalBits (s.pos + padded) := by rw [hframe, hframe_x]
  have htotal : x.totalBits = s.totalBits := by rw [hframe_x]
  have hheader : hdr x = hdr s := by rw [hframe_x]; rfl
  rw [htotal, hheader] at hstored
  refine ⟨u, by rw [hend, ok_bind, hexit], ?_, fun i => ?_, hstored⟩
  · have hcache : u.cacheIdx = x.cacheIdx ∧ u.cacheByte = x.cacheByte := by rw [hframe]; exact ⟨rfl, rfl⟩
    rw [hcache.1, hcache.2]
    generalize u.img = a at hframe
    generalize x.img = b, x.cacheIdx = c, x.cacheByte = d, x.dirty = e at hframe_x ⊢
    rw [hframe, hframe_x]
  · rw [hsame, hsamples, hpos]

/-- R220: the host bits since the last sample point. -/
theorem pendingScan_eq (s : State) : pendingScan s = if s.phase = .scan then s.n else s.k + 1 := by
  unfold pendingScan
  cases s.phase <;> rfl

/-- Settles O41: the branches of the writer's turn, with the host bit's total answer and the cancelled end. -/
theorem bufferedChunkGoesBeforeCancellation : Obligations.BufferedChunkGoesBeforeCancellation := by
  refine ⟨fun s hw hl hv hpos hlen => ?bit, fun s hw hl hnone => ⟨?chunk, ?waits, fun hslot hf hm ht he => ?cancelled⟩⟩
  case bit =>
    have hturn := agentStep_writer_bit hw hl (by simp [scratchReady, hv, hpos]) (chunkBit_of_lt (by rw [hlen]; exact hpos))
    refine ⟨fun e hstep => ?_, fun u hstep he => ?_, fun u x hstep he hx => ?_, fun hwf hm ht he => ?_⟩
    · rw [hturn, writerBit_error hstep]
      rfl
    · rw [hturn, writerBit_goes_on hstep he, andThen_ok]
    · rw [hturn, writerBit_ends hstep he hx, andThen_ok]
    · have hm' : MemInv { s with spos := s.spos + 1 } := memInv_congr hm
      have ht' : TapeInv { s with spos := s.spos + 1 } := tapeInv_congr ht
      obtain ⟨u, hstep⟩ := recStep_total (s := { s with spos := s.spos + 1 }) _ hwf hm' ht' hl he
      have hkept := tapeKept_recStep hstep
      obtain ⟨x, hx, -⟩ := flush_spec (hkept.mem hm') (hkept.tape hm' ht' hl)
        ((datapathOnly_loaded hkept.frame).trans hl)
      exact ⟨u, x, hstep, hkept.frame, hx⟩
  case chunk => exact agentStep_writer_takes_chunk hw hl (scratchReady_eq_false hnone)
  case waits => exact agentStep_writer_waits hw hl (scratchReady_eq_false hnone)
  case cancelled =>
    have hinhibited : inhibited { s with sValid := false } = inhibited s := rfl
    obtain ⟨u, hend, hframe, hsamples, hstored⟩ := cancelEnd_writerExit_spec (s := { s with sValid := false })
      ⟨memInv_congr hm, tapeInv_congr ht, hl, he⟩
    refine ⟨u, ?_, ?_, fun hpolicy i => ?_, fun hprotected hpolicy i => ?_, hstored⟩
    · rw [agentStep_writer_cancelled hw hl (scratchReady_eq_false hnone) hslot hf, hend, andThen_ok]
    · rw [pendingScan_eq] at hframe
      exact hframe
    · rw [hsamples, hinhibited, inhibited_eq_false hpolicy]
      simp only [true_and]
      rfl
    · rw [hsamples, hinhibited, inhibited_eq_true hprotected hpolicy, if_neg (by simp)]
      rfl

/-! ### A session with no chunk (R233) -/

theorem runTurns_cons {a : Agent} {as : List Agent} {s t : State} (h : agentStep a s = .next t) :
    runTurns (a :: as) s = runTurns as t := by
  simp only [runTurns, h]

/-- R220, R228: with no host bit pending the cancelled end writes nothing. -/
theorem cancelEnd_of_none_pending {s : State} (h : pendingScan s = 0) : cancelEnd s = .ok { s with ended := true } := by
  cases hs : s.recStrategy with
  | raw => simp only [cancelEnd, hs]
  | edge =>
    have hnone : rescale 0 s = 0 := by rw [rescale, Nat.zero_mul, Nat.zero_div]
    simp only [cancelEnd, hs, h, hnone, pad, tapeRun, ok_bind]

/-- A RECORD session that has had no chunk and is cancelled, with its worker before its exit. -/
structure EmptyCancelled (s : State) : Prop where
  mem     : MemInv s
  tape    : TapeInv s
  loaded  : s.loaded = true
  writer  : s.writerAlive = true
  worker  : s.workerAlive = true ∧ s.workerMode = .record
  noChunk : s.sValid = false ∧ s.slotFull = false
  pending : pendingScan s = 0
  cancel  : s.runFlag = false

/-- The writer's turn ends the empty session: it writes no sample, and with nothing staged the store stays as it is. -/
theorem agentStep_writer_ends_empty {s : State} (h : EmptyCancelled s) :
    ∃ t, agentStep .writer s = .next t ∧
      t = { s with img := t.img, dirty := false, ended := true, sValid := false, writerAlive := false } ∧
      SameSamples s t ∧ (s.dirty = false → t.img = s.img) := by
  obtain ⟨hv, hslot⟩ := h.noChunk
  obtain ⟨t, hexit, hframe, hsame, -, hclean⟩ := writerExit_spec (s := { s with sValid := false, ended := true })
    (memInv_congr h.mem) (tapeInv_congr h.tape) h.loaded
  refine ⟨t, ?_, hframe, hsame, hclean⟩
  rw [agentStep_writer_cancelled h.writer h.loaded (scratchReady_eq_false (.inl hv)) hslot h.cancel,
    cancelEnd_of_none_pending (s := { s with sValid := false }) h.pending, ok_bind, hexit, andThen_ok]

theorem workerExit_of_writer {s : State} (self : Bool) (hm : s.workerMode = .record) (hw : s.writerAlive = true) :
    workerExit self s = { s with runFlag := false, workerAt := .exitHold self } := by
  rw [workerExit, if_pos hm, if_pos hw]

theorem workerExit_of_no_writer {s : State} (self : Bool) (hm : s.workerMode = .record) (hw : s.writerAlive = false) :
    workerExit self s = finishExit self { s with runFlag := false } := by
  rw [workerExit, if_pos hm, if_neg (by simp [hw])]

/-- The worker that holds for its writer ends when the writer is gone (R305). -/
theorem agentStep_worker_leaves_hold {s : State} {self : Bool} (hl : s.loaded = true) (ha : s.workerAlive = true)
    (hat : s.workerAt = .exitHold self) (hw : s.writerAlive = false) :
    agentStep .worker s = .next (finishExit self s) := by
  rw [agentStep_worker_turn hl (by simp [workerHolds, ha, hat, hw])]
  simp only [workerTurn, hat, andThen_ok]

/-- The samples depend on the store, the header and the cached byte alone. -/
theorem sameSamples_congr {s t : State} (hi : t.img = s.img := by rfl) (hv : t.variant = s.variant := by rfl)
    (hc : t.cacheIdx = s.cacheIdx := by rfl) (hb : t.cacheByte = s.cacheByte := by rfl) : SameSamples s t := by
  intro i
  simp only [tapeSample, hdr, hi, hv, hc, hb]

/-- What a cancelled worker that is gone and the dispatcher's STOP after it leave (R291, R305). -/
def stoppedAfter (s : State) : State := finishStop { finishExit false s with dispatcherAt := .idle }

theorem stoppedAfter_eq (s : State) :
    stoppedAfter s = { s with
      outValid := false
      running := false
      mode := .stop
      recEntered := false
      workerAlive := false
      workerAt := .top
      dispatcherAt := .idle
      rspQ := (stoppedAfter s).rspQ } := rfl

/-- R308: the exit sends the sensor update and then the stop acknowledgement. -/
theorem stoppedAfter_rspQ {s : State} (hg : gated s = false) :
    (stoppedAfter s).rspQ = s.rspQ ++ [sensorFrame { s with running := false }, ackFrame s] := by
  change (finishExit false s).rspQ = _
  rw [finishExit, stopAck, send_open_rspQ _ _ _ (by exact hg), publishSensor, send_open_rspQ _ _ _ (by exact hg),
    List.append_assoc]
  rfl

/-- From a cancelled empty session with the worker at the top of its loop, whichever of the worker and the writer moves first, the
session ends with no sample written, and then the worker and the join. -/
theorem runTurns_empty {s : State} {order : List Agent} (h : EmptyCancelled s) (hat : s.workerAt = .top)
    (hjoin : s.dispatcherAt = .joining .stop)
    (horder : order = [.writer, .worker, .dispatcher] ∨ order = [.worker, .writer, .worker, .dispatcher]) :
    ∃ u, runTurns order s = .next (stoppedAfter u) ∧
      u = { s with
        img := u.img, dirty := false, ended := true, sValid := false, writerAlive := false, workerAt := u.workerAt } ∧
      SameSamples s u ∧ (s.dirty = false → u.img = s.img) := by
  obtain ⟨ha, hm⟩ := h.worker
  have joined : ∀ u, u.dispatcherAt = .joining .stop →
      runTurns [.dispatcher] (finishExit false u) = .next (stoppedAfter u) := fun u hu =>
    runTurns_cons (agentStep_dispatcher_joined (s := finishExit false u) hu rfl)
  obtain rfl | rfl := horder
  · obtain ⟨u, hwriter, hframe, hsame, hclean⟩ := agentStep_writer_ends_empty h
    have hworker : agentStep .worker u = .next (finishExit false u) := by
      rw [agentStep_worker_cancelled (by rw [hframe]; exact h.loaded) (by rw [hframe]; exact ha)
        (.inl (by rw [hframe]; exact hat)) (by rw [hframe]; exact h.cancel),
        workerExit_of_no_writer false (by rw [hframe]; exact hm) (by rw [hframe])]
      have hflag : { u with runFlag := false } = u := by rw [hframe, ← h.cancel]
      rw [hflag]
    refine ⟨u, ?_, ?_, hsame, hclean⟩
    · rw [runTurns_cons hwriter, runTurns_cons hworker]
      exact joined u (by rw [hframe]; exact hjoin)
    · have hstays : u.workerAt = s.workerAt := by rw [hframe]
      rw [hstays]
      exact hframe
  · have hworker : agentStep .worker s = .next { s with workerAt := .exitHold false } := by
      rw [agentStep_worker_cancelled h.loaded ha (.inl hat) h.cancel, workerExit_of_writer false hm h.writer, ← h.cancel]
    obtain ⟨u, hwriter, hframe, hsame, hclean⟩ := agentStep_writer_ends_empty (s := { s with workerAt := .exitHold false })
      ⟨memInv_congr h.mem, tapeInv_congr h.tape, h.loaded, h.writer, h.worker, h.noChunk, h.pending, h.cancel⟩
    have hleaves : agentStep .worker u = .next (finishExit false u) :=
      agentStep_worker_leaves_hold (by rw [hframe]; exact h.loaded) (by rw [hframe]; exact ha) (by rw [hframe])
        (by rw [hframe])
    refine ⟨u, ?_, ?_, hsame, hclean⟩
    · rw [runTurns_cons hworker, runTurns_cons hwriter, runTurns_cons hleaves]
      exact joined u (by rw [hframe]; exact hjoin)
    · have hholds : u.workerAt = .exitHold false := by rw [hframe]
      rw [hholds]
      exact hframe

/-- STOP cancels a worker that is alive and holds for it (R282). -/
theorem exec_stop_cancels {s : State} (ha : s.workerAlive = true) :
    exec .stop s = .next { s with runFlag := false, dispatcherAt := .joining .stop } :=
  if_pos ha

/-- Settles O44: REC opens a session, STOP cancels it, and the turns that follow write nothing and acknowledge once. -/
theorem emptySessionWritesNothing : Obligations.EmptySessionWritesNothing := by
  intro s hm ht hc hl hmode _ he hd hpolicy
  have hg : gated s = false := by simp [gated, he, hd]
  have hworker : s.workerAlive = false := by
    by_contra ha
    obtain ⟨hrunning, hsame⟩ := hc.worker (by simpa using ha)
    rw [← hsame, hmode] at hrunning
    cases hrunning
  have hentered : s.recEntered = false := by
    by_contra hset
    have hrecord := hc.session (by simpa using hset)
    rw [hmode] at hrecord
    cases hrecord
  have hstart := exec_record_starts hl hg (by rw [hmode]; decide) hworker hentered hpolicy
  have hstarted := recordStarted_eq s
  have hsent := recordStarted_rspQ hg
  generalize recordStarted s = s1 at hstart hstarted hsent
  have ha : s1.workerAlive = true := by rw [hstarted]
  refine ⟨s1, _, hstart, exec_stop_cancels ha, fun order horder => ?_⟩
  obtain ⟨u, hrun, hframe, hsame, hclean⟩ := runTurns_empty
    (s := { s1 with runFlag := false, dispatcherAt := .joining .stop })
    (by rw [hstarted]; exact ⟨memInv_congr hm, tapeInv_congr ht, hl, rfl, ⟨rfl, rfl⟩, ⟨rfl, rfl⟩, rfl, rfl⟩)
    (by rw [hstarted]) rfl horder
  have hgated : gated u = false := by rw [hframe, hstarted]; exact hg
  have hframes : (stoppedAfter u).rspQ = s.rspQ ++ [sensorFrame { s with running := true },
      sensorFrame { s with running := false }, ackFrame s] := by
    have hkept : u.rspQ = s1.rspQ ∧ sensorFrame { u with running := false } = sensorFrame { s with running := false } ∧
        ackFrame u = ackFrame s := by
      rw [hframe, hstarted]
      exact ⟨rfl, rfl, rfl⟩
    obtain ⟨hqueue, hsensor, hack⟩ := hkept
    rw [stoppedAfter_rspQ hgated, hsensor, hack, hqueue, hsent, List.append_assoc]
    rfl
  have hopened : SameSamples s s1 := by rw [hstarted]; exact sameSamples_congr
  have himage : s.dirty = false → u.img = s.img := by rw [hstarted] at hclean; exact hclean
  have hstopped := stoppedAfter_eq u
  generalize stoppedAfter u = t at hrun hframes hstopped
  have hclosed : SameSamples u t := by rw [hstopped]; exact sameSamples_congr
  refine ⟨t, hrun, ?pos, sameSamples_trans hopened (sameSamples_trans hsame hclosed), ?image, by rw [hstopped],
    by rw [hstopped], by rw [hstopped], ?writer, by rw [hstopped], hframes⟩
  case pos => rw [hstopped, hframe, hstarted]; rfl
  case image => rw [hstopped]; exact himage
  case writer => rw [hstopped, hframe]

end Sys2Proof.Proofs
end

section
/-! SUPPORT. The statements of the family 44_seek_apss.md: FF, REW, AFF and AREW, the APSS detector, one tick of a wind and of a
search, and the iterations of the four workers. -/

namespace Sys2Proof.Proofs

open Sys2Proof.Machine Sys2Proof.Laws

/-! ### FF, REW, AFF and AREW with no worker (R254, R283, R293 to R296) -/

/-- The start of a mode other than RECORD: what its start operation leaves, with the worker spawned and the sensor update sent
(R283). -/
theorem startMode_publishes {m : Mode} {s s1 : State} (hl : s.loaded = true) (hg : gated s = false) (hm : s.mode ≠ m)
    (hw : s.workerAlive = false) (hrecord : m ≠ .record)
    (hstart : startOperation m { s with mode := m, running := true, recEntered := false } = some s1) :
    startMode m s = .next (publishSensor (spawnWorker m s1)) := by
  have hleaves : (s.recEntered && m == .record) = false := by simp [hrecord]
  rw [startMode_of_no_worker hl hg hm hw, finishStart, withTape, if_pos hl, if_neg (fun h => hrecord h.1), hleaves, hstart]

/-- A command that starts a mode is `start_mode` of it (R281, R283). -/
theorem exec_startTarget {i : Instr} {m : Mode} (h : startTarget i = some m) (s : State) : exec i s = startMode m s := by
  cases i <;> cases h <;> rfl

/-- Settles O14: FF and REW start from the state as it is, AFF and AREW from `start_apss`. -/
theorem windStarts : Obligations.WindStarts := by
  refine ⟨fun s i m hi hl he hd hm hw => ?wind, fun s i m hi hl he hd hm hw => ?search⟩
  case wind =>
    obtain ⟨htarget, hrecord, hstart⟩ :
        startTarget i = some m ∧ m ≠ .record ∧ ∀ u, startOperation m u = some u := by
      obtain ⟨rfl, rfl⟩ | ⟨rfl, rfl⟩ := hi
      · exact ⟨rfl, by decide, fun _ => rfl⟩
      · exact ⟨rfl, by decide, fun _ => rfl⟩
    rw [exec_startTarget htarget, startMode_publishes hl (by simp [gated, he, hd]) hm hw hrecord (hstart _),
      publishSensor_eq, if_neg (by simp [gated, spawnWorker, he, hd])]
    rfl
  case search =>
    obtain ⟨htarget, hrecord, hstart⟩ :
        startTarget i = some m ∧ m ≠ .record ∧ ∀ u, startOperation m u = some (startApss u) := by
      obtain ⟨rfl, rfl⟩ | ⟨rfl, rfl⟩ := hi
      · exact ⟨rfl, by decide, fun _ => rfl⟩
      · exact ⟨rfl, by decide, fun _ => rfl⟩
    rw [exec_startTarget htarget, startMode_publishes hl (by simp [gated, he, hd]) hm hw hrecord (hstart _),
      publishSensor_eq, if_neg (by simp [gated, spawnWorker, startApss, he, hd])]
    rfl

/-! ### The detector on one sample (R257) -/

/-- A sample of the ignored start is counted down. -/
theorem apssEval_ignored {s : State} (b : Bit) (h : 0 < s.ign) : apssEval b s = { s with ign := s.ign - 1 } :=
  if_pos h

/-- The first sample after the ignored ones seeds the majority. -/
theorem apssEval_seeds {s : State} (b : Bit) (hi : s.ign = 0) (hm : s.maj = none) :
    apssEval b s = { s with maj := some b } := by
  rw [apssEval, if_neg (by simp [hi])]
  simp only [hm]

/-- A later sample is compared with the majority. -/
theorem apssEval_compares {s : State} {a : Bit} (b : Bit) (hi : s.ign = 0) (hm : s.maj = some a) :
    apssEval b s = apssCompare a b s := by
  rw [apssEval, if_neg (by simp [hi])]
  simp only [hm]

/-- Before a flip an agreeing sample clears `mis`. -/
theorem apssEval_agrees {s : State} {a : Bit} (hi : s.ign = 0) (hm : s.maj = some a) (hs : s.seen = false) :
    apssEval a s = { s with mis := 0 } := by
  rw [apssEval_compares a hi hm, apssCompare, if_pos rfl, if_neg (by simp [hs])]

/-- After a flip an agreeing sample clears `mis` and counts one match. -/
theorem apssEval_matches {s : State} {a : Bit} (hi : s.ign = 0) (hm : s.maj = some a) (hs : s.seen = true) :
    apssEval a s = { s with mis := 0, mat := s.mat + 1, found := s.found || decide (apssWindow s.t < s.mat + 1) } := by
  rw [apssEval_compares a hi hm, apssCompare, if_pos rfl, if_pos hs]

/-- A disagreeing sample within the tolerance is noise. -/
theorem apssEval_noise {s : State} {a : Bit} (hi : s.ign = 0) (hm : s.maj = some a) (h : s.mis + 1 ≤ tolerance s) :
    apssEval (!a) s = { s with mis := s.mis + 1 } := by
  rw [apssEval_compares _ hi hm, apssCompare, if_neg (by simp), if_neg (Nat.not_lt.2 h)]

/-- The disagreeing sample that passes the tolerance flips the majority. -/
theorem apssEval_flips {s : State} {a : Bit} (hi : s.ign = 0) (hm : s.maj = some a) (h : tolerance s < s.mis + 1) :
    apssEval (!a) s = { s with maj := some (!a), seen := true, mat := 0, mis := 0 } := by
  rw [apssEval_compares _ hi hm, apssCompare, if_neg (by simp), if_pos h]

/-! ### The detector on a run of samples (R256, R260, R261) -/

theorem apssFold_append (xs ys : List Bit) (s : State) : apssFold (xs ++ ys) s = apssFold ys (apssFold xs s) :=
  List.foldl_append

theorem apssFold_append_one (xs : List Bit) (b : Bit) (s : State) : apssFold (xs ++ [b]) s = apssEval b (apssFold xs s) :=
  apssFold_append xs [b] s

/-- As many samples as are to be ignored, or fewer, are counted down whatever they are (R254). -/
theorem apssFold_ignored {xs : List Bit} {s : State} (h : xs.length ≤ s.ign) :
    apssFold xs s = { s with ign := s.ign - xs.length } := by
  induction xs generalizing s with
  | nil => rfl
  | cons x xs ih =>
    rw [List.length_cons] at h
    change apssFold xs (apssEval x s) = _
    rw [apssEval_ignored x (by omega), ih (s := { s with ign := s.ign - 1 }) (Nat.le_sub_of_add_le h), List.length_cons]
    simp only [Nat.sub_sub, Nat.add_comm 1]

/-- Before a flip a run of the majority leaves the detector as it is. -/
theorem apssFold_agrees {s : State} {a : Bit} (hi : s.ign = 0) (hm : s.maj = some a) (hs : s.seen = false) (hmis : s.mis = 0)
    (c : Nat) : apssFold (List.replicate c a) s = s := by
  induction c with
  | zero => rfl
  | succ c ih =>
    have hsame : apssEval a s = s := by rw [apssEval_agrees hi hm hs, ← hmis]
    change apssFold (List.replicate c a) (apssEval a s) = s
    rw [hsame, ih]

/-- A burst within the tolerance changes `mis` alone, before a flip and after it (R256). -/
theorem apssFold_noise {s : State} {a : Bit} (hi : s.ign = 0) (hm : s.maj = some a) {burst : Nat}
    (h : s.mis + burst ≤ tolerance s) : apssFold (List.replicate burst (!a)) s = { s with mis := s.mis + burst } := by
  induction burst with
  | zero => rfl
  | succ burst ih =>
    rw [List.replicate_succ', apssFold_append_one, ih (by omega)]
    exact apssEval_noise hi hm h

/-- After a flip a run of the new majority counts its samples, and finds the boundary once they are more than N35. -/
theorem apssFold_matches {s : State} {a : Bit} (hi : s.ign = 0) (hm : s.maj = some a) (hs : s.seen = true) (hmis : s.mis = 0)
    (hmat : s.mat ≤ apssWindow s.t) (k : Nat) :
    apssFold (List.replicate k a) s =
      { s with mat := s.mat + k, found := s.found || decide (apssWindow s.t < s.mat + k) } := by
  induction k with
  | zero =>
    have hnone : (s.found || decide (apssWindow s.t < s.mat + 0)) = s.found := by simp [hmat]
    rw [hnone]
    rfl
  | succ k ih =>
    rw [List.replicate_succ', apssFold_append_one, ih, apssEval_matches (by exact hi) (by exact hm) (by exact hs)]
    have hmore : (decide (apssWindow s.t < s.mat + k) || decide (apssWindow s.t < s.mat + (k + 1))) =
        decide (apssWindow s.t < s.mat + (k + 1)) := by
      rw [← Bool.decide_or]
      exact decide_eq_decide.2 (by omega)
    simp only [Bool.or_assoc, Nat.add_assoc, hmore, hmis]

/-- Settles O50: the law of each sample and of a burst, and the tolerance by its definition. -/
theorem apssToleratesNoise : Obligations.ApssToleratesNoise := by
  refine ⟨⟨rfl, rfl, rfl, fun r hr => ?lowRate,
      fun s a hi hm hs hmis => ⟨rfl, fun burst hb => ?burst, fun h0 => ?strict⟩⟩,
    fun s b => apssEval_ignored b, fun s b => apssEval_seeds b,
    fun s a hi hm =>
      ⟨fun burst => apssFold_noise hi hm, apssEval_flips hi hm, apssEval_agrees hi hm, apssEval_matches hi hm⟩⟩
  case lowRate => rw [apssTolerance, if_neg (by omega), if_neg (by omega)]
  case burst =>
    rw [apssFold_append_one, apssFold_noise hi hm (by omega),
      apssEval_agrees (by exact hi) (by exact hm) (by exact hs), ← hmis]
  case strict => exact apssEval_flips hi hm (by omega)

/-- R260: a run of `m` samples against the majority, with no noise before it, finds the boundary once it holds the samples that
flip the majority and then more than N35. -/
theorem apssFold_opposite_found {s : State} {a : Bit} (hi : s.ign = 0) (hm : s.maj = some a) (hmis : s.mis = 0)
    (hf : s.found = false) (m : Nat) :
    (apssFold (List.replicate m (!a)) s).found = decide (tolerance s + 1 + apssWindow s.t + 1 ≤ m) := by
  rcases Nat.lt_or_ge (tolerance s) m with hflip | hnoise
  · obtain ⟨k, rfl⟩ := Nat.exists_eq_add_of_le hflip
    have hflipped : apssFold (List.replicate (tolerance s + 1) (!a)) s =
        { s with maj := some (!a), seen := true, mat := 0, mis := 0 } := by
      rw [List.replicate_succ', apssFold_append_one, apssFold_noise hi hm (by omega)]
      exact apssEval_flips hi hm (Nat.lt_succ_of_le (Nat.le_add_left (tolerance s) s.mis))
    rw [List.replicate_add, apssFold_append, hflipped, apssFold_matches (by exact hi) rfl rfl rfl (Nat.zero_le _)]
    simp only [hf, Bool.false_or, Nat.zero_add]
    exact decide_eq_decide.2 (by omega)
  · rw [apssFold_noise hi hm (by omega)]
    exact hf.trans (decide_eq_false (by omega)).symm

/-- After the ignored samples and a run of `c` samples of value `a` the detector has seeded its majority, if `c` is not 0, and
nothing else (R254, R257). -/
theorem apssFold_startApss {s : State} {ignored : List Bit} (h : ignored.length = apssWindow s.t) (a : Bit) (c : Nat) :
    apssFold (ignored ++ List.replicate c a) (startApss s) =
      { startApss s with ign := 0, maj := if c = 0 then none else some a } := by
  rw [apssFold_append, apssFold_ignored (s := startApss s) h.le]
  have hdone : (startApss s).ign - ignored.length = 0 := by rw [h]; exact Nat.sub_self _
  rw [hdone]
  cases c with
  | zero => rfl
  | succ c =>
    change apssFold (List.replicate c a) (apssEval a _) = _
    rw [apssEval_seeds a rfl rfl]
    exact apssFold_agrees rfl rfl rfl rfl c

/-- Settles O49: the seeded detector finds the boundary at the sample of R260, and before the opposite run nothing is found. -/
theorem apssFindsTheBoundary : Obligations.ApssFindsTheBoundary := by
  intro s ignored a c0 m hlen hc
  have hearly : ∀ c, (apssFold (ignored ++ List.replicate c a) (startApss s)).found = false := fun c => by
    rw [apssFold_startApss hlen]; rfl
  refine ⟨?law, by simpa using hearly 0, hearly⟩
  case law =>
    rw [apssFold_append, apssFold_startApss hlen, if_neg (by omega), apssFold_opposite_found rfl rfl rfl rfl]
    exact decide_eq_true_iff

/-! ### A move along an open tape -/

/-- A tape is open with its cursor: what a wind needs to answer, whatever the parameters. -/
structure OpenTape (s : State) : Prop where
  mem    : MemInv s
  tape   : TapeInv s
  loaded : s.loaded = true

theorem openTape_kept {s t : State} (h : OpenTape s) (hk : TapeKept s t) : OpenTape t where
  mem := hk.mem h.mem
  tape := hk.tape h.mem h.tape h.loaded
  loaded := (datapathOnly_loaded hk.frame).trans h.loaded

theorem openTape_drawUpdate {s : State} (h : OpenTape s) : OpenTape (drawUpdate s) :=
  ⟨memInv_congr h.mem, tapeInv_congr h.tape, h.loaded⟩

/-- The samples between the cursor and the end of the tape it moves to. -/
def ahead (d : Dir) (s : State) : Nat :=
  match d with
  | .fwd => s.totalBits - s.pos
  | .bwd => s.pos

/-- The cursor has passed `m` samples of an open tape and changed none. -/
structure Wound (d : Dir) (m : Nat) (s t : State) : Prop where
  tape     : OpenTape t
  bits     : t.totalBits = s.totalBits
  forward  : d = .fwd → t.pos = s.pos + m
  backward : d = .bwd → t.pos + m = s.pos
  samples  : SameSamples s t

theorem wound_zero {d : Dir} {s : State} (h : OpenTape s) : Wound d 0 s s :=
  ⟨h, rfl, fun _ => rfl, fun _ => rfl, fun _ => rfl⟩

theorem wound_trans {d : Dir} {m n : Nat} {s t u : State} (h1 : Wound d m s t) (h2 : Wound d n t u) :
    Wound d (m + n) s u where
  tape := h2.tape
  bits := h2.bits.trans h1.bits
  forward hd := by have := h1.forward hd; have := h2.forward hd; omega
  backward hd := by have := h1.backward hd; have := h2.backward hd; omega
  samples := sameSamples_trans h1.samples h2.samples

theorem wound_ahead {d : Dir} {m : Nat} {s t : State} (h : Wound d m s t) : ahead d t + m = ahead d s := by
  cases d with
  | fwd =>
    have hle := h.tape.tape.posLe h.tape.loaded
    have hpos := h.forward rfl
    have hbits := h.bits
    simp only [ahead]
    omega
  | bwd => exact h.backward rfl

theorem stepDir_at_end {d : Dir} {s : State} (h : ahead d s = 0) : stepDir d s = .ok (.boundary, s) := by
  cases d with
  | fwd => exact stepForward_at_end (Nat.le_of_sub_eq_zero h)
  | bwd => exact stepBackward_at_start h

theorem stepDir_spec {d : Dir} {s : State} (h : OpenTape s) (hp : 0 < ahead d s) :
    ∃ t, stepDir d s = .ok (.ok, t) ∧ CursorOnly s t ∧ Wound d 1 s t := by
  cases d with
  | fwd =>
    obtain ⟨t, hstep, hpos, hm, ht, hframe, hsame⟩ := stepForward_spec h.mem h.tape h.loaded (Nat.lt_of_sub_pos hp)
    exact ⟨t, hstep, hframe, ⟨hm, ht, cursorOnly_loaded hframe ▸ h.loaded⟩, cursorOnly_totalBits hframe, fun _ => hpos,
      nofun, hsame⟩
  | bwd =>
    obtain ⟨t, hstep, hpos, hm, ht, hframe, hsame⟩ := stepBackward_spec h.mem h.tape h.loaded hp
    exact ⟨t, hstep, hframe, ⟨hm, ht, cursorOnly_loaded hframe ▸ h.loaded⟩, cursorOnly_totalBits hframe, nofun,
      fun _ => by rw [hpos]; exact Nat.sub_add_cancel hp, hsame⟩

/-! ### One tick of a wind (R250, R251) -/

/-- A wind passes the samples of its tick, or the ones that are left, and then it is BOUNDARY. -/
theorem seekLoop_spec {d : Dir} {s : State} (h : OpenTape s) (n : Nat) :
    ∃ t, seekLoop d n s = .ok (if ahead d s < n then .boundary else .ok, t) ∧ CursorOnly s t ∧
      Wound d (min n (ahead d s)) s t := by
  induction n generalizing s with
  | zero => exact ⟨s, rfl, cursorOnly_refl s, by rw [Nat.zero_min]; exact wound_zero h⟩
  | succ n ih =>
    rcases Nat.eq_zero_or_pos (ahead d s) with hend | hroom
    · refine ⟨s, ?_, cursorOnly_refl s, by rw [hend, Nat.min_zero]; exact wound_zero h⟩
      rw [seekLoop, stepDir_at_end hend, ok_bind, hend, if_pos (Nat.zero_lt_succ n)]
      rfl
    · obtain ⟨u, hstep, hframe, hwound⟩ := stepDir_spec h hroom
      obtain ⟨t, hloop, hframe', hwound'⟩ := ih hwound.tape
      have hahead := wound_ahead hwound
      have hpast : ahead d u < n ↔ ahead d s < n + 1 := by omega
      have hpassed : min (n + 1) (ahead d s) = 1 + min n (ahead d u) := by omega
      refine ⟨t, ?_, cursorOnly_trans hframe hframe', hpassed ▸ wound_trans hwound hwound'⟩
      rw [seekLoop, hstep, ok_bind]
      simp only [reduceCtorEq, if_false, hloop, hpast]

/-- Settles O46: the samples ahead of the cursor say where the tick ends. -/
theorem seekTickMovesAndClamps : Obligations.SeekTickMovesAndClamps := by
  intro s ms hm ht hl steps
  have hle := ht.posLe hl
  refine ⟨?forward, ?backward⟩
  case forward =>
    obtain ⟨t, htick, hframe, hwound⟩ := seekLoop_spec (d := .fwd) ⟨hm, ht, hl⟩ steps
    have hpos := hwound.forward rfl
    have hpast : ahead .fwd s < steps ↔ s.totalBits < s.pos + steps := by simp only [ahead]; omega
    simp only [hpast] at htick
    exact ⟨t, htick, by simp only [ahead] at hpos; omega, hframe, hwound.samples⟩
  case backward =>
    obtain ⟨t, htick, hframe, hwound⟩ := seekLoop_spec (d := .bwd) ⟨hm, ht, hl⟩ steps
    have hpos := hwound.backward rfl
    exact ⟨t, htick, by simp only [ahead] at hpos; omega, hframe, hwound.samples⟩

/-! ### One call of the search (R255) -/

/-- The sample that the cursor passes over next. -/
def nextSample (d : Dir) (s : State) : Bit :=
  match d with
  | .fwd => tapeSample s s.pos
  | .bwd => tapeSample s (s.pos - 1)

theorem passedSamples_one (d : Dir) (s : State) : passedSamples d 1 s = [nextSample d s] := by
  cases d with
  | fwd => rfl
  | bwd => rfl

theorem cursorOnly_found {s t : State} (h : CursorOnly s t) : t.found = s.found := by rw [h]

theorem apssResult_cursorOnly {s t : State} (h : CursorOnly s t) : apssResult t = apssResult s := by
  rw [apssResult, apssResult, cursorOnly_found h]

theorem apssBit_at_end {d : Dir} {s : State} (h : ahead d s = 0) : apssBit d s = .ok (.boundary, s) := by
  cases d with
  | fwd => exact if_pos (Nat.le_of_sub_eq_zero h)
  | bwd => exact if_pos h

/-- Evaluating a sample moves nothing. -/
theorem wound_apssEval {d : Dir} {s : State} (b : Bit) (h : OpenTape s) : Wound d 0 s (apssEval b s) := by
  have htape := openTape_kept h (tapeKept_apssEval b s)
  rw [apssEval_frame] at htape ⊢
  exact ⟨htape, rfl, fun _ => rfl, fun _ => rfl, fun _ => rfl⟩

/-- Before that end of the tape, a call evaluates the next sample and passes it. -/
theorem apssBit_spec {d : Dir} {s : State} (h : OpenTape s) (hp : 0 < ahead d s) :
    ∃ t, apssBit d s = .ok (apssResult (apssEval (nextSample d s) s), t) ∧ CursorOnly (apssEval (nextSample d s) s) t ∧
      Wound d 1 s t := by
  cases d with
  | fwd =>
    have hlt : s.pos < s.totalBits := Nat.lt_of_sub_pos hp
    have heval : Wound .fwd 0 s (apssEval (tapeSample s s.pos) s) := wound_apssEval _ h
    have hahead := wound_ahead heval
    obtain ⟨t, hstep, hframe, hwound⟩ := stepDir_spec (d := .fwd) heval.tape (by omega)
    refine ⟨t, ?_, hframe, wound_trans heval hwound⟩
    change stepForward _ = _ at hstep
    simp only [apssBit]
    rw [if_neg (Nat.not_le.2 hlt), readSample_spec h.tape h.loaded hlt, ok_bind, hstep, ok_bind,
      apssResult_cursorOnly hframe]
    rfl
  | bwd =>
    obtain ⟨t, hstep, hframe, hwound⟩ := stepDir_spec h hp
    have hpos : t.pos = s.pos - 1 := Nat.eq_sub_of_add_eq (hwound.backward rfl)
    have hlt : t.pos < t.totalBits := by
      have hle := h.tape.posLe h.loaded
      have hback := hwound.backward rfl
      rw [hwound.bits]
      omega
    have hread : readSample t = .ok (tapeSample s (s.pos - 1)) := by
      rw [readSample_spec hwound.tape.tape hwound.tape.loaded hlt, hwound.samples, hpos]
    have heval := apssEval_cursorOnly (tapeSample s (s.pos - 1)) hframe
    refine ⟨apssEval (tapeSample s (s.pos - 1)) t, ?_, heval, wound_trans hwound (wound_apssEval _ hwound.tape)⟩
    change stepBackward s = _ at hstep
    simp only [apssBit]
    rw [if_neg (show ¬ s.pos = 0 from Nat.ne_of_gt hp), hstep, ok_bind]
    simp only [hread, ok_bind, apssResult_cursorOnly heval]
    rfl

/-- Settles O48: each call is at that end of the tape, or evaluates the next sample. -/
theorem apssEvaluatesThePassedSample : Obligations.ApssEvaluatesThePassedSample := by
  intro s hm ht hl
  have hopen : OpenTape s := ⟨hm, ht, hl⟩
  refine ⟨fun hend => apssBit_at_end (Nat.sub_eq_zero_of_le hend.ge), fun hlt => ?forward, fun hend => apssBit_at_end hend,
    fun hlt => ?backward⟩
  case forward =>
    obtain ⟨t, hbit, hframe, hwound⟩ := apssBit_spec (d := .fwd) hopen (Nat.sub_pos_of_lt hlt)
    exact ⟨t, hbit, hwound.forward rfl, hframe, hwound.samples⟩
  case backward =>
    obtain ⟨t, hbit, hframe, hwound⟩ := apssBit_spec (d := .bwd) hopen hlt
    exact ⟨t, hbit, Nat.eq_sub_of_add_eq (hwound.backward rfl), hframe, hwound.samples⟩

/-! ### One tick of the search (R258) -/

/-- A search over at most `n` samples has evaluated `m` of them, in order, and ended with the result `r`. -/
structure Searched (d : Dir) (n : Nat) (s : State) (r : ApssResult) (m : Nat) (u : State) : Prop where
  le       : m ≤ n
  wound    : Wound d m s u
  frame    : CursorOnly (apssFold (passedSamples d m s) s) u
  whole    : r = .ok → m = n
  boundary : r = .boundary → m < n ∧ ahead d u = 0
  found    : r = .found → u.found = true ∧ 0 < m ∧
    (s.found = false → (apssFold (passedSamples d (m - 1) s) s).found = false)
  clear    : r ≠ .found → s.found = false → u.found = false

/-- The fold over the samples passed from `s` is the fold over all but the first of them from where the cursor stands after the
first. -/
theorem apssFold_passedSamples_succ {d : Dir} {s v : State} (hframe : CursorOnly (apssEval (nextSample d s) s) v)
    (hwound : Wound d 1 s v) (k : Nat) :
    CursorOnly (apssFold (passedSamples d (k + 1) s) s) (apssFold (passedSamples d k v) v) := by
  rw [passedSamples_succ hwound.forward hwound.backward hwound.samples, passedSamples_one, apssFold_append]
  exact apssFold_cursorOnly _ hframe

/-- A search whose first sample finds no boundary is the search from behind that sample. -/
theorem searched_succ {d : Dir} {n m : Nat} {s u v : State} {r : ApssResult}
    (hframe : CursorOnly (apssEval (nextSample d s) s) v) (hwound : Wound d 1 s v) (hclear : v.found = false)
    (h : Searched d n v r m u) : Searched d (n + 1) s r (m + 1) u where
  le := Nat.succ_le_succ h.le
  wound := Nat.add_comm 1 m ▸ wound_trans hwound h.wound
  frame := cursorOnly_trans (apssFold_passedSamples_succ hframe hwound m) h.frame
  whole hr := congrArg Nat.succ (h.whole hr)
  boundary hr := by
    obtain ⟨hlt, hend⟩ := h.boundary hr
    exact ⟨Nat.succ_lt_succ hlt, hend⟩
  found hr := by
    obtain ⟨hfound, hpos, hbefore⟩ := h.found hr
    refine ⟨hfound, Nat.succ_pos m, fun _ => ?_⟩
    have hfold := apssFold_passedSamples_succ hframe hwound (m - 1)
    rw [Nat.sub_add_cancel hpos] at hfold
    exact (cursorOnly_found hfold).symm.trans (hbefore hclear)
  clear hr _ := h.clear hr hclear

/-- A search on an open tape answers: after each sample it stops at `found`, and else it goes on (R258). -/
theorem apssLoop_spec {d : Dir} {s : State} (h : OpenTape s) (n : Nat) :
    ∃ r u m, apssLoop d n s = .ok (r, u) ∧ Searched d n s r m u := by
  induction n generalizing s with
  | zero => exact ⟨.ok, s, 0, rfl, le_rfl, wound_zero h, cursorOnly_refl s, fun _ => rfl, nofun, nofun, fun _ hf => hf⟩
  | succ n ih =>
    rcases Nat.eq_zero_or_pos (ahead d s) with hend | hroom
    · refine ⟨.boundary, s, 0, ?_, Nat.zero_le _, wound_zero h, cursorOnly_refl s, nofun,
        fun _ => ⟨Nat.succ_pos n, hend⟩, nofun, fun _ hf => hf⟩
      rw [apssLoop, apssBit_at_end hend, ok_bind]
      rfl
    · obtain ⟨v, hbit, hframe, hwound⟩ := apssBit_spec h hroom
      have hresult := cursorOnly_found hframe
      cases hfound : v.found with
      | true =>
        refine ⟨.found, v, 1, ?_, Nat.succ_pos n, hwound, by rw [passedSamples_one]; exact hframe, nofun, nofun,
          fun _ => ⟨hfound, Nat.one_pos, fun hf => hf⟩, fun hr => absurd rfl hr⟩
        rw [apssLoop, hbit, ok_bind]
        simp [apssResult, ← hresult, hfound]
      | false =>
        obtain ⟨r, u, m, hloop, hsearched⟩ := ih hwound.tape
        refine ⟨r, u, m + 1, ?_, searched_succ hframe hwound hfound hsearched⟩
        rw [apssLoop, hbit, ok_bind]
        simpa [apssResult, ← hresult, hfound] using hloop

/-! ### The iterations of the four workers (R252, R253, R259) -/

/-- R305, R308: the exit sends the sensor update and then the stop acknowledgement. -/
theorem finishExit_rspQ (self : Bool) (u : State) :
    (finishExit self u).rspQ = sentFrames u [sensorFrame { u with running := false }, ackFrame u] :=
  sentFrames_sentFrames u [sensorFrame { u with running := false }] [ackFrame u]

/-- The exit of a worker outside RECORD, whole (R305, R308). -/
theorem workerExit_eq {u : State} (self : Bool) (h : u.workerMode ≠ .record) :
    workerExit self u = { u with
      outValid := false
      running := false
      mode := if self then .stop else u.mode
      recEntered := if self then false else u.recEntered
      workerAlive := false
      workerAt := .top
      rspQ := sentFrames u [sensorFrame { u with running := false }, ackFrame u] } := by
  rw [workerExit, if_neg h, finishExit_eq, finishExit_rspQ]

/-- A worker that exits by itself after the datapath has moved: the mode is STOP where the cursor stands, and the frames are
those of the state before. -/
theorem workerExit_after_datapath {s u : State} (hmode : s.workerMode ≠ .record) (h : DatapathOnly (drawUpdate s) u) :
    (workerExit true u).mode = .stop ∧ (workerExit true u).running = false ∧ (workerExit true u).workerAlive = false ∧
      (workerExit true u).pos = u.pos ∧
      (workerExit true u).rspQ = sentFrames s [sensorFrame { s with running := false }, ackFrame s] := by
  have hmodeu : u.workerMode ≠ .record := by rw [h]; exact hmode
  rw [workerExit_eq true hmodeu]
  refine ⟨rfl, rfl, rfl, rfl, ?_⟩
  rw [h]
  rfl

/-- A worker is at the top of its loop, with a tape loaded, and not cancelled (R301). -/
structure AtLoopTop (s : State) : Prop where
  loaded : s.loaded = true
  alive  : s.workerAlive = true
  top    : s.workerAt = .top
  going  : s.runFlag = true

theorem agentStep_worker_iterates {s t : State} (hw : AtLoopTop s) (h : iterate (drawUpdate s) = .ok t) :
    agentStep .worker s = .next t := by
  rw [show agentStep .worker s = workerStep s from rfl, workerStep_top hw.loaded hw.alive hw.top hw.going, h, andThen_ok]

/-- A wind iteration goes on after its tick, or exits where the tick has stopped (R252, R253). -/
theorem agentStep_worker_wind {d : Dir} {s u : State} {past : Prop} [Decidable past] (hw : AtLoopTop s)
    (hrecord : s.workerMode ≠ .record)
    (hmode : iterate (drawUpdate s) = iterateSeek d (drawUpdate s))
    (htick : seekTick s.params.seekTickMs d (drawUpdate s) = .ok (if past then .boundary else .ok, u))
    (hframe : CursorOnly (drawUpdate s) u) (hsame : SameSamples s u) :
    ∃ t, agentStep .worker s = .next t ∧ SameSamples s t ∧ t.pos = u.pos ∧
      (¬ past → t.workerAlive = true ∧ t.mode = s.mode ∧ t.rspQ = s.rspQ) ∧
      (past → t.workerAlive = false ∧ t.mode = .stop ∧ t.running = false ∧
        t.rspQ = sentFrames s [sensorFrame { s with running := false }, ackFrame s]) := by
  have hstep : agentStep .worker s = .next (if past then workerExit true u else u) := by
    refine agentStep_worker_iterates hw ?_
    rw [hmode, iterateSeek, show (drawUpdate s).params = s.params from rfl, htick, ok_bind]
    by_cases hp : past <;> simp [hp]
  by_cases hp : past
  · rw [if_pos hp] at hstep
    obtain ⟨hstop, hrunning, halive, hpos, hframes⟩ := workerExit_after_datapath hrecord (cursorOnly_datapath hframe)
    have hexit : SameSamples u (workerExit true u) := by
      rw [workerExit_eq true (by rw [hframe]; exact hrecord)]
      exact sameSamples_congr
    exact ⟨_, hstep, sameSamples_trans hsame hexit, hpos, fun h => absurd hp h,
      fun _ => ⟨halive, hstop, hrunning, hframes⟩⟩
  · rw [if_neg hp] at hstep
    exact ⟨u, hstep, hsame, rfl, fun _ => by rw [hframe]; exact ⟨hw.alive, rfl, rfl⟩, fun h => absurd h hp⟩

/-- Settles O47: a wind by its tick, and a search by its run over the samples ahead of the cursor. -/
theorem windWorkerStopsAtTheEnd : Obligations.WindWorkerStopsAtTheEnd := by
  intro s hm ht hl ha hat hf steps
  have hw : AtLoopTop s := ⟨hl, ha, hat, hf⟩
  have hopen := openTape_drawUpdate ⟨hm, ht, hl⟩
  have hle := ht.posLe hl
  obtain ⟨⟨u, hfwd, hposu, hframeu, hsameu⟩, v, hbwd, hposv, hframev, hsamev⟩ :=
    seekTickMovesAndClamps (drawUpdate s) s.params.seekTickMs hopen.mem hopen.tape hopen.loaded
  refine ⟨fun hmode => ?fastForward, fun hmode => ?rewind, fun dir hdir => ?search⟩
  case fastForward =>
    obtain ⟨t, hstep, hsame, hpos, hon, hend⟩ := agentStep_worker_wind hw (by simp [hmode])
      (by simp only [iterate, drawUpdate, hmode]) hfwd hframeu hsameu
    have hposu : t.pos = min s.totalBits (s.pos + steps) := hpos.trans hposu
    exact ⟨t, hstep, hsame, fun h => ⟨by omega, hon (Nat.not_lt.2 h)⟩, fun h => ⟨by omega, hend h⟩⟩
  case rewind =>
    obtain ⟨t, hstep, hsame, hpos, hon, hend⟩ := agentStep_worker_wind hw (by simp [hmode])
      (by simp only [iterate, drawUpdate, hmode]) hbwd hframev hsamev
    have hposv : t.pos = s.pos - steps := hpos.trans hposv
    exact ⟨t, hstep, hsame, fun h => ⟨hposv, hon (Nat.not_lt.2 h)⟩, fun h => ⟨by omega, hend h⟩⟩
  case search =>
    have hrecord : s.workerMode ≠ .record := by obtain ⟨-, h⟩ | ⟨-, h⟩ := hdir <;> simp [h]
    have hmode : iterate (drawUpdate s) = iterateApss dir (drawUpdate s) := by
      obtain ⟨rfl, h⟩ | ⟨rfl, h⟩ := hdir <;> simp only [iterate, drawUpdate, h]
    obtain ⟨r, u, m, htick, hrun⟩ := apssLoop_spec (d := dir) hopen steps
    have hexit := workerExit_after_datapath hrecord (tapeKept_apssLoop htick).frame
    refine ⟨r, u, m, htick, hrun.le, hrun.wound.forward, hrun.wound.backward, hrun.frame, hrun.wound.samples, hrun.whole,
      fun hr => ⟨(hrun.boundary hr).1, ?atEnd⟩, hrun.found, hrun.clear, ?step, fun _ => hexit⟩
    case atEnd =>
      have hend := (hrun.boundary hr).2
      have hbits : u.totalBits = s.totalBits := hrun.wound.bits
      have hleu := hrun.wound.tape.tape.posLe hrun.wound.tape.loaded
      cases dir with
      | fwd => rw [if_pos rfl]; simp only [ahead] at hend; omega
      | bwd => exact hend
    case step =>
      refine agentStep_worker_iterates hw ?_
      rw [hmode, iterateApss]
      exact bind_ok_iff.2 ⟨(r, u), htick, rfl⟩

end Sys2Proof.Proofs
end

section
/-! SUPPORT. The statements of the family 45_commands.md, first part: the invariant of the controller, the worker and the writer
along every step (R281 to R283, R305, R306). -/

namespace Sys2Proof.Proofs

open Sys2Proof.Machine Sys2Proof.Laws

/-! ### What the invariant reads -/

/-- The invariant depends on the registers of the controller and of the agents alone, and withdrawing the outbound chunk or the end
of the writer keeps it. -/
theorem ctrlInv_mono {s t : State} (h : CtrlInv s) (h1 : t.workerAlive = s.workerAlive := by rfl)
    (h2 : t.workerMode = s.workerMode := by rfl) (h3 : t.mode = s.mode := by rfl)
    (h4 : t.dispatcherAt = s.dispatcherAt := by rfl) (h5 : t.loaded = s.loaded := by rfl)
    (h6 : t.running = s.running := by rfl) (h7 : t.recEntered = s.recEntered := by rfl)
    (h8 : t.runFlag = s.runFlag := by rfl) (h9 : t.workerAt = s.workerAt := by rfl)
    (hwriter : t.writerAlive = true → s.writerAlive = true := by exact fun hw => hw)
    (hout : t.outValid = true → s.outValid = true := by exact fun hv => hv) : CtrlInv t where
  worker := by rw [h1, h2, h3]; exact h.worker
  quiet := by rw [h1, h3, h4]; exact h.quiet
  tape := by rw [h3, h5]; exact h.tape
  entered := by rw [h3]; exact h.entered
  running := by rw [h1, h6]; exact h.running
  writer hw := by rw [h1, h2]; exact h.writer (hwriter hw)
  session := by rw [h3, h7]; exact h.session
  cancel := by rw [h1, h4, h8]; exact h.cancel
  takeHold := by rw [h1, h2, h9]; exact h.takeHold
  offerHold := by rw [h1, h2, h9]; exact h.offerHold
  exitHold := by rw [h1, h2, h8, h9]; exact h.exitHold
  outbound hv := by rw [h1, h9]; exact h.outbound (hout hv)
  joining := by rw [h1, h4, h5, h8]; exact h.joining
  starting := by rw [h3, h4]; exact h.starting

theorem ctrlInv_tapeKept {s t : State} (h : CtrlInv s) (hk : TapeKept s t) : CtrlInv t := by
  rw [hk.frame]; exact ctrlInv_mono h

/-! ### The worker's points -/

/-- Only a PLAY worker has a chunk on the port (R61). -/
theorem outValid_eq_false_of_mode {s : State} (h : CtrlInv s) (hm : s.workerMode ≠ .play) : s.outValid = false := by
  by_contra hv
  obtain ⟨ha, eot, hat⟩ := h.outbound (by simpa using hv)
  exact hm (h.takeHold eot ha hat)

theorem ctrlInv_atTop {s : State} (h : CtrlInv s) (hv : s.outValid = false) : CtrlInv { s with workerAt := .top } :=
  { h with
    takeHold := nofun
    offerHold := nofun
    exitHold := nofun
    outbound := fun hout => absurd (hv.symm.trans hout) (by decide) }

theorem ctrlInv_atTakeHold {s : State} (h : CtrlInv s) (ha : s.workerAlive = true) (hm : s.workerMode = .play)
    (eot : Bool) : CtrlInv { s with outValid := true, workerAt := .takeHold eot } :=
  { h with
    takeHold := fun _ _ _ => hm
    offerHold := nofun
    exitHold := nofun
    outbound := fun _ => ⟨ha, eot, rfl⟩ }

theorem ctrlInv_atOfferHold {s : State} (h : CtrlInv s) (hm : s.workerMode = .record) :
    CtrlInv { s with workerAt := .offerHold } :=
  { h with
    takeHold := nofun
    offerHold := fun _ _ => hm
    exitHold := nofun
    outbound := fun hout => absurd ((outValid_eq_false_of_mode h (by simp [hm])).symm.trans hout) (by decide) }

theorem ctrlInv_atExitHold {s : State} (h : CtrlInv s) (hm : s.workerMode = .record) (hf : s.runFlag = false) :
    CtrlInv { s with runFlag := false, workerAt := .exitHold false } :=
  { h with
    cancel := fun ha _ => h.cancel ha hf
    takeHold := nofun
    offerHold := nofun
    exitHold := fun self _ hat => ⟨hm, rfl, by cases hat; rfl⟩
    outbound := fun hout => absurd ((outValid_eq_false_of_mode h (by simp [hm])).symm.trans hout) (by decide)
    joining := fun k hk => ⟨(h.joining k hk).1, fun _ => rfl⟩ }

/-! ### The trap entry (R305) -/

/-- A worker that ends by itself leaves mode STOP, and a cancelled one leaves its mode to the dispatcher that waits for it. -/
theorem ctrlInv_finishExit {s : State} {self f : Bool} (h : CtrlInv s) (ha : s.workerAlive = true)
    (hw : s.writerAlive = false) (hself : self = false → s.runFlag = false) :
    CtrlInv (finishExit self { s with runFlag := f }) := by
  have hl : s.loaded = true := ((liveAgents_of_ctrlInv h).worker ha).1
  rw [finishExit_eq]
  cases self with
  | false =>
    have hwaits : s.dispatcherAt ≠ .idle := h.cancel ha (hself rfl)
    exact
      { worker := nofun
        quiet := fun _ hidle => absurd hidle hwaits
        tape := h.tape
        entered := h.entered
        running := rfl
        writer := fun hw' => absurd (hw.symm.trans hw') (by decide)
        session := h.session
        cancel := nofun
        takeHold := nofun
        offerHold := nofun
        exitHold := nofun
        outbound := nofun
        joining := fun _ _ => ⟨hl, nofun⟩
        starting := h.starting }
  | true =>
    exact
      { worker := nofun
        quiet := fun _ _ => rfl
        tape := ⟨nofun, fun hno => absurd (hl.symm.trans hno) (by decide)⟩
        entered := nofun
        running := rfl
        writer := fun hw' => absurd (hw.symm.trans hw') (by decide)
        session := nofun
        cancel := nofun
        takeHold := nofun
        offerHold := nofun
        exitHold := nofun
        outbound := nofun
        joining := fun _ _ => ⟨hl, nofun⟩
        starting := fun m hm => by
          have hrunning := (h.starting m hm).1
          exact ⟨hrunning, by rintro rfl; cases hrunning⟩ }

/-- A worker exits when it is cancelled, or by itself with no writer left (R304, R305). -/
theorem ctrlInv_workerExit {s : State} {self : Bool} (h : CtrlInv s) (ha : s.workerAlive = true)
    (hwhy : s.runFlag = false ∧ self = false ∨ s.writerAlive = false ∧ self = true) : CtrlInv (workerExit self s) := by
  obtain ⟨hm, hw, e⟩ | ⟨hgone, f, e⟩ := workerExit_cases self s
  · obtain ⟨hf, rfl⟩ | ⟨hno, -⟩ := hwhy
    · rw [e]
      exact ctrlInv_atExitHold h hm hf
    · exact absurd (hno.symm.trans hw) (by decide)
  · have hw : s.writerAlive = false := by
      by_contra hw'
      have hw' : s.writerAlive = true := by simpa using hw'
      exact absurd ((hgone (h.writer hw').2).symm.trans hw') (by decide)
    rw [e]
    refine ctrlInv_finishExit h ha hw fun hs => ?_
    obtain ⟨hf, -⟩ | ⟨-, rfl⟩ := hwhy
    · exact hf
    · cases hs

/-! ### The worker and the writer (R301 to R305) -/

theorem ctrlInv_iterateRec {s : State} (h : CtrlInv s) (ha : s.workerAlive = true) (hm : s.workerMode = .record) :
    CtrlInv (iterateRec s) := by
  have hv : s.outValid = false := outValid_eq_false_of_mode h (by simp [hm])
  obtain ⟨hf, e⟩ | ⟨-, hw, e⟩ | ⟨-, -, chunk, -, -, e⟩ | ⟨-, -, e⟩ := iterateRec_cases s
  · rw [e]; exact ctrlInv_workerExit h ha (.inl ⟨hf, rfl⟩)
  · rw [e]; exact ctrlInv_workerExit h ha (.inr ⟨hw, rfl⟩)
  · rw [e]; exact ctrlInv_mono (ctrlInv_atTop h hv)
  · rw [e]; exact ctrlInv_atOfferHold h hm

theorem ctrlInv_iterate {s t : State} (h : CtrlInv s) (ha : s.workerAlive = true) (hi : iterate s = .ok t) : CtrlInv t := by
  obtain ⟨hm, rfl⟩ | ⟨hm, u, hk, hcase⟩ := iterate_cases hi
  · exact ctrlInv_iterateRec h ha hm
  · have hu : CtrlInv u := ctrlInv_tapeKept h hk
    obtain ⟨halive, hmode, hwriter⟩ := datapathOnly_agents hk.frame
    have hw : u.writerAlive = false := hwriter.trans (no_writer_of_mode (liveAgents_of_ctrlInv h) hm)
    obtain rfl | rfl | ⟨hplay, out, eot, -, -, rfl⟩ := hcase
    · exact hu
    · exact ctrlInv_workerExit hu (halive.trans ha) (.inr ⟨hw, rfl⟩)
    · exact ctrlInv_mono (ctrlInv_atTakeHold hu (halive.trans ha) (hmode.trans hplay) eot)

/-- The end of the hold on the outbound chunk: unless the worker is cancelled, the chunk has been taken (R198). -/
theorem ctrlInv_afterTake {s : State} {eot : Bool} (h : CtrlInv s) (ha : s.workerAlive = true)
    (hat : s.workerAt = .takeHold eot) (hgo : workerHolds s = false) : CtrlInv (afterTake eot s) := by
  have hw : s.writerAlive = false :=
    no_writer_of_mode (liveAgents_of_ctrlInv h) (by rw [h.takeHold eot ha hat]; decide)
  obtain ⟨hf, e⟩ | ⟨-, -, e⟩ | ⟨hf, -, e⟩ := afterTake_cases eot s
  · rw [e]; exact ctrlInv_workerExit h ha (.inl ⟨hf, rfl⟩)
  · rw [e]; exact ctrlInv_workerExit h ha (.inr ⟨hw, rfl⟩)
  · rw [e]; exact ctrlInv_atTop h (by simpa [workerHolds, ha, hat, hf] using hgo)

theorem ctrlInv_workerStep {s t : State} (h : CtrlInv s) (hstep : workerStep s = .next t) : CtrlInv t := by
  obtain ⟨-, rfl⟩ | ⟨hgo, ha, -, hturn⟩ := workerStep_cases hstep
  · exact h
  · obtain ⟨-, hf, rfl⟩ | ⟨-, -, hi⟩ | ⟨eot, hat, rfl⟩ | ⟨hat, rfl⟩ | ⟨self, hat, rfl⟩ := workerTurn_cases hturn
    · exact ctrlInv_workerExit h ha (.inl ⟨hf, rfl⟩)
    · exact ctrlInv_iterate (s := drawUpdate s) (ctrlInv_mono h) ha hi
    · exact ctrlInv_afterTake h ha hat hgo
    · exact ctrlInv_iterateRec h ha (h.offerHold ha hat)
    · obtain ⟨-, hf, -⟩ := h.exitHold self ha hat
      have hw : s.writerAlive = false := by simpa [workerHolds, ha, hat] using hgo
      exact ctrlInv_finishExit (f := s.runFlag) h ha hw fun _ => hf

/-- The writer's turn moves the datapath and can end the writer. -/
theorem ctrlInv_writerStep {s t : State} (h : CtrlInv s) (hstep : writerStep s = .next t) : CtrlInv t := by
  obtain ⟨-, rfl⟩ | ⟨-, hw, -, hturn⟩ := writerStep_cases hstep
  · exact h
  · obtain ⟨d, u, hd, hk, ht⟩ := writerTurn_frame hturn
    rw [ht, hk.frame, hd]
    exact ctrlInv_mono h (hwriter := fun _ => hw)

/-! ### The dispatcher (R280, R282, R283, R290, R291) -/

/-- With a worker alive a command that stops it cancels it and waits for it (R282). -/
theorem ctrlInv_joining {s : State} {k : Join} (h : CtrlInv s) (ha : s.workerAlive = true)
    (hk : ∀ m, k = .start m → isRunningMode m = true ∧ s.mode ≠ m) :
    CtrlInv { s with runFlag := false, dispatcherAt := .joining k } :=
  { h with
    quiet := fun _ => nofun
    cancel := fun _ _ => nofun
    exitHold := fun self ha hat => by
      obtain ⟨hm, -, hself⟩ := h.exitHold self ha hat
      exact ⟨hm, rfl, hself⟩
    joining := fun _ _ => ⟨((liveAgents_of_ctrlInv h).worker ha).1, fun _ => rfl⟩
    starting := fun m hm => hk m (by cases hm; rfl) }

/-- What the dispatcher finds where no worker is alive, between two items or at the end of its join: the mode of the worker that is
gone may still stand. -/
structure NoWorker (s : State) : Prop where
  worker  : s.workerAlive = false
  writer  : s.writerAlive = false
  out     : s.outValid = false
  running : s.running = false
  idle    : s.dispatcherAt = .idle
  tape    : s.mode = .eject ↔ s.loaded = false
  entered : s.mode ≠ .none
  session : s.recEntered = true → s.mode = .record

theorem noWorker_of_ctrlInv {s : State} (h : CtrlInv s) (ha : s.workerAlive = false) :
    NoWorker { s with dispatcherAt := .idle } where
  worker := ha
  writer := no_writer_of_no_worker (s := s) (liveAgents_of_ctrlInv h) ha
  out := by
    by_contra hv
    obtain ⟨ha', -⟩ := h.outbound (by simpa using hv)
    exact absurd (ha.symm.trans ha') (by decide)
  running := h.running.trans ha
  idle := rfl
  tape := h.tape
  entered := h.entered
  session := h.session

theorem noWorker_between {s : State} (h : CtrlInv s) (hi : s.dispatcherAt = .idle) (ha : s.workerAlive = false) :
    NoWorker s := by
  have hn := noWorker_of_ctrlInv h ha
  rwa [← hi] at hn

/-- With no worker alive the invariant asks beside that only that no running mode is on (R306). -/
theorem ctrlInv_of_noWorker {s : State} (h : NoWorker s) (hq : isRunningMode s.mode = false) : CtrlInv s := by
  have dead {p : Prop} (ha : s.workerAlive = true) : p := absurd (h.worker.symm.trans ha) (by decide)
  have busy {p : Prop} {k : Join} (hk : s.dispatcherAt = .joining k) : p := absurd (h.idle.symm.trans hk) nofun
  exact
    { worker := dead, quiet := fun _ _ => hq, tape := h.tape, entered := h.entered, running := h.running.trans h.worker.symm
      writer := fun hw => absurd (h.writer.symm.trans hw) (by decide), session := h.session
      cancel := dead, takeHold := fun _ => dead, offerHold := dead, exitHold := fun _ => dead
      outbound := fun hv => absurd (h.out.symm.trans hv) (by decide)
      joining := fun _ => busy, starting := fun _ => busy }

/-- STOP, an error item and the gated start leave mode STOP while a tape is loaded, and EJECT without one. -/
theorem ctrlInv_stopped {s : State} (h : NoWorker s) :
    CtrlInv { s with mode := if s.loaded then .stop else s.mode, running := false, recEntered := false } := by
  by_cases hl : s.loaded = true
  · rw [if_pos hl]
    exact ctrlInv_of_noWorker
      { h with
        running := rfl
        tape := ⟨nofun, fun hno => absurd (hl.symm.trans hno) (by decide)⟩
        entered := nofun
        session := nofun } rfl
  · rw [if_neg hl]
    have heject : s.mode = .eject := h.tape.2 (by simpa using hl)
    exact ctrlInv_of_noWorker { h with running := rfl, session := nofun } (by rw [heject]; rfl)

theorem ctrlInv_finishStop {s : State} (h : NoWorker s) (hl : s.loaded = true) : CtrlInv (finishStop s) := by
  have hstopped := ctrlInv_stopped h
  rw [if_pos hl] at hstopped
  exact ctrlInv_mono hstopped (h6 := h.running)

theorem ctrlInv_finishError {s : State} (e : Event) (h : NoWorker s) : CtrlInv (finishError e s) :=
  ctrlInv_mono (ctrlInv_stopped h)

theorem ctrlInv_idleStop {s : State} (h : NoWorker s) : CtrlInv (idleStop s) :=
  ctrlInv_mono (ctrlInv_stopped h)

/-- A worker of a running mode that the dispatcher has just spawned (R283, R301). -/
theorem ctrlInv_spawnWorker {m : Mode} {s : State} (hm : isRunningMode m = true) (hmode : s.mode = m)
    (hl : s.loaded = true) (hr : s.running = true) (hout : s.outValid = false) (hi : s.dispatcherAt = .idle)
    (hw : s.writerAlive = true → m = .record) (hsession : s.recEntered = true → m = .record) :
    CtrlInv (spawnWorker m s) := by
  have heject : m ≠ .eject := by rintro rfl; cases hm
  have hnone : m ≠ .none := by rintro rfl; cases hm
  exact
    { worker := fun _ => ⟨hm, hmode⟩
      quiet := nofun
      tape := ⟨fun he => absurd (hmode.symm.trans he) heject, fun hno => absurd (hl.symm.trans hno) (by decide)⟩
      entered := fun hn => hnone (hmode.symm.trans hn)
      running := hr
      writer := fun hw' => ⟨rfl, hw hw'⟩
      session := fun hs => hmode.trans (hsession hs)
      cancel := fun _ => nofun
      takeHold := fun _ _ => nofun
      offerHold := fun _ => nofun
      exitHold := fun _ _ => nofun
      outbound := fun hv => absurd (hout.symm.trans hv) (by decide)
      joining := fun _ hk => absurd (hi.symm.trans hk) nofun
      starting := fun _ hk => absurd (hi.symm.trans hk) nofun }

/-- A start operation seeds the datapath alone, or it is REC's first entry (R283). -/
theorem startOperation_frame {m : Mode} {s t : State} (h : startOperation m s = some t) :
    DatapathOnly s t ∨ (m = .record ∧ t = { startWrite s with recEntered := true }) := by
  cases m with
  | play => cases h; exact .inl rfl
  | record =>
    cases h
    unfold enterRecord
    split
    · exact .inl rfl
    · exact .inr ⟨rfl, rfl⟩
  | autoFastForward => cases h; exact .inl rfl
  | autoRewind => cases h; exact .inl rfl
  | fastForward => cases h; exact .inl rfl
  | rewind => cases h; exact .inl rfl
  | none => cases h
  | stop => cases h
  | eject => cases h

theorem ctrlInv_finishStart {m : Mode} {s t : State} (h : NoWorker s) (hstart : finishStart m s = .next t) : CtrlInv t := by
  obtain ⟨hl, s1, hs1, rfl⟩ := finishStart_cases hstart
  have hm := startOperation_some hs1
  have hspawned : CtrlInv (spawnWorker m s1) := by
    obtain hframe | ⟨rfl, rfl⟩ := startOperation_frame hs1
    · rw [hframe]
      refine ctrlInv_spawnWorker hm rfl hl rfl h.out h.idle (fun hw => ?_) (fun hs => ?_)
      · exact absurd (h.writer.symm.trans hw) (by decide)
      · simp only [Bool.and_eq_true, beq_iff_eq] at hs
        exact hs.2
    · exact ctrlInv_spawnWorker hm rfl hl rfl h.out h.idle (fun _ => rfl) (fun _ => rfl)
  exact ctrlInv_mono hspawned

/-- EJECT leaves mode EJECT and no tape (R290). -/
theorem noWorker_ejectTape {s t : State} (h : NoWorker s) (hej : ejectTape s = .ok t) :
    NoWorker t ∧ t.mode = .eject ∧ t.loaded = false := by
  obtain ⟨u, v, hu, hv, e⟩ := ejectTape_cases hej
  rw [e, persistPosition_frame hv, (flush_frame hu).1]
  exact ⟨{ h with running := rfl, tape := ⟨fun _ => rfl, fun _ => rfl⟩, entered := nofun, session := nofun }, rfl, rfl⟩

theorem ctrlInv_ejectTape {s t : State} (h : NoWorker s) (hej : ejectTape s = .ok t) : CtrlInv t := by
  obtain ⟨hn, hmode, -⟩ := noWorker_ejectTape h hej
  exact ctrlInv_of_noWorker hn (by rw [hmode]; rfl)

theorem ctrlInv_finishEject {s t : State} (h : NoWorker s) (hej : finishEject s = .next t) : CtrlInv t := by
  obtain ⟨-, hej⟩ := withTape_next_iff.1 hej
  obtain ⟨u, hu, hej⟩ := andThen_next_iff.1 hej
  cases hej
  exact ctrlInv_ejectTape h hu

/-- An insertion with no tape loaded leaves mode EJECT if the image does not open, and else mode STOP with a tape (R174, R178). -/
theorem ctrlInv_openAndEnter {bytes : List Byte} {readOnly : Bool} {s t : State} (h : NoWorker s) (hl : s.loaded = false)
    (hopen : openAndEnter bytes readOnly s = .next t) : CtrlInv t := by
  have heject : s.mode = .eject := h.tape.2 hl
  obtain ⟨code, -, rfl⟩ | ⟨hd, s1, c, -, h1, -, e⟩ := openAndEnter_cases hopen
  · exact ctrlInv_mono (ctrlInv_of_noWorker h (by rw [heject]; rfl))
  · rw [e, (load_frame h1).1]
    exact ctrlInv_of_noWorker
      { h with
        running := rfl
        tape := ⟨nofun, nofun⟩
        entered := nofun
        session := fun hs => absurd (heject.symm.trans (h.session hs)) nofun } rfl

theorem ctrlInv_finishInsert {bytes : List Byte} {readOnly : Bool} {s t : State} (h : NoWorker s)
    (hins : finishInsert bytes readOnly s = .next t) : CtrlInv t := by
  unfold finishInsert at hins
  split at hins
  · obtain ⟨u, hu, hopen⟩ := andThen_next_iff.1 hins
    obtain ⟨hn, -, hl⟩ := noWorker_ejectTape h hu
    exact ctrlInv_openAndEnter hn hl hopen
  · rename_i hnone
    have hl : s.loaded = false := by
      by_contra hl
      exact hnone ⟨by simpa using hl, fun he => hl (h.tape.1 he)⟩
    exact ctrlInv_openAndEnter h hl hins

/-- The end of a join (R282). -/
theorem ctrlInv_resume {k : Join} {s t : State} (h : NoWorker s) (hl : s.loaded = true) (hres : resume k s = .next t) :
    CtrlInv t := by
  cases k with
  | start m =>
    obtain ⟨-, rfl⟩ | ⟨-, hstart⟩ := resumeStart_cases hres
    · exact ctrlInv_finishStop h hl
    · exact ctrlInv_finishStart h hstart
  | eject => exact ctrlInv_finishEject h hres
  | stop => cases hres; exact ctrlInv_finishStop h hl
  | insert bytes readOnly => exact ctrlInv_finishInsert h hres
  | devErr => cases hres; exact ctrlInv_finishError .deviceError h
  | disconn => cases hres; exact ctrlInv_finishError .deviceDisconnected h

/-- `stop_worker()` joins a worker that is alive, and what follows it finds none (R282). -/
theorem ctrlInv_stopWorker {k : Join} {after : State → Result} {s t : State} (h : CtrlInv s) (hi : s.dispatcherAt = .idle)
    (hstop : stopWorker k after s = .next t) (hk : ∀ m, k = .start m → isRunningMode m = true ∧ s.mode ≠ m)
    (hafter : NoWorker s → after s = .next t → CtrlInv t) : CtrlInv t := by
  obtain ⟨ha, rfl⟩ | ⟨ha, hstop⟩ := stopWorker_next_iff.1 hstop
  · exact ctrlInv_joining h ha hk
  · exact hafter (noWorker_between h hi ha) hstop

theorem ctrlInv_exec {i : Instr} {s t : State} (h : CtrlInv s) (hi : s.dispatcherAt = .idle) (hexec : exec i s = .next t) :
    CtrlInv t := by
  obtain ⟨m, hm, hstart⟩ | ⟨-, heject⟩ | ⟨-, hstop⟩ | ⟨kind, value, rfl⟩ := exec_cases hexec
  · obtain rfl | ⟨-, hne, ⟨ha, rfl⟩ | ⟨ha, hstart⟩⟩ := startMode_cases hstart
    · exact h
    · exact ctrlInv_joining h ha fun m' hm' => by cases hm'; exact ⟨hm, hne⟩
    · exact ctrlInv_finishStart (noWorker_between h hi ha) hstart
  · unfold execEject at heject
    split at heject
    · cases heject; exact h
    · exact ctrlInv_stopWorker h hi heject nofun ctrlInv_finishEject
  · exact ctrlInv_stopWorker h hi hstop nofun fun hn e => by cases e; exact ctrlInv_idleStop hn
  · exact ctrlInv_mono h

theorem ctrlInv_runItem {x : CmdItem} {s t : State} (h : CtrlInv s) (hi : s.dispatcherAt = .idle)
    (hrun : runItem x s = .next t) : CtrlInv t := by
  cases x with
  | byte b =>
    obtain rfl | ⟨i, hexec⟩ := runByte_cases hrun
    · exact h
    · exact ctrlInv_exec h hi hexec
  | insert bytes readOnly =>
    by_cases hl : s.loaded = true ∧ s.mode ≠ .eject
    · rw [show runItem (.insert bytes readOnly) s = insertTape bytes readOnly s from rfl,
        insertTape_of_loaded hl.1 hl.2] at hrun
      exact ctrlInv_stopWorker h hi hrun nofun ctrlInv_finishInsert
    · have ha : s.workerAlive = false := by
        by_contra ha
        exact hl ((liveAgents_of_ctrlInv h).worker (by simpa using ha))
      rw [show runItem (.insert bytes readOnly) s = insertTape bytes readOnly s from rfl,
        insertTape_of_no_worker ha] at hrun
      exact ctrlInv_finishInsert (noWorker_between h hi ha) hrun
  | devErr =>
    change runDevErr s = .next t at hrun
    exact ctrlInv_stopWorker h hi hrun nofun fun hn e => by cases e; exact ctrlInv_finishError _ hn
  | disconn =>
    change runDisconn s = .next t at hrun
    exact ctrlInv_stopWorker h hi hrun nofun fun hn e => by cases e; exact ctrlInv_finishError _ hn

theorem ctrlInv_dispatcherStep {s t : State} (h : CtrlInv s) (hstep : dispatcherStep s = .next t) : CtrlInv t := by
  obtain ⟨k, -, -, rfl⟩ | ⟨k, hk, ha, hres⟩ | ⟨-, -, rfl⟩ | ⟨x, q, hi, -, hrun⟩ := dispatcherStep_cases hstep
  · exact h
  · exact ctrlInv_resume (noWorker_of_ctrlInv h ha) (h.joining k hk).1 hres
  · exact h
  · exact ctrlInv_runItem (s := { s with cmdQ := q }) (ctrlInv_mono h) hi hrun

/-! ### The receiver, the host and the step -/

/-- No action of the host puts a chunk on the outbound port (R97). -/
theorem hostAct_outValid {act : HostAction} {rest : List HostAction} {s t : State} (h : hostAct act rest s = .next t)
    (hv : t.outValid = true) : s.outValid = true := by
  cases act with
  | takeChunk =>
    cases h
    split at hv
    · cases hv
    · exact hv
  | offerChunk bytes =>
    simp only [hostAct, offerChunk] at h
    split at h
    · split at h <;> cases h <;> exact hv
    · cases h
  | readStatus a =>
    simp only [hostAct, readStatus] at h
    split at h <;> split at h <;> cases h <;> exact hv
  | readImage a =>
    simp only [hostAct, hostRead] at h
    split at h
    · cases h
    · obtain ⟨b, -, h⟩ := andThen_next_iff.1 h
      cases h; exact hv
  | writeImage a v =>
    obtain ⟨-, -, rfl⟩ := hostWrite_cases h
    exact hv
  | takeFrame => cases h; unfold takeFrame at hv; split at hv <;> exact hv
  | takeEvent =>
    cases h
    unfold takeEvent at hv
    split at hv
    · exact hv
    · split at hv <;> exact hv
  | deviceError => cases h; unfold deviceError at hv; split at hv <;> exact hv
  | deviceDisconnected => cases h; unfold deviceDisconnected at hv; split at hv <;> exact hv
  | reset => cases h; cases hv
  | pushPort _ | issue _ | insert _ _ | setAltRate _ | setRecConv _ | listen => cases h; exact hv

theorem ctrlInv_hostAct {act : HostAction} {rest : List HostAction} {s t : State} (h : CtrlInv s)
    (hact : hostAct act rest s = .next t) : CtrlInv t := by
  have hout := hostAct_outValid hact
  obtain rfl | ⟨a, v, rfl⟩ | e := hostAct_frame hact
  · cases hact; exact ctrlInv_mono ctrlInv_reset
  · obtain ⟨-, -, rfl⟩ := hostWrite_cases hact
    exact ctrlInv_mono (s := s) h
  · rw [e]; exact ctrlInv_mono h (hout := hout)

theorem ctrlInv_agentStep {a : Agent} {s t : State} (h : CtrlInv s) (hstep : agentStep a s = .next t) : CtrlInv t := by
  cases a with
  | receiver =>
    obtain rfl | ⟨b, rest, -, -, rfl⟩ := receiverStep_cases hstep
    · exact h
    · exact ctrlInv_mono h
  | dispatcher => exact ctrlInv_dispatcherStep h hstep
  | worker => exact ctrlInv_workerStep h hstep
  | writer => exact ctrlInv_writerStep h hstep
  | host =>
    obtain ⟨-, rfl⟩ | ⟨act, rest, -, hact⟩ := hostStep_cases hstep
    · exact h
    · exact ctrlInv_hostAct h hact

/-- Settles O55: every agent's turn keeps the invariant; the join is where a dead worker's mode may stand. -/
theorem controlInvariantIsKept : Obligations.ControlInvariantIsKept := by
  intro s t h hstep
  obtain ⟨u, hu, rfl⟩ := step_next_iff.1 hstep
  rw [observe_eq]
  exact ctrlInv_mono (ctrlInv_agentStep (s := { s with sched := s.sched.tail }) (ctrlInv_mono h) hu)

end Sys2Proof.Proofs
end

section
/-! SUPPORT. The statements of the family 45_commands.md, second part: the commands as the dispatcher runs them, STOP and EJECT,
the join, the ignored start commands, and the trap entry (R9, R280 to R284, R290, R291, R298 to R300, R305). -/

namespace Sys2Proof.Proofs

open Sys2Proof.Machine Sys2Proof.Laws

/-! ### The dispatcher on a command byte (R280, R300, R366) -/

theorem agentStep_dispatcher_byte {s : State} {b : Byte} {q : List CmdItem} (hi : s.dispatcherAt = .idle)
    (hq : s.cmdQ = .byte b :: q) : agentStep .dispatcher s = runByte b { s with cmdQ := q } := by
  simp only [agentStep, dispatcherStep, hi, hq, runItem]

theorem runByte_of_decode {b : Byte} {i : Instr} {r : List Byte} (h : decode [b] = .ok (i, r)) (s : State) :
    runByte b s = exec i s := by
  simp only [runByte, h]

theorem runByte_ignored {b : Byte} {s : State} (h : b ∉ commandBytes) (hp : s.params.unlistedCmdPolicy = .ignore) :
    runByte b s = .next s := by
  simp only [runByte, decode_unlisted [] h, hp]

theorem runByte_refused {b : Byte} {s : State} (h : b ∉ commandBytes) (hp : s.params.unlistedCmdPolicy = .refuse) :
    runByte b s = .refused (.unlistedCommand b) := by
  simp only [runByte, decode_unlisted [] h, hp]

/-- Settles O3: the byte is taken from the queue, decodes to nothing, and the policy says the rest. -/
theorem unlistedByteFollowsPolicy : Obligations.UnlistedByteFollowsPolicy := by
  intro s b q hi hq hb
  rw [agentStep_dispatcher_byte hi hq]
  exact ⟨runByte_ignored (s := { s with cmdQ := q }) hb, runByte_refused (s := { s with cmdQ := q }) hb⟩

/-- A turn of the dispatcher on a byte that decodes (R280, R369). -/
theorem step_of_command {s : State} {b : Byte} {q : List CmdItem} {i : Instr} {r : List Byte}
    (hn : nextAgent s = .dispatcher) (hi : s.dispatcherAt = .idle) (hq : s.cmdQ = .byte b :: q)
    (hd : decode [b] = .ok (i, r)) :
    step s = mapNext observe (exec i { s with cmdQ := q, sched := s.sched.tail }) := by
  rw [step, turn, hn, agentStep_dispatcher_byte (s := { s with sched := s.sched.tail }) hi hq, runByte_of_decode hd]

/-- A table word of 8 bits is one byte. -/
theorem wordBytes_eight (w : Nat) : wordBytes 8 w = [BitVec.ofNat 8 (w % 2 ^ 8 / 256 ^ 0)] := rfl

theorem decode_of_decodeTableWord {w : Nat} {i : Instr} (h : decodeTableWord 8 w = some i) :
    ∃ r, decode [BitVec.ofNat 8 (w % 2 ^ 8 / 256 ^ 0)] = .ok (i, r) := by
  rw [decodeTableWord, wordBytes_eight] at h
  split at h
  · rename_i j r hd
    cases h
    exact ⟨r, hd⟩
  · cases h

/-- Settles O4: the placed word is a command byte at the head of the queue, with the dispatcher's turn next. -/
theorem stepRunsDecodedCommand : Obligations.StepRunsDecodedCommand := by
  refine ⟨fun s b q i r hn hi hq hd _ => step_of_command hn hi hq hd, fun s w i hw => ?word, fun s b rest hp he hd => ?receiver⟩
  case word =>
    obtain ⟨r, hd⟩ := decode_of_decodeTableWord hw
    exact step_of_command (s := s.withFetchWord 8 w) (q := s.cmdQ) rfl rfl rfl hd
  case receiver => simp [agentStep, receiverStep, gated, hp, he, hd]

/-! ### The queries (R138, R298, R299) -/

/-- Publishing the sensor byte sends one frame (R123). -/
theorem publishSensor_sends (s : State) : publishSensor s = { s with rspQ := sentFrames s [sensorFrame s] } := rfl

theorem publishMode_sends (s : State) :
    publishMode s = { s with rspQ := sentFrames s [⟨s.params.kindStatusChange, modeCode s.params s.mode⟩] } := rfl

/-- Settles O6: each query is one publication. -/
theorem queriesSendOneFrame : Obligations.QueriesSendOneFrame := fun s =>
  ⟨congrArg Host.Outcome.next (publishMode_sends s), congrArg Host.Outcome.next (publishSensor_sends s)⟩

/-! ### STOP (R291) -/

/-- The sensor update and the acknowledgement after it (R123, R308). -/
theorem stopAck_publishSensor (s : State) :
    stopAck (publishSensor s) = { s with rspQ := sentFrames s [sensorFrame s, ackFrame s] } :=
  congrArg (fun frames => { s with rspQ := frames }) (sentFrames_sentFrames s [sensorFrame s] [ackFrame s])

/-- Settles O8: nothing is joined, and the two publications follow. -/
theorem stopWithNoWorker : Obligations.StopWithNoWorker := by
  intro s hw
  rw [show exec .stop s = stopWorker .stop (fun s1 => .next (idleStop s1)) s from rfl, stopWorker_of_no_worker hw, idleStop,
    stopAck_publishSensor]
  rfl

/-! ### The join (R282, R309, R344) -/

theorem stopWorker_of_worker {k : Join} {after : State → Result} {s : State} (hw : s.workerAlive = true) :
    stopWorker k after s = .next { s with runFlag := false, dispatcherAt := .joining k } :=
  if_pos hw

theorem exec_eject_of_tape {s : State} (hm : s.mode ≠ .eject) : exec .eject s = stopWorker .eject finishEject s :=
  if_neg hm

/-- A start command that is not ignored (R283). -/
theorem startMode_of_open {m : Mode} {s : State} (hl : s.loaded = true) (hg : gated s = false) (hm : s.mode ≠ m) :
    startMode m s = stopWorker (.start m) (finishStart m) s :=
  if_neg (by simp [hl, hg, hm])

theorem gated_eq_false {s : State} (he : s.devError = false) (hd : s.disconnected = false) : gated s = false := by
  rw [gated, he, hd]
  rfl

theorem gated_eq_true {s : State} (h : s.devError = true ∨ s.disconnected = true) : gated s = true := by
  rw [gated, Bool.or_eq_true]
  exact h

/-- Settles O9: each of them is `stop_worker` first. -/
theorem modeCommandJoinsWorker : Obligations.ModeCommandJoinsWorker := by
  refine fun s hw => ⟨exec_stop_cancels hw, fun hm => ?eject, fun i m hi hl he hd hm => ?start, fun k hk => ?holds⟩
  case eject => rw [exec_eject_of_tape hm, stopWorker_of_worker hw]
  case start => rw [exec_startTarget hi, startMode_of_open hl (gated_eq_false he hd) hm, stopWorker_of_worker hw]
  case holds => simp only [agentStep, dispatcherStep, hk, hw, if_true]

/-- Settles O10: the dispatcher resumes what the command left to do, and a start tests the gate again. -/
theorem joinEndsThenCommandCompletes : Obligations.JoinEndsThenCommandCompletes := by
  refine fun s hw => ⟨fun hk => ?stop, fun hk hm => ?eject, fun i m hi hk hl he hd hm => ?start, fun m hk hg => ?gated⟩
  case stop =>
    rw [agentStep_dispatcher_joined hk hw]
    rfl
  case eject =>
    rw [agentStep_dispatcher_joined hk hw, exec_eject_of_tape (s := { s with dispatcherAt := .idle }) hm,
      stopWorker_of_no_worker (s := { s with dispatcherAt := .idle }) hw]
    rfl
  case start =>
    have hg : gated { s with dispatcherAt := .idle } = false := gated_eq_false (s := { s with dispatcherAt := .idle }) he hd
    rw [agentStep_dispatcher_joined hk hw, exec_startTarget hi,
      startMode_of_no_worker (s := { s with dispatcherAt := .idle }) hl hg hm hw]
    exact if_neg (by rw [hg]; decide)
  case gated =>
    rw [agentStep_dispatcher_joined hk hw]
    exact if_pos (gated_eq_true (s := { s with dispatcherAt := .idle }) hg)

/-- Settles O12: `start_mode` tests the tape, the gate and its own mode before everything else. -/
theorem startIgnoredWithoutEffect : Obligations.StartIgnoredWithoutEffect := by
  intro s i m hi h
  have hignored : s.loaded = false ∨ gated s = true ∨ s.mode = m := by
    obtain hl | he | hd | hm := h
    · exact .inl hl
    · exact .inr (.inl (gated_eq_true (.inl he)))
    · exact .inr (.inl (gated_eq_true (.inr hd)))
    · exact .inr (.inr hm)
  rw [exec_startTarget hi]
  exact if_pos hignored

/-! ### EJECT (R176, R290) -/

/-- `MemWrite` of bytes that the file has room for answers. -/
theorem imgWriteBytes_answers {bytes : List Byte} {a : Nat} {s : State} (h : a + bytes.length ≤ s.fileSize) :
    ∃ t, imgWriteBytes a bytes s = .ok t := by
  induction bytes generalizing a s with
  | nil => exact ⟨s, rfl⟩
  | cons b bs ih =>
    rw [List.length_cons] at h
    have hfirst := (imgWrite_ok_iff (v := b)).2 ⟨show a < s.fileSize by omega, rfl⟩
    obtain ⟨t, hrest⟩ := ih (a := a + 1) (s := { s with img := Memory.set s.img a b }) (by dsimp only; omega)
    exact ⟨t, bind_ok_iff.2 ⟨_, hfirst, hrest⟩⟩

/-- `MemWrite` of several bytes stores them in order (R80). -/
theorem imgWriteBytes_get_inside {bytes : List Byte} {a i : Nat} {s t : State} (hm : MemInv s)
    (h : imgWriteBytes a bytes s = .ok t) (hi : i < bytes.length) : Memory.get t.img (a + i) = bytes[i] := by
  induction bytes generalizing a i s with
  | nil => exact absurd hi (Nat.not_lt_zero i)
  | cons b bs ih =>
    obtain ⟨s1, h1, h2⟩ := bind_ok_iff.1 h
    obtain ⟨hlt, rfl⟩ := imgWrite_ok_iff.1 h1
    have hm1 := memInv_write hm hlt b
    cases i with
    | zero =>
      rw [imgWriteBytes_get_outside hm1 h2 (.inl (by omega))]
      exact get_set_same hm.canonical a b
    | succ i =>
      rw [show a + (i + 1) = a + 1 + i by omega]
      exact ih hm1 h2 (Nat.lt_of_succ_lt_succ hi)

/-- R83: byte `i` of a little-endian field. -/
theorem le32bytes_getElem (v : Nat) {i : Nat} (hi : i < (le32bytes v).length) :
    (le32bytes v)[i] = BitVec.ofNat 8 (v / 256 ^ i) := by
  have hi : i < 4 := hi
  interval_cases i <;> simp [le32bytes]

/-- R176: the position is stored in a writable MODERN header, and nothing else is. -/
theorem persistPosition_spec {s : State} (hm : MemInv s) (hfits : s.variant = .modern → 40 ≤ s.fileSize) :
    ∃ t, persistPosition s = .ok t ∧ t = { s with img := t.img } ∧ ∀ a, Memory.get t.img a =
      if s.variant = .modern ∧ s.readOnly = false ∧ 36 ≤ a ∧ a < 40 then BitVec.ofNat 8 (s.pos / 256 ^ (a - 36))
      else Memory.get s.img a := by
  by_cases hwritable : s.variant = .modern ∧ s.readOnly = false
  · have hpersist : persistPosition s = imgWriteBytes 36 (le32bytes s.pos) s := if_pos hwritable
    obtain ⟨t, hwrite⟩ := imgWriteBytes_answers (bytes := le32bytes s.pos) (a := 36) (hfits hwritable.1)
    refine ⟨t, hpersist.trans hwrite, imgWriteBytes_frame hwrite, fun a => ?_⟩
    by_cases ha : 36 ≤ a ∧ a < 40
    · have hi : a - 36 < (le32bytes s.pos).length := show a - 36 < 4 by omega
      have hbyte := imgWriteBytes_get_inside hm hwrite hi
      rw [le32bytes_getElem, show 36 + (a - 36) = a by omega] at hbyte
      rw [if_pos ⟨hwritable.1, hwritable.2, ha⟩, hbyte]
    · rw [if_neg fun h => ha h.2.2]
      exact imgWriteBytes_get_outside hm hwrite (show a < 36 ∨ 36 + 4 ≤ a by omega)
  · exact ⟨s, if_neg hwritable, rfl, fun a => (if_neg fun h => hwritable ⟨h.1, h.2.1⟩).symm⟩

/-- The bytes that `close()` writes on an open tape: the staged byte, and the position of a writable MODERN image (R156, R176). -/
theorem closeImage_spec {s : State} (hm : MemInv s) (ht : TapeInv s) (hl : s.loaded = true) :
    ∃ t, closeImage s = .ok t ∧ t = { s with img := t.img, dirty := false, loaded := false, cacheIdx := none } ∧
      ∀ a, Memory.get t.img a =
        if s.variant = .modern ∧ s.readOnly = false ∧ 36 ≤ a ∧ a < 40 then BitVec.ofNat 8 (s.pos / 256 ^ (a - 36))
        else if s.dirty = true ∧ a = hdr s + s.pos / 8 then s.cacheByte
        else Memory.get s.img a := by
  obtain ⟨u, hflush, hframe, hmu, -⟩ := flush_spec hm ht hl
  have hstaged := flush_get hm ht hl hflush
  have hfits : u.variant = .modern → 40 ≤ u.fileSize := by
    intro hv
    have hheader := ht.header hl
    rw [hframe] at hv ⊢
    rwa [hdr, show s.variant = .modern from hv] at hheader
  obtain ⟨v, hpersist, hframe', hposition⟩ := persistPosition_spec hmu hfits
  refine ⟨{ v with loaded := false, cacheIdx := none }, ?_, ?_, fun a => ?_⟩
  · simp only [closeImage, hflush, hpersist, ok_bind]
  · dsimp only
    generalize v.img = b at hframe'
    generalize u.img = c at hframe
    rw [hframe', hframe]
  · have hsame : u.variant = s.variant ∧ u.readOnly = s.readOnly ∧ u.pos = s.pos := by rw [hframe]; exact ⟨rfl, rfl, rfl⟩
    obtain ⟨hvariant, hreadOnly, hpos⟩ := hsame
    have hbyte := hposition a
    rw [hvariant, hreadOnly, hpos, hstaged a] at hbyte
    exact hbyte

/-- Settles O11: the image is closed, and with no tape and no worker the sensor byte is 0x00. -/
theorem ejectClosesTheTape : Obligations.EjectClosesTheTape := by
  refine ⟨fun s hm => if_pos hm, fun s hm ht hl hmode hw => ?_⟩
  obtain ⟨c, hclose, hframe, hbytes⟩ := closeImage_spec hm ht hl
  refine ⟨notify .eject (publishSensor { c with mode := .eject, running := false, recEntered := false }), ?_, ?_, hbytes⟩
  · rw [exec_eject_of_tape hmode, stopWorker_of_no_worker hw, finishEject, withTape, if_pos hl, ejectTape, hclose]
    rfl
  · have hsensor : sensor { c with mode := .eject, running := false, recEntered := false } = 0x00 :=
      sensor_of_idle rfl (by rw [hframe])
    rw [publishSensor_sends, sensorFrame, hsensor, notify_eq]
    dsimp only
    generalize c.img = b at hframe
    rw [hframe]
    rfl

/-! ### The trap entry (R305) -/

/-- A RECORD worker's exit with no writer left, whole. -/
theorem workerExit_record_eq {s : State} (self : Bool) (hm : s.workerMode = .record) (hw : s.writerAlive = false) :
    workerExit self s = { s with
      runFlag := false
      outValid := false
      running := false
      mode := if self then .stop else s.mode
      recEntered := if self then false else s.recEntered
      workerAlive := false
      workerAt := .top
      rspQ := sentFrames s [sensorFrame { s with running := false }, ackFrame s] } := by
  rw [workerExit_of_no_writer self hm hw, finishExit_eq, finishExit_rspQ]
  rfl

/-- Settles O18: the two ways of `worker_exit`, and where a RECORD worker comes to it. -/
theorem workerExitIsTheTrapEntry : Obligations.WorkerExitIsTheTrapEntry := by
  refine fun s self => ⟨fun h => ?gone, workerExit_of_writer self, fun ha hl hat => ⟨fun hw => ?holds, fun hw hm hf => ?leaves⟩,
    iterateRec_of_writer_gone⟩
  case gone =>
    by_cases hm : s.workerMode = .record
    · rw [workerExit_record_eq self hm (h.resolve_left fun hne => hne hm), if_pos hm]
    · rw [workerExit_eq self hm, if_neg hm]
  case holds =>
    have hholds : workerHolds s = true := by simp [workerHolds, hat, hw]
    simp only [agentStep, workerStep, hholds, if_true]
  case leaves => rw [agentStep_worker_leaves_hold hl ha hat hw, workerExit_of_no_writer self hm hw, ← hf]

/-! ### The rate classes (R9, R284) -/

/-- R284: a rate that is none of the three is left to RATE_CLASS_OTHER. -/
theorem rateClassOf_other (p : Params) {t : Nat} (alt : Bool) (h1 : t ≠ 48000) (h2 : t ≠ 44100) (h3 : t ≠ 32000) :
    rateClassOf p t alt = rateClassOther p t alt := by
  rw [rateClassOf, if_neg h1, if_neg h2, if_neg h3]

/-- Settles O26: the three rates of the table, every other one, and the rate of each class. -/
theorem rateClassMap : Obligations.RateClassMap :=
  ⟨fun _ _ => ⟨rfl, rfl, rfl⟩, rateClassOf_other, fun _ => ⟨rfl, rfl, rfl, rfl⟩⟩

end Sys2Proof.Proofs
end

section
/-! SUPPORT. The last statement of the family 45_commands.md: STOP while a worker is alive, to its one acknowledgement (R212, R232,
R291, R305, R307). -/

namespace Sys2Proof.Proofs

open Sys2Proof.Machine Sys2Proof.Laws

/-! ### The worker's exit and the end of STOP's join (R291, R305) -/

theorem runTurns_append {as : List Agent} {s t : State} (h : runTurns as s = .next t) (bs : List Agent) :
    runTurns (as ++ bs) s = runTurns bs t := by
  induction as generalizing s with
  | nil => rw [next_inj.1 h]; rfl
  | cons a as ih =>
    unfold runTurns at h
    split at h
    · rename_i u hu
      rw [List.cons_append, runTurns_cons hu, ih h]
    · cases h
    · cases h

/-- R308: what is sent, gated or not. -/
theorem stoppedAfter_sends (s : State) :
    (stoppedAfter s).rspQ = sentFrames s [sensorFrame { s with running := false }, ackFrame s] :=
  finishExit_rspQ false s

/-- Once the worker is gone, the dispatcher's join ends in mode STOP. -/
theorem runTurns_joined {s : State} (hj : s.dispatcherAt = .joining .stop) :
    runTurns [.dispatcher] (finishExit false s) = .next (stoppedAfter s) :=
  runTurns_cons (agentStep_dispatcher_joined (s := finishExit false s) hj rfl)

/-- A cancelled worker in its hold on the outbound chunk leaves, whether the chunk is taken or not (R198, R304). -/
theorem agentStep_worker_cancelled_takeHold {s : State} {eot : Bool} (hl : s.loaded = true) (ha : s.workerAlive = true)
    (hat : s.workerAt = .takeHold eot) (hf : s.runFlag = false) : agentStep .worker s = .next (workerExit false s) := by
  rw [agentStep_worker_turn hl (by simp [workerHolds, ha, hat, hf])]
  simp [workerTurn, hat, afterTake, hf]

theorem agentStep_worker_dead {s : State} (ha : s.workerAlive = false) : agentStep .worker s = .next s :=
  if_pos (by simp [workerHolds, ha])

/-- STOP of a worker with no writer: the worker exits in its turn, and the join ends. -/
theorem runTurns_worker_exits {s : State} (hj : s.dispatcherAt = .joining .stop)
    (hexit : agentStep .worker s = .next (finishExit false s)) :
    runTurns [.worker, .dispatcher] s = .next (stoppedAfter s) :=
  (runTurns_cons hexit).trans (runTurns_joined hj)

/-! ### The writer's turns in a cancelled session (R211, R212, R232) -/

/-- On an open tape a host bit answers, and it ends the session only at the end of the tape (R213). -/
theorem recStep_answers {s : State} (v : Bit) (hwf : s.params.wf = true) (h : OpenSession s) :
    ∃ t, recStep v s = .ok t ∧ (t.ended = true → t.pos = t.totalBits) := by
  obtain ⟨hm, ht, hl, he⟩ := h
  have at_end {p : Nat} {t : State} (hpos : t.pos = min s.totalBits p) (hended : t.ended = decide (s.totalBits < p))
      (htotal : t.totalBits = s.totalBits) (hend : t.ended = true) : t.pos = t.totalBits := by
    have hover : s.totalBits < p := of_decide_eq_true (hended.symm.trans hend)
    rw [hpos, htotal]
    exact Nat.min_eq_left hover.le
  have goes_on {t : State} (hended : t.ended = s.ended) (hend : t.ended = true) : t.pos = t.totalBits :=
    absurd (he.symm.trans (hended.symm.trans hend)) (by decide)
  cases hs : s.recStrategy with
  | edge =>
    cases hphase : s.phase with
    | scan =>
      have hstep : recStep v s = edgeScan v s := by simp only [recStep, hs, edgeStep, hphase]
      by_cases hedge : s.prev = false ∧ v = true
      · obtain ⟨t, hgap, -, -, hframe, -⟩ := scanGap_spec hm ht hl he
        refine ⟨{ t with phase := .advance, k := 0, n := 0, prev := v }, ?_, ?_⟩
        · rw [hstep, edgeScan, if_pos hedge, hgap, ok_bind]
        · exact at_end (by rw [hframe]) (by rw [hframe]) (by rw [hframe])
      · exact ⟨_, hstep.trans (if_neg hedge), goes_on rfl⟩
    | advance =>
      have hstep : recStep v s = edgeAdvance v s := by simp only [recStep, hs, edgeStep, hphase]
      by_cases hk : s.k + 1 = sampleOffset (hostRate s)
      · obtain ⟨t, hadvance, -, -, hframe, -⟩ := edgeAdvance_spec v hm ht hl he hk
        exact ⟨t, hstep.trans hadvance, at_end (by rw [hframe]) (by rw [hframe]) (by rw [hframe])⟩
      · exact ⟨_, hstep.trans (if_neg hk), goes_on rfl⟩
  | raw =>
    obtain ⟨c, hfuel, hlow, hhigh⟩ := windows_exist (s.w - (s.t : Int)) (hostRate_pos hwf)
    obtain ⟨t, hloop, -, -, hframe, -⟩ :=
      rawLoop_spec (s := { s with vote := s.vote + (if v then 1 else -1), w := s.w - (s.t : Int) })
        (memInv_congr hm) (tapeInv_congr ht) hl he hfuel hlow hhigh
    refine ⟨t, ?_, at_end (by rw [hframe]) (by rw [hframe]) (by rw [hframe])⟩
    simp only [recStep, hs]
    exact hloop

/-- A record session that has been cancelled and whose writer still runs. -/
structure CancelledSession (s : State) : Prop extends OpenSession s where
  params : s.params.wf = true
  port   : PortInv s
  writer : s.writerAlive = true
  cancel : s.runFlag = false

/-- The writer is gone, with its tape flushed: it has consumed the buffered chunks, or the tape has ended. -/
structure WriterEnded (s : State) : Prop where
  gone     : s.writerAlive = false
  ended    : s.ended = true
  flushed  : s.dirty = false
  consumed : s.slotFull = false ∨ s.pos = s.totalBits

/-- The exit of the worker and the end of the join leave the writer's end as it is. -/
theorem writerEnded_stoppedAfter {s : State} (h : WriterEnded s) : WriterEnded (stoppedAfter s) := by
  rw [stoppedAfter_eq]
  exact ⟨h.gone, h.ended, h.flushed, h.consumed⟩

/-- The turns that the buffered chunks still take: one for each host bit of the scratch chunk, and one to take the chunk of the slot
and one for each of its host bits. -/
def bufferedTurns (s : State) : Nat :=
  (if s.slotFull then 8 * s.params.chunkBytes + 1 else 0) + (if s.sValid then 8 * s.params.chunkBytes - s.spos else 0)

/-- Only the image store, the tape cursor, the transport registers and the writer's own registers differ. -/
def SessionOnly (s t : State) : Prop :=
  t = { s with
    img := t.img, pos := t.pos, cacheIdx := t.cacheIdx, cacheByte := t.cacheByte, dirty := t.dirty
    acc := t.acc, ended := t.ended, w := t.w, vote := t.vote, last := t.last
    phase := t.phase, prev := t.prev, n := t.n, k := t.k
    ign := t.ign, maj := t.maj, mis := t.mis, mat := t.mat, seen := t.seen, found := t.found
    scr := t.scr, spos := t.spos, sValid := t.sValid, slotFull := t.slotFull, writerAlive := t.writerAlive }

theorem sessionOnly_trans {s t u : State} (h1 : SessionOnly s t) (h2 : SessionOnly t u) : SessionOnly s u := by
  unfold SessionOnly at *
  rw [h2, h1]

theorem sessionOnly_writer {s t : State} (h : agentStep .writer s = .next t) : SessionOnly s t := by
  obtain ⟨-, rfl⟩ | ⟨-, -, -, h⟩ := writerStep_cases h
  · rfl
  · obtain ⟨d, u, hd, hk, ht⟩ := writerTurn_frame h
    unfold SessionOnly
    rw [ht, hk.frame, hd]

/-- A turn after which the writer still runs leaves the session cancelled and open. -/
theorem cancelledSession_turn {s t : State} (h : CancelledSession s) (hturn : agentStep .writer s = .next t)
    (hw : t.writerAlive = true) (he : t.ended = false) : CancelledSession t := by
  have hframe := sessionOnly_writer hturn
  exact
    { mem := (tapeFixed_writerStep hturn).mem h.mem
      tape := tapeInv_writerStep h.mem h.tape hturn
      loaded := by rw [hframe]; exact h.loaded
      going := he
      params := by rw [hframe]; exact h.params
      port := portInv_writerStep h.port hturn
      writer := hw
      cancel := by rw [hframe]; exact h.cancel }

/-- The turn on a host bit of the scratch chunk ends the session at the end of the tape, or leaves one bit less. -/
theorem agentStep_writer_session_bit {s : State} (h : CancelledSession s) (hr : scratchReady s = true) :
    ∃ t, agentStep .writer s = .next t ∧
      (WriterEnded t ∨ (CancelledSession t ∧ bufferedTurns t < bufferedTurns s)) := by
  obtain ⟨hv, hlt⟩ := scratchReady_iff.1 hr
  obtain ⟨hlen, -⟩ := h.port.scratch hv
  obtain ⟨b, hbit⟩ : ∃ b, chunkBit s.scr s.spos = some b := ⟨_, chunkBit_of_lt (by rw [hlen]; exact hlt)⟩
  have hturn := agentStep_writer_bit h.writer h.loaded hr hbit
  have hopen : OpenSession { s with spos := s.spos + 1 } :=
    ⟨memInv_congr h.mem, tapeInv_congr h.tape, h.loaded, h.going⟩
  obtain ⟨u, hstep, hend⟩ := recStep_answers (s := { s with spos := s.spos + 1 }) (!b) h.params hopen
  have hkept := tapeKept_recStep hstep
  cases hu : u.ended with
  | false =>
    rw [writerBit_goes_on hstep hu, andThen_ok] at hturn
    refine ⟨u, hturn, .inr ⟨cancelledSession_turn h hturn (by rw [hkept.frame]; exact h.writer) hu, ?_⟩⟩
    rw [hkept.frame]
    simp only [bufferedTurns, hv, if_true]
    omega
  | true =>
    obtain ⟨x, hflush, hframe, -⟩ := flush_spec (hkept.mem hopen.mem) (hkept.tape hopen.mem hopen.tape hopen.loaded)
      ((datapathOnly_loaded hkept.frame).trans hopen.loaded)
    rw [writerBit_ends hstep hu hflush, andThen_ok] at hturn
    exact ⟨_, hturn, .inl
      { gone := rfl
        ended := by rw [hframe]; exact hu
        flushed := by rw [hframe]
        consumed := .inr (by rw [hframe]; exact hend hu) }⟩

/-- One turn of the writer of a cancelled session: the session ends, or one of the turns of the buffered chunks is done. -/
theorem agentStep_writer_session {s : State} (h : CancelledSession s) :
    ∃ t, agentStep .writer s = .next t ∧
      (WriterEnded t ∨ (CancelledSession t ∧ bufferedTurns t < bufferedTurns s)) := by
  cases hr : scratchReady s with
  | true => exact agentStep_writer_session_bit h hr
  | false =>
    cases hslot : s.slotFull with
    | true =>
      have hturn := agentStep_writer_takes_chunk h.writer h.loaded hr hslot
      refine ⟨_, hturn, .inr ⟨cancelledSession_turn h hturn h.writer h.going, ?_⟩⟩
      simp only [bufferedTurns, hslot, if_true, Bool.false_eq_true, if_false]
      omega
    | false =>
      obtain ⟨u, hend, hframe, -⟩ := cancelEnd_writerExit_spec (s := { s with sValid := false })
        ⟨memInv_congr h.mem, tapeInv_congr h.tape, h.loaded, h.going⟩
      have hturn := agentStep_writer_cancelled h.writer h.loaded hr hslot h.cancel
      rw [hend, andThen_ok] at hturn
      exact ⟨u, hturn, .inl
        { gone := by rw [hframe]
          ended := by rw [hframe]
          flushed := by rw [hframe]
          consumed := .inl (by rw [hframe]; exact hslot) }⟩

/-- After enough turns of its own the writer of a cancelled session is gone (R212, R228, R232). -/
theorem runTurns_writer_ends {s : State} (h : CancelledSession s) :
    ∃ m t, runTurns (List.replicate m .writer) s = .next t ∧ SessionOnly s t ∧ WriterEnded t := by
  induction hn : bufferedTurns s using Nat.strong_induction_on generalizing s with
  | _ n ih =>
    obtain ⟨u, hturn, hended | ⟨hu, hless⟩⟩ := agentStep_writer_session h
    · exact ⟨1, u, runTurns_cons hturn, sessionOnly_writer hturn, hended⟩
    · obtain ⟨m, t, hrest, hframe, hended⟩ := ih _ (hn ▸ hless) hu rfl
      exact ⟨m + 1, t, (runTurns_cons hturn).trans hrest, sessionOnly_trans (sessionOnly_writer hturn) hframe, hended⟩

/-! ### STOP of a running worker (R307) -/

/-- A worker outside RECORD, at the top of its loop or in its hold on the outbound chunk. -/
theorem runTurns_stop_playing {s : State} (hl : s.loaded = true) (ha : s.workerAlive = true) (hm : s.workerMode ≠ .record)
    (hat : s.workerAt = .top ∨ ∃ eot, s.workerAt = .takeHold eot) (hf : s.runFlag = false)
    (hj : s.dispatcherAt = .joining .stop) : runTurns [.worker, .dispatcher] s = .next (stoppedAfter s) := by
  have hexit : workerExit false s = finishExit false s := if_neg hm
  refine runTurns_worker_exits hj ?_
  rw [← hexit]
  obtain hat | ⟨eot, hat⟩ := hat
  · exact agentStep_worker_cancelled hl ha (.inl hat) hf
  · exact agentStep_worker_cancelled_takeHold hl ha hat hf

/-- A RECORD worker whose writer is gone exits in its first turn. -/
theorem runTurns_stop_writerless {s : State} (hl : s.loaded = true) (ha : s.workerAlive = true)
    (hm : s.workerMode = .record) (hat : s.workerAt = .top ∨ s.workerAt = .offerHold) (hf : s.runFlag = false)
    (hj : s.dispatcherAt = .joining .stop) (hw : s.writerAlive = false) :
    runTurns [.worker, .worker, .dispatcher] s = .next (stoppedAfter s) := by
  have hexit : agentStep .worker s = .next (finishExit false s) := by
    rw [agentStep_worker_cancelled hl ha hat hf, workerExit_of_no_writer false hm hw, ← hf]
  rw [runTurns_cons hexit, runTurns_cons (agentStep_worker_dead (s := finishExit false s) rfl), runTurns_joined hj]

/-- A RECORD worker waits for its writer, which ends the session, and then exits. -/
theorem runTurns_stop_recording {s : State} (h : CancelledSession s) (ha : s.workerAlive = true)
    (hm : s.workerMode = .record) (hat : s.workerAt = .top ∨ s.workerAt = .offerHold)
    (hj : s.dispatcherAt = .joining .stop) :
    ∃ m u, runTurns (.worker :: List.replicate m .writer ++ [.worker, .dispatcher]) s = .next (stoppedAfter u) ∧
      SessionOnly { s with workerAt := .exitHold false } u ∧ WriterEnded u := by
  have hwaits : agentStep .worker s = .next { s with workerAt := .exitHold false } := by
    rw [agentStep_worker_cancelled h.loaded ha hat h.cancel, workerExit_of_writer false hm h.writer, ← h.cancel]
  have hsession : CancelledSession { s with workerAt := .exitHold false } :=
    { h with mem := memInv_congr h.mem, tape := tapeInv_congr h.tape, port := portInv_mono h.port }
  obtain ⟨m, u, hrun, hframe, hended⟩ := runTurns_writer_ends hsession
  refine ⟨m, u, ?_, hframe, hended⟩
  have hleaves : agentStep .worker u = .next (finishExit false u) :=
    agentStep_worker_leaves_hold (by rw [hframe]; exact h.loaded) (by rw [hframe]; exact ha) (by rw [hframe]) hended.gone
  rw [List.cons_append, runTurns_cons hwaits, runTurns_append hrun,
    runTurns_worker_exits (by rw [hframe]; exact hj) hleaves]

/-- Settles O45: the cancelled worker exits, in RECORD once its writer has ended the session, and the join leaves mode STOP. -/
theorem stopEndsTheRunningMode : Obligations.StopEndsTheRunningMode := by
  refine ⟨fun s hl ha _ hm hat => ⟨_, exec_stop_cancels ha, ?playing⟩,
    fun s hwf hmem ht hp hl ha hm hat hgoing => ⟨_, exec_stop_cancels ha, ?recording⟩⟩
  case playing =>
    rw [runTurns_stop_playing (s := { s with runFlag := false, dispatcherAt := .joining .stop }) hl ha hm hat rfl rfl,
      stoppedAfter_eq, stoppedAfter_sends]
    rfl
  case recording =>
    by_cases hw : s.writerAlive = true
    · have hsession : CancelledSession { s with runFlag := false, dispatcherAt := .joining .stop } :=
        { mem := memInv_congr hmem, tape := tapeInv_congr ht, loaded := hl, going := hgoing hw, params := hwf
          port := portInv_mono hp, writer := hw, cancel := rfl }
      obtain ⟨m, u, hrun, hframe, hended⟩ := runTurns_stop_recording hsession ha hm hat rfl
      obtain ⟨hgone, hended, hflushed, hconsumed⟩ := writerEnded_stoppedAfter hended
      refine ⟨m, stoppedAfter u, hrun, rfl, rfl, rfl, hgone, rfl, rfl, ?_, fun _ => ⟨hended, hflushed, hconsumed⟩⟩
      rw [stoppedAfter_sends, hframe]
      rfl
    · have hgone : s.writerAlive = false := by simpa using hw
      have hrun := runTurns_stop_writerless (s := { s with runFlag := false, dispatcherAt := .joining .stop })
        hl ha hm hat rfl rfl hgone
      exact ⟨0, _, hrun, rfl, rfl, rfl, by rw [stoppedAfter_eq]; exact hgone, rfl, rfl, stoppedAfter_sends _,
        fun hw' => absurd hw' hw⟩

end Sys2Proof.Proofs
end

section
/-! SUPPORT. The statements of the family 60_exceptions.md: the holds of the agents, the error items and their place in the queue,
the device gate, and who enters a mode (R309, R343 to R345, R350, R367, R369). -/

namespace Sys2Proof.Proofs

open Sys2Proof.Machine Sys2Proof.Laws

/-! ### An agent that holds (R369) -/

theorem receiverStep_of_holds {s : State} (h : receiverHolds s = true) : receiverStep s = .next s := by
  obtain hg | hp := (Bool.or_eq_true _ _).mp h
  · exact if_pos hg
  · simp [receiverStep, List.isEmpty_iff.1 hp]

theorem dispatcherStep_of_holds {s : State} (h : dispatcherHolds s = true) : dispatcherStep s = .next s := by
  unfold dispatcherHolds at h
  split at h
  · rename_i hidle
    simp [dispatcherStep, hidle, List.isEmpty_iff.1 h]
  · rename_i k hk
    simp [dispatcherStep, hk, h]

/-- The host holds with its script done, or before an action that waits for the port (R97 to R100, R361). -/
theorem hostStep_of_holds {s : State} (h : hostHolds s = true) : hostStep s = .next s := by
  cases hh : s.host with
  | nil => simp [hostStep, hh]
  | cons act rest =>
    simp only [hostHolds, hh] at h
    rw [show hostStep s = hostAct act rest s from agentStep_host hh]
    cases act with
    | takeChunk => exact congrArg _ (if_neg (by simpa using h))
    | offerChunk bytes =>
      obtain ⟨hlen, ho⟩ : bytes.length = s.params.chunkBytes ∧ s.offer.isSome = true := by simpa using h
      exact (offerChunk_spec bytes rest s).2.1 hlen (Option.isSome_iff_ne_none.1 ho)
    | takeFrame => exact congrArg _ (takeFrame_nil rest (List.isEmpty_iff.1 h))
    | takeEvent =>
      refine congrArg Host.Outcome.next ?_
      cases hq : s.evtQ with
      | nil => exact takeEvent_nil rest hq
      | cons e q => rw [takeEvent_cons rest hq, if_neg (by simpa [hq] using h)]
    | pushPort _ | issue _ | insert _ _ | setAltRate _ | setRecConv _ | readStatus _ | listen | deviceError
    | deviceDisconnected | readImage _ | writeImage _ _ | reset => cases h

theorem agentStep_of_holds {a : Agent} {s : State} (h : holds a s = true) : agentStep a s = .next s := by
  cases a with
  | receiver => exact receiverStep_of_holds h
  | dispatcher => exact dispatcherStep_of_holds h
  | worker => exact if_pos h
  | writer => exact if_pos h
  | host => exact hostStep_of_holds h

/-- R369: the schedule's head is the agent that moves. -/
theorem step_of_sched {a : Agent} {rest : List Agent} {s : State} (h : s.sched = a :: rest) :
    step s = mapNext observe (agentStep a { s with sched := rest }) := by
  simp [step, turn, nextAgent, h]

/-- Settles O5: each agent's turn tests its hold first. -/
theorem holdingAgentTakesNoStep : Obligations.HoldingAgentTakesNoStep :=
  ⟨fun _ _ => agentStep_of_holds, fun _ _ _ => step_of_sched⟩

/-! ### The error items (R343, R345) -/

/-- An error item goes behind the error items and before everything else (R350). -/
theorem insertError_eq (e : CmdItem) (q : List CmdItem) :
    insertError e q = q.takeWhile isErrorItem ++ e :: q.dropWhile isErrorItem := by
  induction q with
  | nil => rfl
  | cons x q ih =>
    cases hx : isErrorItem x with
    | true => simp [insertError, hx, ih]
    | false => simp [insertError, hx]

theorem deviceError_of_open {s : State} (h : gated s = false) :
    deviceError s = { s with devError := true, cmdQ := insertError .devErr s.cmdQ } :=
  if_neg (by simp [h])

theorem deviceDisconnected_of_connected {s : State} (h : s.disconnected = false) :
    deviceDisconnected s = { s with disconnected := true, cmdQ := insertError .disconn s.cmdQ } :=
  if_neg (by simp [h])

theorem runItem_devErr (s : State) :
    runItem .devErr s = stopWorker .devErr (fun s1 => .next (finishError .deviceError s1)) s := rfl

theorem runItem_disconn (s : State) :
    runItem .disconn s = stopWorker .disconn (fun s1 => .next (finishError .deviceDisconnected s1)) s := rfl

/-- The dispatcher takes an error item: it cancels the worker, or ends the mode at once and sends the item's event `e` (R282,
R343, R345). -/
theorem agentStep_dispatcher_errorItem {x : CmdItem} {k : Join} {e : Event}
    (hrun : ∀ s, runItem x s = stopWorker k (fun s1 => .next (finishError e s1)) s) {s : State} {q : List CmdItem}
    (hi : s.dispatcherAt = .idle) (hq : s.cmdQ = x :: q) :
    (s.workerAlive = true → agentStep .dispatcher s =
      .next { s with cmdQ := q, runFlag := false, dispatcherAt := .joining k }) ∧
    (s.workerAlive = false → agentStep .dispatcher s = .next (finishError e { s with cmdQ := q })) := by
  have hturn : agentStep .dispatcher s = runItem x { s with cmdQ := q } := by
    simp only [agentStep, dispatcherStep, hi, hq]
  rw [hturn, hrun]
  exact ⟨stopWorker_of_worker (s := { s with cmdQ := q }), stopWorker_of_no_worker (s := { s with cmdQ := q })⟩

/-- Settles O19: both items are `stop_worker` and then the same end with their own event, at once or after the join. -/
theorem deviceErrorStopsTheMode : Obligations.DeviceErrorStopsTheMode := by
  refine ⟨fun s he hd => ?error, fun s hg => if_pos (gated_eq_true hg),
    fun s q => agentStep_dispatcher_errorItem runItem_devErr, fun s => agentStep_dispatcher_joined,
    fun s hd => ?disconnect, fun s hd => if_pos hd,
    fun s q => agentStep_dispatcher_errorItem runItem_disconn, fun s => agentStep_dispatcher_joined⟩
  case error => rw [deviceError_of_open (gated_eq_false he hd), insertError_eq]
  case disconnect => rw [deviceDisconnected_of_connected hd, insertError_eq]

/-! ### What a turn does to the mode and the worker (R309, R367) -/

/-- The mode, and whether a worker is alive, are as before. -/
structure AgentsKept (s t : State) : Prop where
  mode   : t.mode = s.mode
  worker : t.workerAlive = s.workerAlive

/-- No worker is started, and the mode is left, if at all, by a worker's exit to STOP (R305). -/
structure ExitsOnly (s t : State) : Prop where
  mode   : t.mode = s.mode ∨ (t.mode = .stop ∧ t.workerAlive = false)
  worker : s.workerAlive = false → t.workerAlive = false

/-- No worker is started and no running mode entered (R309). -/
structure StartsNothing (s t : State) : Prop where
  mode   : t.mode = s.mode ∨ isRunningMode t.mode = false
  worker : s.workerAlive = false → t.workerAlive = false

theorem AgentsKept.exitsOnly {s t : State} (h : AgentsKept s t) : ExitsOnly s t := ⟨.inl h.mode, h.worker.trans⟩

theorem ExitsOnly.startsNothing {s t : State} (h : ExitsOnly s t) : StartsNothing s t :=
  ⟨h.mode.imp_right fun ⟨hstop, _⟩ => by rw [hstop]; rfl, h.worker⟩

theorem AgentsKept.startsNothing {s t : State} (h : AgentsKept s t) : StartsNothing s t := h.exitsOnly.startsNothing

theorem exitsOnly_after {s u t : State} (h : AgentsKept s u) (hexit : ExitsOnly u t) : ExitsOnly s t :=
  ⟨by rw [← h.mode]; exact hexit.mode, hexit.worker ∘ h.worker.trans⟩

theorem startsNothing_trans {s u t : State} (h1 : StartsNothing s u) (h2 : StartsNothing u t) : StartsNothing s t := by
  refine ⟨?_, h2.worker ∘ h1.worker⟩
  obtain hsame | hidle := h2.mode
  · rw [hsame]; exact h1.mode
  · exact .inr hidle

/-! #### The writer, the receiver and the host -/

theorem agentsKept_tapeKept {s t : State} (h : TapeKept s t) : AgentsKept s t := by
  rw [h.frame]; exact ⟨rfl, rfl⟩

theorem agentsKept_writerStep {s t : State} (h : writerStep s = .next t) : AgentsKept s t := by
  obtain ⟨-, rfl⟩ | ⟨-, -, -, h⟩ := writerStep_cases h
  · exact ⟨rfl, rfl⟩
  · obtain ⟨d, u, hd, hk, ht⟩ := writerTurn_frame h
    rw [ht, hk.frame, hd]
    exact ⟨rfl, rfl⟩

theorem agentsKept_receiverStep {s t : State} (h : receiverStep s = .next t) : AgentsKept s t := by
  obtain rfl | ⟨b, rest, -, -, rfl⟩ := receiverStep_cases h
  · exact ⟨rfl, rfl⟩
  · exact ⟨rfl, rfl⟩

/-- Only the host's reset reaches the mode or the worker (R365, R380). -/
theorem hostStep_agents {s t : State} (h : hostStep s = .next t) :
    AgentsKept s t ∨ (s.host.head? = some .reset ∧ t.mode = .eject ∧ t.workerAlive = false) := by
  obtain ⟨-, rfl⟩ | ⟨act, rest, hh, h⟩ := hostStep_cases h
  · exact .inl ⟨rfl, rfl⟩
  · obtain rfl | ⟨a, v, rfl⟩ | e := hostAct_frame h
    · cases h; exact .inr ⟨by rw [hh]; rfl, rfl, rfl⟩
    · obtain ⟨-, -, rfl⟩ := hostWrite_cases h
      exact .inl ⟨rfl, rfl⟩
    · rw [e]; exact .inl ⟨rfl, rfl⟩

/-! #### The worker -/

theorem exitsOnly_finishExit (self : Bool) (s : State) : ExitsOnly s (finishExit self s) := by
  cases self with
  | false => exact ⟨.inl rfl, fun _ => rfl⟩
  | true => exact ⟨.inr ⟨rfl, rfl⟩, fun _ => rfl⟩

theorem exitsOnly_workerExit (self : Bool) (s : State) : ExitsOnly s (workerExit self s) := by
  obtain ⟨-, -, e⟩ | ⟨-, f, e⟩ := workerExit_cases self s
  · rw [e]; exact ⟨.inl rfl, id⟩
  · rw [e]; exact exitsOnly_after (u := { s with runFlag := f }) ⟨rfl, rfl⟩ (exitsOnly_finishExit self _)

theorem exitsOnly_iterateRec (s : State) : ExitsOnly s (iterateRec s) := by
  obtain ⟨-, e⟩ | ⟨-, -, e⟩ | ⟨-, -, chunk, -, -, e⟩ | ⟨-, -, e⟩ := iterateRec_cases s
  · rw [e]; exact exitsOnly_workerExit false s
  · rw [e]; exact exitsOnly_workerExit true s
  · rw [e]; exact ⟨.inl rfl, id⟩
  · rw [e]; exact ⟨.inl rfl, id⟩

theorem exitsOnly_iterate {s t : State} (h : iterate s = .ok t) : ExitsOnly s t := by
  obtain ⟨-, rfl⟩ | ⟨-, u, hk, hcase⟩ := iterate_cases h
  · exact exitsOnly_iterateRec s
  · refine exitsOnly_after (agentsKept_tapeKept hk) ?_
    obtain rfl | rfl | ⟨-, out, eot, -, -, rfl⟩ := hcase
    · exact ⟨.inl rfl, id⟩
    · exact exitsOnly_workerExit true u
    · exact ⟨.inl rfl, id⟩

theorem exitsOnly_afterTake (eot : Bool) (s : State) : ExitsOnly s (afterTake eot s) := by
  obtain ⟨-, e⟩ | ⟨-, -, e⟩ | ⟨-, -, e⟩ := afterTake_cases eot s
  · rw [e]; exact exitsOnly_workerExit false s
  · rw [e]; exact exitsOnly_workerExit true s
  · rw [e]; exact ⟨.inl rfl, id⟩

theorem exitsOnly_workerStep {s t : State} (h : workerStep s = .next t) : ExitsOnly s t := by
  obtain ⟨-, rfl⟩ | ⟨-, -, -, hturn⟩ := workerStep_cases h
  · exact ⟨.inl rfl, id⟩
  · obtain ⟨-, -, rfl⟩ | ⟨-, -, hi⟩ | ⟨eot, -, rfl⟩ | ⟨-, rfl⟩ | ⟨self, -, rfl⟩ := workerTurn_cases hturn
    · exact exitsOnly_workerExit false s
    · exact exitsOnly_after (u := drawUpdate s) ⟨rfl, rfl⟩ (exitsOnly_iterate hi)
    · exact exitsOnly_afterTake eot s
    · exact exitsOnly_iterateRec s
    · exact exitsOnly_finishExit self s

/-- A turn of another agent than the dispatcher, but for the host's reset (R367). -/
theorem exitsOnly_agentStep {a : Agent} {s t : State} (ha : a ≠ .dispatcher)
    (hreset : ¬ (a = .host ∧ s.host.head? = some .reset)) (h : agentStep a s = .next t) :
    ExitsOnly s t ∧ (t.mode = s.mode ∨ a = .worker) := by
  cases a with
  | receiver =>
    have hkept := agentsKept_receiverStep h
    exact ⟨hkept.exitsOnly, .inl hkept.mode⟩
  | dispatcher => exact absurd rfl ha
  | worker => exact ⟨exitsOnly_workerStep h, .inr rfl⟩
  | writer =>
    have hkept := agentsKept_writerStep h
    exact ⟨hkept.exitsOnly, .inl hkept.mode⟩
  | host =>
    have hkept := (hostStep_agents h).resolve_right fun hr => hreset ⟨rfl, hr.1⟩
    exact ⟨hkept.exitsOnly, .inl hkept.mode⟩

/-- Settles O60: the writer, the receiver and the host leave the mode and the worker alone, and the worker only exits. -/
theorem onlyTheDispatcherEntersModes : Obligations.OnlyTheDispatcherEntersModes := by
  intro s t h hreset
  obtain ⟨u, hu, rfl⟩ := step_next_iff.1 h
  rw [observe_eq]
  by_cases hd : nextAgent s = .dispatcher
  · exact ⟨fun _ _ => hd, fun _ => .inl hd⟩
  · obtain ⟨hexit, hwho⟩ := exitsOnly_agentStep (s := { s with sched := s.sched.tail }) hd hreset hu
    refine ⟨fun hno halive => absurd ((hexit.worker hno).symm.trans halive) (by decide), fun hm => .inr ?_⟩
    exact ⟨hwho.resolve_left hm, hexit.mode.resolve_left hm⟩

/-! #### The dispatcher -/

/-- A turn of the dispatcher that starts nothing, and leaves what is behind its item in the queue as it was. -/
structure QuietTurn (s t : State) : Prop extends StartsNothing s t where
  cmdQ : t.cmdQ = s.cmdQ

/-- What the dispatcher does once it has taken its item: it starts nothing, or it starts a mode with the gate open (R283, R309,
R344). -/
inductive DispatcherResult (s : State) : State → Prop
  | quiet {t : State} : QuietTurn s t → DispatcherResult s t
  | start {m : Mode} {t : State} : gated s = false → finishStart m s = .next t → DispatcherResult s t

theorem quietTurn_trans {s u t : State} (h1 : QuietTurn s u) (h2 : QuietTurn u t) : QuietTurn s t :=
  ⟨startsNothing_trans h1.toStartsNothing h2.toStartsNothing, h2.cmdQ.trans h1.cmdQ⟩

theorem quietTurn_refl (s : State) : QuietTurn s s := ⟨⟨.inl rfl, id⟩, rfl⟩

/-- R291, R343: the mode becomes STOP with a tape loaded, and stays with none. -/
theorem stopIfLoaded_not_running (s : State) :
    (if s.loaded then Mode.stop else s.mode) = s.mode ∨ isRunningMode (if s.loaded then Mode.stop else s.mode) = false := by
  cases s.loaded with
  | false => exact .inl rfl
  | true => exact .inr rfl

theorem quietTurn_idleStop (s : State) : QuietTurn s (idleStop s) := ⟨⟨stopIfLoaded_not_running s, id⟩, rfl⟩

theorem quietTurn_finishError (e : Event) (s : State) : QuietTurn s (finishError e s) := ⟨⟨stopIfLoaded_not_running s, id⟩, rfl⟩

theorem quietTurn_finishStop (s : State) : QuietTurn s (finishStop s) := ⟨⟨.inr rfl, id⟩, rfl⟩

theorem quietTurn_ejectTape {s t : State} (h : ejectTape s = .ok t) : QuietTurn s t := by
  obtain ⟨u, v, hu, hv, e⟩ := ejectTape_cases h
  rw [e, persistPosition_frame hv, (flush_frame hu).1]
  exact ⟨⟨.inr rfl, id⟩, rfl⟩

theorem quietTurn_openAndEnter {bytes : List Byte} {readOnly : Bool} {s t : State}
    (h : openAndEnter bytes readOnly s = .next t) : QuietTurn s t := by
  obtain ⟨code, -, rfl⟩ | ⟨hd, s1, c, -, h1, -, e⟩ := openAndEnter_cases h
  · exact ⟨⟨.inl rfl, id⟩, rfl⟩
  · rw [e, (load_frame h1).1]
    exact ⟨⟨.inr rfl, id⟩, rfl⟩

theorem quietTurn_finishEject {s t : State} (h : finishEject s = .next t) : QuietTurn s t := by
  obtain ⟨-, h⟩ := withTape_next_iff.1 h
  obtain ⟨u, hu, h⟩ := andThen_next_iff.1 h
  cases h
  exact quietTurn_ejectTape hu

theorem quietTurn_finishInsert {bytes : List Byte} {readOnly : Bool} {s t : State}
    (h : finishInsert bytes readOnly s = .next t) : QuietTurn s t := by
  unfold finishInsert at h
  split at h
  · obtain ⟨u, hu, h⟩ := andThen_next_iff.1 h
    exact quietTurn_trans (quietTurn_ejectTape hu) (quietTurn_openAndEnter h)
  · exact quietTurn_openAndEnter h

/-- `stop_worker` only cancels the worker, or what follows it happens (R282). -/
theorem stopWorker_result {k : Join} {after : State → Result} {s t : State}
    (hafter : after s = .next t → DispatcherResult s t) (h : stopWorker k after s = .next t) : DispatcherResult s t := by
  obtain ⟨-, rfl⟩ | ⟨-, h⟩ := stopWorker_next_iff.1 h
  · exact .quiet ⟨⟨.inl rfl, id⟩, rfl⟩
  · exact hafter h

/-- A start command tests the gate before its join. -/
theorem startMode_result {m : Mode} {s t : State} (h : startMode m s = .next t) : DispatcherResult s t := by
  cases hg : gated s with
  | true =>
    have hignored : startMode m s = .next s := if_pos (.inr (.inl hg))
    cases hignored.symm.trans h
    exact .quiet (quietTurn_refl s)
  | false =>
    obtain rfl | ⟨-, -, ⟨-, rfl⟩ | ⟨-, h⟩⟩ := startMode_cases h
    · exact .quiet (quietTurn_refl t)
    · exact .quiet ⟨⟨.inl rfl, id⟩, rfl⟩
    · exact .start hg h

theorem exec_result {i : Instr} {s t : State} (h : exec i s = .next t) : DispatcherResult s t := by
  obtain ⟨m, -, h⟩ | ⟨-, h⟩ | ⟨-, h⟩ | ⟨kind, value, rfl⟩ := exec_cases h
  · exact startMode_result h
  · unfold execEject at h
    split at h
    · cases h; exact .quiet (quietTurn_refl s)
    · exact stopWorker_result (fun h => .quiet (quietTurn_finishEject h)) h
  · exact stopWorker_result (fun h => by cases h; exact .quiet (quietTurn_idleStop s)) h
  · exact .quiet ⟨⟨.inl rfl, id⟩, rfl⟩

theorem runItem_result {x : CmdItem} {s t : State} (h : runItem x s = .next t) : DispatcherResult s t := by
  cases x with
  | byte b =>
    obtain rfl | ⟨i, h⟩ := runByte_cases h
    · exact .quiet (quietTurn_refl t)
    · exact exec_result h
  | insert bytes readOnly =>
    simp only [runItem, insertTape] at h
    split at h
    · exact stopWorker_result (fun h => .quiet (quietTurn_finishInsert h)) h
    · exact .quiet (quietTurn_openAndEnter h)
  | devErr =>
    rw [runItem_devErr] at h
    exact stopWorker_result (fun h => by cases h; exact .quiet (quietTurn_finishError _ s)) h
  | disconn =>
    rw [runItem_disconn] at h
    exact stopWorker_result (fun h => by cases h; exact .quiet (quietTurn_finishError _ s)) h

/-- A start command tests the gate again after its join (log entry 21). -/
theorem resume_result {k : Join} {s t : State} (h : resume k s = .next t) : DispatcherResult s t := by
  cases k with
  | start m =>
    obtain ⟨-, rfl⟩ | ⟨hg, h⟩ := resumeStart_cases h
    · exact .quiet (quietTurn_finishStop s)
    · exact .start hg h
  | eject => exact .quiet (quietTurn_finishEject h)
  | stop => cases h; exact .quiet (quietTurn_finishStop s)
  | insert bytes readOnly => exact .quiet (quietTurn_finishInsert h)
  | devErr => cases h; exact .quiet (quietTurn_finishError _ s)
  | disconn => cases h; exact .quiet (quietTurn_finishError _ s)

/-- The dispatcher's turn is one result, after it has taken its item or left its join (R280, R282). -/
theorem dispatcherStep_result {s t : State} (h : dispatcherStep s = .next t) :
    ∃ q point, (q = s.cmdQ ∨ ∃ x, s.cmdQ = x :: q) ∧ DispatcherResult { s with cmdQ := q, dispatcherAt := point } t := by
  obtain ⟨k, -, -, rfl⟩ | ⟨k, -, -, h⟩ | ⟨-, -, rfl⟩ | ⟨x, q, -, hq, h⟩ := dispatcherStep_cases h
  · exact ⟨t.cmdQ, t.dispatcherAt, .inl rfl, .quiet (quietTurn_refl t)⟩
  · exact ⟨s.cmdQ, .idle, .inl rfl, resume_result h⟩
  · exact ⟨t.cmdQ, t.dispatcherAt, .inl rfl, .quiet (quietTurn_refl t)⟩
  · exact ⟨q, s.dispatcherAt, .inr ⟨x, hq⟩, runItem_result h⟩

theorem dispatcherResult_cmdQ {s t : State} (h : DispatcherResult s t) : t.cmdQ = s.cmdQ := by
  cases h with
  | quiet h => exact h.cmdQ
  | start _ h => rw [finishStart_frame h]

theorem startsNothing_dispatcherStep {s t : State} (hg : gated s = true) (h : dispatcherStep s = .next t) :
    StartsNothing s t := by
  obtain ⟨q, point, -, hresult⟩ := dispatcherStep_result h
  cases hresult with
  | quiet h => exact ⟨h.mode, h.worker⟩
  | start hopen _ => exact absurd (hg.symm.trans hopen) (by decide)

/-! ### The device gate (R309, R344) -/

/-- While the device is gated no agent's turn starts a worker or enters a running mode (R309). -/
theorem startsNothing_agentStep {a : Agent} {s t : State} (hg : gated s = true) (h : agentStep a s = .next t) :
    StartsNothing s t := by
  cases a with
  | receiver => exact (agentsKept_receiverStep h).startsNothing
  | dispatcher => exact startsNothing_dispatcherStep hg h
  | worker => exact (exitsOnly_workerStep h).startsNothing
  | writer => exact (agentsKept_writerStep h).startsNothing
  | host =>
    obtain hkept | ⟨-, hm, hw⟩ := hostStep_agents h
    · exact hkept.startsNothing
    · exact ⟨.inr (by rw [hm]; rfl), fun _ => hw⟩

theorem sentFrames_gated {s : State} (hg : gated s = true) (frames : List Frame) : sentFrames s frames = s.rspQ :=
  if_pos hg

/-- A RECORD worker in its hold accepts no chunk while the device is gated. -/
theorem workerHolds_gated {s : State} (h : s.devError = true ∨ s.disconnected = true) (hat : s.workerAt = .offerHold)
    (hw : s.writerAlive = true) (hf : s.runFlag = true) : workerHolds s = true := by
  simp [workerHolds, hat, hw, hf, canAccept_eq_false (.inr (.inr h))]

/-- Settles O21: the closed ports are holds, a frame is discarded by `send`, and every turn starts nothing. -/
theorem deviceGateClosesThePorts : Obligations.DeviceGateClosesThePorts := by
  intro s h
  have hg : gated s = true := gated_eq_true h
  refine ⟨agentStep_of_holds (a := .receiver) (by simp [holds, receiverHolds, hg]), fun rest hh => ?take,
    fun _ hat hw hf => agentStep_of_holds (a := .worker) (workerHolds_gated h hat hw hf),
    fun ha hl hm hat hw hf => ?top, fun kind value => send_gated_eq s kind value hg,
    fun i m hi => startIgnoredWithoutEffect s i m hi (.inr (h.imp_right .inl)), fun e => rfl,
    congrArg _ (send_gated_eq s _ _ hg), congrArg _ (send_gated_eq s _ _ hg), fun hw => ?stop,
    fun a t hturn => ?starts⟩
  case take => exact agentStep_of_holds (a := .host) (by simp [holds, hostHolds, hh, canTake, hg])
  case top =>
    rw [agentStep_worker_iterateRec hl ha hm (.inl ⟨hat, rfl⟩) hf (by simp [hat])]
    exact congrArg _ (iterateRec_waits (s := drawUpdate s) hf hw (canAccept_eq_false (s := drawUpdate s) (.inr (.inr h))))
  case stop => rw [stopWithNoWorker s hw, sentFrames_gated hg]
  case starts =>
    have hnothing := startsNothing_agentStep hg hturn
    exact ⟨hnothing.worker, hnothing.mode.resolve_left⟩

/-! ### The error items stay first (R350) -/

theorem queueInv_congr {s t : State} (h : QueueInv s) (hq : t.cmdQ = s.cmdQ) : QueueInv t := by
  rw [QueueInv, hq]; exact h

/-- A command byte or an insertion goes to the tail. -/
theorem queueInv_append {s t : State} {x : CmdItem} (h : QueueInv s) (hx : isErrorItem x = false)
    (hq : t.cmdQ = s.cmdQ ++ [x]) : QueueInv t := by
  rw [QueueInv, hq, List.pairwise_append]
  refine ⟨h, List.pairwise_singleton _ _, fun y _ z hz hz' => ?_⟩
  rw [List.mem_singleton.1 hz, hx] at hz'
  cases hz'

theorem pairwise_insertError {e : CmdItem} (he : isErrorItem e = true) {q : List CmdItem}
    (h : q.Pairwise fun x y => isErrorItem y = true → isErrorItem x = true) :
    (insertError e q).Pairwise fun x y => isErrorItem y = true → isErrorItem x = true := by
  induction q with
  | nil => exact List.pairwise_singleton _ _
  | cons x q ih =>
    unfold insertError
    split
    · rename_i hx
      exact List.pairwise_cons.2 ⟨fun _ _ _ => hx, ih h.of_cons⟩
    · exact List.pairwise_cons.2 ⟨fun _ _ _ => he, h⟩

theorem queueInv_insertError {s t : State} {e : CmdItem} (h : QueueInv s) (he : isErrorItem e = true)
    (hq : t.cmdQ = insertError e s.cmdQ) : QueueInv t := by
  rw [QueueInv, hq]; exact pairwise_insertError he h

theorem queueInv_deviceError {s : State} (h : QueueInv s) : QueueInv (deviceError s) := by
  unfold deviceError
  split
  · exact h
  · exact queueInv_insertError h rfl rfl

theorem queueInv_deviceDisconnected {s : State} (h : QueueInv s) : QueueInv (deviceDisconnected s) := by
  unfold deviceDisconnected
  split
  · exact h
  · exact queueInv_insertError h rfl rfl

theorem queueInv_writerStep {s t : State} (h : QueueInv s) (hstep : writerStep s = .next t) : QueueInv t := by
  obtain ⟨-, rfl⟩ | ⟨-, -, -, hturn⟩ := writerStep_cases hstep
  · exact h
  · obtain ⟨d, u, hd, hk, ht⟩ := writerTurn_frame hturn
    exact queueInv_congr h (by rw [ht, hk.frame, hd])

theorem workerEffect_cmdQ {s t : State} (h : WorkerEffect s t) : t.cmdQ = s.cmdQ := by
  cases h with
  | control h => rw [h]
  | accept _ => rfl

theorem queueInv_workerStep {s t : State} (h : QueueInv s) (hstep : workerStep s = .next t) : QueueInv t := by
  obtain ⟨-, rfl⟩ | ⟨-, -, -, hturn⟩ := workerStep_cases hstep
  · exact h
  · obtain ⟨d, u, hd, hk, heffect⟩ := workerTurn_effect hturn
    have hdraw : d.cmdQ = s.cmdQ := by obtain rfl | rfl := hd <;> rfl
    exact queueInv_congr h (by rw [workerEffect_cmdQ heffect, hk.frame]; exact hdraw)

theorem queueInv_dispatcherStep {s t : State} (h : QueueInv s) (hstep : dispatcherStep s = .next t) : QueueInv t := by
  obtain ⟨q, point, hq, hresult⟩ := dispatcherStep_result hstep
  have htail : QueueInv { s with cmdQ := q, dispatcherAt := point } := by
    obtain rfl | ⟨x, hx⟩ := hq
    · exact h
    · rw [QueueInv, hx] at h; exact h.of_cons
  exact queueInv_congr htail (dispatcherResult_cmdQ hresult)

theorem queueInv_receiverStep {s t : State} (h : QueueInv s) (hstep : receiverStep s = .next t) : QueueInv t := by
  obtain rfl | ⟨b, rest, -, -, rfl⟩ := receiverStep_cases hstep
  · exact h
  · exact queueInv_append h (x := .byte b) rfl rfl

/-- The host appends a command or an insertion, raises an error, or resets the block with an empty queue; every other action
leaves the queue alone (R64, R178, R343, R345, R380). -/
theorem queueInv_hostAct {act : HostAction} {rest : List HostAction} {s t : State} (h : QueueInv s)
    (hact : hostAct act rest s = .next t) : QueueInv t := by
  cases act with
  | issue b => cases hact; exact queueInv_append h (x := .byte b) rfl rfl
  | insert bytes readOnly => cases hact; exact queueInv_append h (x := .insert bytes readOnly) rfl rfl
  | deviceError => cases hact; exact queueInv_deviceError (s := { s with host := rest }) h
  | deviceDisconnected => cases hact; exact queueInv_deviceDisconnected (s := { s with host := rest }) h
  | reset => cases hact; exact List.Pairwise.nil
  | takeChunk => cases hact; split <;> exact h
  | takeFrame => cases hact; unfold takeFrame; split <;> exact h
  | takeEvent =>
    cases hact
    unfold takeEvent
    split
    · exact h
    · split <;> exact h
  | offerChunk bytes =>
    simp only [hostAct, offerChunk] at hact
    split at hact
    · split at hact <;> cases hact <;> exact h
    · cases hact
  | readStatus a =>
    simp only [hostAct, readStatus] at hact
    split at hact <;> split at hact <;> cases hact <;> exact h
  | readImage a =>
    simp only [hostAct, hostRead] at hact
    split at hact
    · cases hact
    · obtain ⟨b, -, hact⟩ := andThen_next_iff.1 hact
      cases hact; exact h
  | writeImage a v =>
    obtain ⟨-, -, rfl⟩ := hostWrite_cases hact
    exact h
  | pushPort _ | setAltRate _ | setRecConv _ | listen => cases hact; exact h

theorem queueInv_agentStep {a : Agent} {s t : State} (h : QueueInv s) (hstep : agentStep a s = .next t) : QueueInv t := by
  cases a with
  | receiver => exact queueInv_receiverStep h hstep
  | dispatcher => exact queueInv_dispatcherStep h hstep
  | worker => exact queueInv_workerStep h hstep
  | writer => exact queueInv_writerStep h hstep
  | host =>
    obtain ⟨-, rfl⟩ | ⟨act, rest, -, hact⟩ := hostStep_cases hstep
    · exact h
    · exact queueInv_hostAct h hact

/-- Settles O57: an item is taken at the head, and added at the tail or, if it is an error item, behind the error items. -/
theorem errorItemsStayFirst : Obligations.ErrorItemsStayFirst := by
  intro s t h hstep
  obtain ⟨u, hu, rfl⟩ := step_next_iff.1 hstep
  have hturn : QueueInv u := queueInv_agentStep (s := { s with sched := s.sched.tail }) h hu
  exact queueInv_congr hturn (by rw [observe_eq])

end Sys2Proof.Proofs
end

section
/-! SUPPORT. The statement of the family 70_reset_and_hazards.md: who clears `devError` and `disconnected` (R57, R381). -/

namespace Sys2Proof.Proofs

open Sys2Proof.Machine Sys2Proof.Laws

/-! ### The device flags (R57, R343, R345, R381)

The block's agents write neither flag, and an action of the host other than reset writes a flag, if at all, to 1. -/

/-- Both device flags are as before. -/
structure DeviceFlagsSame (s t : State) : Prop where
  devError     : t.devError = s.devError
  disconnected : t.disconnected = s.disconnected

/-- A device flag that was set is set. -/
structure DeviceFlagsStaySet (s t : State) : Prop where
  devError     : s.devError = true → t.devError = true
  disconnected : s.disconnected = true → t.disconnected = true

theorem DeviceFlagsSame.staySet {s t : State} (h : DeviceFlagsSame s t) : DeviceFlagsStaySet s t :=
  ⟨h.devError.trans, h.disconnected.trans⟩

theorem deviceFlagsSame_trans {s u t : State} (h1 : DeviceFlagsSame s u) (h2 : DeviceFlagsSame u t) : DeviceFlagsSame s t :=
  ⟨h2.devError.trans h1.devError, h2.disconnected.trans h1.disconnected⟩

theorem deviceFlagsStaySet_after {s u t : State} (h1 : DeviceFlagsSame s u) (h2 : DeviceFlagsStaySet u t) :
    DeviceFlagsStaySet s t :=
  ⟨h2.devError ∘ h1.devError.trans, h2.disconnected ∘ h1.disconnected.trans⟩

/-! #### The worker, the writer and the receiver -/

theorem deviceFlagsSame_tapeKept {s t : State} (h : TapeKept s t) : DeviceFlagsSame s t := by
  rw [h.frame]; exact ⟨rfl, rfl⟩

theorem deviceFlagsSame_writerOnly {s t : State} (h : WriterOnly s t) : DeviceFlagsSame s t := by
  rw [h]; exact ⟨rfl, rfl⟩

theorem deviceFlagsSame_writerStep {s t : State} (h : writerStep s = .next t) : DeviceFlagsSame s t := by
  obtain ⟨-, rfl⟩ | ⟨-, -, -, hturn⟩ := writerStep_cases h
  · exact ⟨rfl, rfl⟩
  · obtain ⟨d, u, hd, hk, ht⟩ := writerTurn_frame hturn
    exact deviceFlagsSame_trans (deviceFlagsSame_writerOnly hd)
      (deviceFlagsSame_trans (deviceFlagsSame_tapeKept hk) (deviceFlagsSame_writerOnly ht))

theorem deviceFlagsSame_workerEffect {s t : State} (h : WorkerEffect s t) : DeviceFlagsSame s t := by
  cases h with
  | control h => rw [h]; exact ⟨rfl, rfl⟩
  | accept _ => exact ⟨rfl, rfl⟩

theorem deviceFlagsSame_workerStep {s t : State} (h : workerStep s = .next t) : DeviceFlagsSame s t := by
  obtain ⟨-, rfl⟩ | ⟨-, -, -, hturn⟩ := workerStep_cases h
  · exact ⟨rfl, rfl⟩
  · obtain ⟨d, u, hd, hk, heffect⟩ := workerTurn_effect hturn
    have hdraw : DeviceFlagsSame s d := by obtain rfl | rfl := hd <;> exact ⟨rfl, rfl⟩
    exact deviceFlagsSame_trans hdraw
      (deviceFlagsSame_trans (deviceFlagsSame_tapeKept hk) (deviceFlagsSame_workerEffect heffect))

theorem deviceFlagsSame_receiverStep {s t : State} (h : receiverStep s = .next t) : DeviceFlagsSame s t := by
  obtain rfl | ⟨b, rest, -, -, rfl⟩ := receiverStep_cases h
  · exact ⟨rfl, rfl⟩
  · exact ⟨rfl, rfl⟩

/-! #### The dispatcher -/

theorem deviceFlagsSame_ejectTape {s t : State} (h : ejectTape s = .ok t) : DeviceFlagsSame s t := by
  obtain ⟨u, v, hu, hv, e⟩ := ejectTape_cases h
  rw [e, persistPosition_frame hv, (flush_frame hu).1]
  exact ⟨rfl, rfl⟩

theorem deviceFlagsSame_openAndEnter {bytes : List Byte} {readOnly : Bool} {s t : State}
    (h : openAndEnter bytes readOnly s = .next t) : DeviceFlagsSame s t := by
  obtain ⟨code, -, rfl⟩ | ⟨hd, s1, c, -, h1, -, e⟩ := openAndEnter_cases h
  · exact ⟨rfl, rfl⟩
  · rw [e, (load_frame h1).1]
    exact ⟨rfl, rfl⟩

/-- The dispatcher's own treatment of an error item leaves the flags as the host set them (R343, R345). -/
theorem deviceFlagsSame_dispatcherEffect {s t : State} (h : DispatcherEffect s t) : DeviceFlagsSame s t := by
  cases h with
  | control h => rw [h]; exact ⟨rfl, rfl⟩
  | start h => rw [finishStart_frame h]; exact ⟨rfl, rfl⟩
  | eject h => exact deviceFlagsSame_ejectTape h
  | insert h => exact deviceFlagsSame_openAndEnter h
  | replace heject h => exact deviceFlagsSame_trans (deviceFlagsSame_ejectTape heject) (deviceFlagsSame_openAndEnter h)

theorem deviceFlagsSame_dispatcherStep {s t : State} (h : dispatcherStep s = .next t) : DeviceFlagsSame s t := by
  obtain ⟨u, hu, heffect⟩ := dispatcherStep_effect h
  have htaken : DeviceFlagsSame s u := by rw [hu]; exact ⟨rfl, rfl⟩
  exact deviceFlagsSame_trans htaken (deviceFlagsSame_dispatcherEffect heffect)

/-! #### The host -/

theorem deviceFlagsStaySet_deviceError (s : State) : DeviceFlagsStaySet s (deviceError s) := by
  unfold deviceError
  split
  · exact ⟨id, id⟩
  · exact ⟨fun _ => rfl, id⟩

theorem deviceFlagsStaySet_deviceDisconnected (s : State) : DeviceFlagsStaySet s (deviceDisconnected s) := by
  unfold deviceDisconnected
  split
  · exact ⟨id, id⟩
  · exact ⟨id, fun _ => rfl⟩

theorem deviceFlagsSame_takeFrame (rest : List HostAction) (s : State) : DeviceFlagsSame s (takeFrame rest s) := by
  unfold takeFrame
  split <;> exact ⟨rfl, rfl⟩

theorem deviceFlagsSame_takeEvent (rest : List HostAction) (s : State) : DeviceFlagsSame s (takeEvent rest s) := by
  unfold takeEvent
  split
  · exact ⟨rfl, rfl⟩
  · split <;> exact ⟨rfl, rfl⟩

theorem deviceFlagsSame_offerChunk {bytes : List Byte} {rest : List HostAction} {s t : State}
    (h : offerChunk bytes rest s = .next t) : DeviceFlagsSame s t := by
  unfold offerChunk at h
  split at h
  · split at h <;> cases h <;> exact ⟨rfl, rfl⟩
  · cases h

theorem deviceFlagsSame_readStatus {a : StatusAccess} {rest : List HostAction} {s t : State}
    (h : readStatus a rest s = .next t) : DeviceFlagsSame s t := by
  unfold readStatus at h
  split at h <;> split at h <;> cases h <;> exact ⟨rfl, rfl⟩

theorem deviceFlagsSame_hostRead {a : Nat} {s t : State} (h : hostRead a s = .next t) : DeviceFlagsSame s t := by
  unfold hostRead at h
  split at h
  · cases h
  · obtain ⟨b, -, h⟩ := andThen_next_iff.1 h
    cases h; exact ⟨rfl, rfl⟩

theorem deviceFlagsSame_hostWrite {a : Nat} {v : Byte} {s t : State} (h : hostWrite a v s = .next t) :
    DeviceFlagsSame s t := by
  obtain ⟨-, -, rfl⟩ := hostWrite_cases h
  exact ⟨rfl, rfl⟩

/-- The two error actions set their flag, reset clears both, and every other action leaves them alone (R343, R345, R381). -/
theorem deviceFlagsStaySet_hostAct {act : HostAction} {rest : List HostAction} {s t : State} (hreset : act ≠ .reset)
    (h : hostAct act rest s = .next t) : DeviceFlagsStaySet s t := by
  cases act with
  | reset => exact absurd rfl hreset
  | deviceError =>
    cases h
    exact deviceFlagsStaySet_after (u := { s with host := rest }) ⟨rfl, rfl⟩ (deviceFlagsStaySet_deviceError _)
  | deviceDisconnected =>
    cases h
    exact deviceFlagsStaySet_after (u := { s with host := rest }) ⟨rfl, rfl⟩ (deviceFlagsStaySet_deviceDisconnected _)
  | takeChunk => cases h; split <;> exact ⟨id, id⟩
  | takeFrame => cases h; exact (deviceFlagsSame_takeFrame rest s).staySet
  | takeEvent => cases h; exact (deviceFlagsSame_takeEvent rest s).staySet
  | offerChunk bytes => exact (deviceFlagsSame_offerChunk h).staySet
  | readStatus a => exact (deviceFlagsSame_readStatus h).staySet
  | readImage a =>
    exact deviceFlagsStaySet_after (u := { s with host := rest }) ⟨rfl, rfl⟩ (deviceFlagsSame_hostRead h).staySet
  | writeImage a v =>
    exact deviceFlagsStaySet_after (u := { s with host := rest }) ⟨rfl, rfl⟩ (deviceFlagsSame_hostWrite h).staySet
  | pushPort _ | issue _ | insert _ _ | setAltRate _ | setRecConv _ | listen => cases h; exact ⟨id, id⟩

theorem deviceFlagsStaySet_hostStep {s t : State} (hreset : s.host.head? ≠ some .reset) (h : hostStep s = .next t) :
    DeviceFlagsStaySet s t := by
  obtain ⟨-, rfl⟩ | ⟨act, rest, hh, hact⟩ := hostStep_cases h
  · exact ⟨id, id⟩
  · refine deviceFlagsStaySet_hostAct (fun he => hreset ?_) hact
    rw [hh, he]; rfl

/-! #### The step -/

theorem deviceFlagsStaySet_agentStep {a : Agent} {s t : State} (hreset : ¬ (a = .host ∧ s.host.head? = some .reset))
    (h : agentStep a s = .next t) : DeviceFlagsStaySet s t := by
  cases a with
  | receiver => exact (deviceFlagsSame_receiverStep h).staySet
  | dispatcher => exact (deviceFlagsSame_dispatcherStep h).staySet
  | worker => exact (deviceFlagsSame_workerStep h).staySet
  | writer => exact (deviceFlagsSame_writerStep h).staySet
  | host => exact deviceFlagsStaySet_hostStep (fun hr => hreset ⟨rfl, hr⟩) h

/-- Settles O22: the block's agents write neither flag, and the host's actions but reset only set them. -/
theorem onlyResetClearsDeviceFlags : Obligations.OnlyResetClearsDeviceFlags := by
  intro s t h hreset
  obtain ⟨u, hu, rfl⟩ := step_next_iff.1 h
  have hset : DeviceFlagsStaySet { s with sched := s.sched.tail } u := deviceFlagsStaySet_agentStep hreset hu
  rw [observe_eq]
  exact ⟨hset.devError, hset.disconnected⟩

end Sys2Proof.Proofs
end
